-- ==== Sys2Proof/Word.lean ====
section
/-! DEFINITION. The word types of the block: bytes and the operand of INIT (00_scope.md R5, R7; 10_state.md R29). -/

namespace Sys2Proof

/-- The unit of every queue, register and wire transfer: 8 bits (R5, R7). -/
abbrev Byte := BitVec 8

/-- The operand of INIT: 32 bits, unsigned (R29). -/
abbrev Baud := BitVec 32

end Sys2Proof
end

