-- ==== Sys2Proof/Syntax.lean ====
section
/-! DEFINITION. The syntax of the machine: the parser's states and the encoder's stages, the instructions (one constructor
a row of spec/opcode_table.json), the encoded forms they are read from, and the turns of the five agents. -/

namespace Sys2Proof

/-- The document's ParserState without its count, which is the register PREM (R30). Codes 5 to 7 are never held (I21). -/
inductive ParserState
  | waitSOF
  | waitLink
  | waitFlags
  | waitLength
  | payload
deriving DecidableEq, Repr

/-- The encoder's stage ESTAGE (R34). Code 7 is never held (I21). -/
inductive Stage
  | idle
  | sof
  | link
  | flags
  | len
  | pay
  | trl
deriving DecidableEq, Repr

/-- The byte classes of the parser's decode table (R94), without their operand. -/
inductive ByteClass
  | sof
  | skip
  | link
  | flags
  | len0
  | lenN
  | data
deriving DecidableEq, Repr

/-- One constructor a row of spec/opcode_table.json (R106), in the table's order. -/
inductive Instr
  /-- INIT baud, command op 0x0 (R120). -/
  | init (baud : Baud)
  /-- PUT b, command op 0x1 (R121). -/
  | put (b : Byte)
  /-- GET, command op 0x2 (R122). -/
  | get
  /-- AVAIL, command op 0x3 (R123). -/
  | avail
  /-- ENCODE link, payload, command op 0x4 (R160): the issue step. -/
  | encode (link : Byte) (payload : List Byte)
  /-- DQ_CLEAR, command op 0x5 (R167). -/
  | dqClear
  /-- DQ_AVAIL, command op 0x6 (R190). -/
  | dqAvail
  /-- DQ_GET, command op 0x7 (R191). -/
  | dqGet
  /-- DQ_PEEK i, command op 0x8 (R192). -/
  | dqPeek (i : Byte)
  /-- RD_ERR, command op 0x9 (R210). -/
  | rdErr
  /-- RD_PSTATE, command op 0xA (R211). -/
  | rdPstate
  /-- RD_PLINK, command op 0xB (R212). -/
  | rdPlink
  /-- RD_CTL, command op 0xC (R213). -/
  | rdCtl
  /-- IRQ_OFF, command op 0xD (R214). -/
  | irqOff
  /-- IRQ_ON, command op 0xE (R215). -/
  | irqOn
  /-- The reserved command op 0xF (R216). -/
  | reservedF
  /-- LINE_IN b: the line delivers a byte (R124). -/
  | lineIn (b : Byte)
  /-- RX_ISR: the receive interrupt handler (R125). -/
  | rxIsr
  /-- TX_ISR: the transmit interrupt handler (R126). -/
  | txIsr
  /-- LINE_OUT: the line takes the output register (R127). -/
  | lineOut
  /-- P_SOF: the byte 0xBF in WaitSOF (R180). -/
  | pSof
  /-- P_SKIP b: any other byte in WaitSOF (R180). -/
  | pSkip (b : Byte)
  /-- P_LINK b: a byte in WaitLink (R181). -/
  | pLink (b : Byte)
  /-- P_FLAGS b: a byte in WaitFlags (R182). -/
  | pFlags (b : Byte)
  /-- P_LEN0: the byte 0x00 in WaitLength (R183). -/
  | pLen0
  /-- P_LENN b: any other byte in WaitLength (R183). -/
  | pLenN (b : Byte)
  /-- P_DATA b: a byte in Payload (R184). -/
  | pData (b : Byte)
  /-- MUXFRAME: a whole frame on the wire (R90). A received frame may hold any flags and any trailer (R95). -/
  | muxframe (link flags : Byte) (payload : List Byte) (trailer : Byte)
  /-- E_SOF: encoder stage 1 (R161). -/
  | eSof
  /-- E_LINK: encoder stage 2 (R162). -/
  | eLink
  /-- E_FLAGS: encoder stage 3 (R163). -/
  | eFlags
  /-- E_LEN: encoder stage 4 (R164). -/
  | eLen
  /-- E_PAY: encoder stage 5 (R165). -/
  | ePay
  /-- E_TRL: encoder stage 6 (R166). -/
  | eTrl
deriving DecidableEq, Repr

/-- What an instruction is read from. The rows of the opcode table belong to seven decode tables, whose bit patterns
overlap: the constructor says which table the bits are presented to, as the agent that presents them does. -/
inductive Encoded
  /-- A word of `width` bits on a command port (R100). -/
  | command (width bits : Nat)
  /-- A byte the line delivers (R103, LINE_IN). -/
  | lineByte (b : Byte)
  /-- The vector GIE, RXIE, RXC (R103, RX_ISR). -/
  | rxVector (v : BitVec 3)
  /-- The vector GIE, TXIE, TXRDY (R103, TX_ISR). -/
  | txVector (v : BitVec 3)
  /-- The vector TXRDY (R103, LINE_OUT). -/
  | outVector (v : BitVec 1)
  /-- A byte given to the parser, with the code in PSTATE (R94). -/
  | parserByte (pstate : BitVec 3) (b : Byte)
  /-- The bytes of a frame on the wire, in the order sent (R90). -/
  | wire (bytes : List Byte)
  /-- The code in ESTAGE (R34). -/
  | stage (code : BitVec 3)
deriving DecidableEq, Repr

/-- Why bits are no instruction: the decoder rejects by name. -/
inductive DecodeError
  /-- The word has a bit above its stated width: no such word (R100). -/
  | bitsBeyondWidth
  /-- The width is not that of the operation's format: "cannot be formed" (R102). -/
  | widthNotOfFormat
  /-- The flag vector does not match: the handler is not enabled, the line has nothing to take (R103). -/
  | vectorNotEnabled
  /-- A PSTATE code 5 to 7, which is never held (R30). -/
  | parserStateNeverHeld
  /-- Fewer than the four header bytes of a frame (R90). -/
  | frameHeaderShort
  /-- The first byte of the frame is not 0xBF (R90). -/
  | frameNotSof
  /-- The frame does not have 5 + n bytes (R90, R91). -/
  | frameLengthWrong
  /-- ESTAGE 0: no ENCODE is in progress (R34). -/
  | encoderIdle
  /-- ESTAGE 7, which is never held (R34). -/
  | stageNeverHeld
deriving DecidableEq, Repr

/-- A turn of one of the five agents of R9. `port` numbers the block whose handler or line it is; the foreground is one for
all blocks (R35), and its next operation comes from the list of operations it was given. -/
inductive Agent
  | fg
  | rxh (port : Nat)
  | txh (port : Nat)
  | lin (port : Nat) (b : Byte)
  | lout (port : Nat)
deriving DecidableEq, Repr, Inhabited

/-- Which part of the machine takes an instruction as its step (R10, R41). The foreground has two: an operation presented on a
port, and a stage of the ENCODE in progress. A byte class is taken inside the receive handler's step (R185). -/
inductive Role
  | port
  | stage
  | rxh
  | byteClass
  | txh
  | lin
  | lout
  | wire
deriving DecidableEq, Repr

/-- The role of each instruction, from the column "agent" of R10. -/
def Instr.role : Instr → Role
  | .init _ => .port
  | .put _ => .port
  | .get => .port
  | .avail => .port
  | .encode _ _ => .port
  | .dqClear => .port
  | .dqAvail => .port
  | .dqGet => .port
  | .dqPeek _ => .port
  | .rdErr => .port
  | .rdPstate => .port
  | .rdPlink => .port
  | .rdCtl => .port
  | .irqOff => .port
  | .irqOn => .port
  | .reservedF => .port
  | .lineIn _ => .lin
  | .rxIsr => .rxh
  | .txIsr => .txh
  | .lineOut => .lout
  | .pSof => .byteClass
  | .pSkip _ => .byteClass
  | .pLink _ => .byteClass
  | .pFlags _ => .byteClass
  | .pLen0 => .byteClass
  | .pLenN _ => .byteClass
  | .pData _ => .byteClass
  | .muxframe _ _ _ _ => .wire
  | .eSof => .stage
  | .eLink => .stage
  | .eFlags => .stage
  | .eLen => .stage
  | .ePay => .stage
  | .eTrl => .stage

/-- An entry of the schedule: a turn of an agent, or bytes (a whole frame, where they form one) that the surroundings start to send to a
block. -/
inductive Turn
  | agent (a : Agent)
  | wire (port : Nat) (bytes : List Byte)
deriving DecidableEq, Repr

/-- A command word the foreground presents on the port of a block (R100). -/
structure Command where
  port  : Nat
  width : Nat
  bits  : Nat
deriving DecidableEq, Repr

/-- The byte memories of one block (R60, R34). -/
inductive BufName
  | rxq
  | txq
  | dq
  | epay
deriving DecidableEq, Repr

end Sys2Proof
end

