-- ==== Sys2Proof/WellFormed.lean ====
section
/-! DEFINITION. Which terms of `Instr` the encodings can express (30_encoding.md R94, R100; I17). -/

namespace Sys2Proof

/-- A payload of at most 255 bytes: "payload: ≤255 bytes"; the length field has 8 bits (R90, R100, I17). -/
def payloadFits (payload : List Byte) : Bool := decide (payload.length ≤ 255)

/-- Whether some bits decode to the instruction. P_SKIP is tried after P_SOF and P_LENN after P_LEN0 (R94), so a P_SKIP
of 0xBF and a P_LENN of 0 do not exist; a longer payload cannot be expressed (I17). -/
def Instr.wellFormed : Instr → Bool
  | .encode _ payload => payloadFits payload
  | .muxframe _ _ payload _ => payloadFits payload
  | .pSkip b => decide (b ≠ 0xBF#8)
  | .pLenN b => decide (b ≠ 0#8)
  | .init _ => true
  | .put _ => true
  | .get => true
  | .avail => true
  | .dqClear => true
  | .dqAvail => true
  | .dqGet => true
  | .dqPeek _ => true
  | .rdErr => true
  | .rdPstate => true
  | .rdPlink => true
  | .rdCtl => true
  | .irqOff => true
  | .irqOn => true
  | .reservedF => true
  | .lineIn _ => true
  | .rxIsr => true
  | .txIsr => true
  | .lineOut => true
  | .pSof => true
  | .pLink _ => true
  | .pFlags _ => true
  | .pLen0 => true
  | .pData _ => true
  | .eSof => true
  | .eLink => true
  | .eFlags => true
  | .eLen => true
  | .ePay => true
  | .eTrl => true

end Sys2Proof
end

