-- ==== Sys2Proof/Decode.lean ====
section
/-! DEFINITION. The decoder, total on any bits and rejecting by name, and after it the encoder (30_encoding.md R90 to R103). -/

namespace Sys2Proof

/-- The start-of-frame byte (R90). -/
def sofByte : Byte := 0xBF#8

/-- The trailer of a frame: "link id XOR 0xFF" (R90, R93). -/
def trailerOf (link : Byte) : Byte := link ^^^ 0xFF#8

/-- The code a parser state has in PSTATE (R30). -/
def ParserState.code : ParserState → BitVec 3
  | .waitSOF => 0#3
  | .waitLink => 1#3
  | .waitFlags => 2#3
  | .waitLength => 3#3
  | .payload => 4#3

/-- The parser state of a code; 5, 6 and 7 are never held (R30). -/
def parserStateOf (code : BitVec 3) : Option ParserState :=
  if code = 0#3 then some .waitSOF
  else if code = 1#3 then some .waitLink
  else if code = 2#3 then some .waitFlags
  else if code = 3#3 then some .waitLength
  else if code = 4#3 then some .payload
  else none

/-- The code a stage has in ESTAGE (R34). -/
def Stage.code : Stage → BitVec 3
  | .idle => 0#3
  | .sof => 1#3
  | .link => 2#3
  | .flags => 3#3
  | .len => 4#3
  | .pay => 5#3
  | .trl => 6#3

/-- The stage of a code; 7 is never held (R34). -/
def stageOf (code : BitVec 3) : Option Stage :=
  if code = 0#3 then some .idle
  else if code = 1#3 then some .sof
  else if code = 2#3 then some .link
  else if code = 3#3 then some .flags
  else if code = 4#3 then some .len
  else if code = 5#3 then some .pay
  else if code = 6#3 then some .trl
  else none

/-- The parser's decode table (R94): within a state the rows are tried in order, the test is (b AND mask) = match. -/
def classify (ps : ParserState) (b : Byte) : ByteClass :=
  match ps with
  | .waitSOF => if b &&& 0xFF#8 = 0xBF#8 then .sof else .skip
  | .waitLink => .link
  | .waitFlags => .flags
  | .waitLength => if b &&& 0xFF#8 = 0x00#8 then .len0 else .lenN
  | .payload => .data

/-- The instruction of a byte class with its operand (R94). -/
def ByteClass.instr (c : ByteClass) (b : Byte) : Instr :=
  match c with
  | .sof => .pSof
  | .skip => .pSkip b
  | .link => .pLink b
  | .flags => .pFlags b
  | .len0 => .pLen0
  | .lenN => .pLenN b
  | .data => .pData b

/-- The little-endian list of the lowest `n` bytes of a number: payload[k] = cmd[27+8k : 20+8k], less the offset (R100). -/
def unpackBytes : Nat → Nat → List Byte
  | 0, _ => []
  | n + 1, v => BitVec.ofNat 8 (v % 256) :: unpackBytes n (v / 256)

/-- The number whose bytes, lowest first, are the list: the inverse of `unpackBytes`. -/
def packBytes : List Byte → Nat
  | [] => 0
  | b :: bs => b.toNat + 256 * packBytes bs

/-- The field cmd[11:4] of formats C1 and CV (R100). -/
def fieldA (bits : Nat) : Byte := BitVec.ofNat 8 (bits / 16 % 256)

/-- The field n = cmd[19:12] of format CV (R100). -/
def fieldN (bits : Nat) : Nat := bits / 4096 % 256

/-- The width in bits of a word with these low bits: C4 for op 0, C1 for ops 1 and 8, CV for op 4, C0 for the others (R100, R101). -/
def formatWidth (bits : Nat) : Nat :=
  match bits % 16 with
  | 0 => 36
  | 1 => 12
  | 8 => 12
  | 4 => 20 + 8 * fieldN bits
  | _ => 4

/-- The operation a word names by cmd[3:0], with its operands (R100, R101). -/
def commandInstr (bits : Nat) : Instr :=
  match bits % 16 with
  | 0 => .init (BitVec.ofNat 32 (bits / 16))
  | 1 => .put (fieldA bits)
  | 2 => .get
  | 3 => .avail
  | 4 => .encode (fieldA bits) (unpackBytes (fieldN bits) (bits / 1048576))
  | 5 => .dqClear
  | 6 => .dqAvail
  | 7 => .dqGet
  | 8 => .dqPeek (fieldA bits)
  | 9 => .rdErr
  | 10 => .rdPstate
  | 11 => .rdPlink
  | 12 => .rdCtl
  | 13 => .irqOff
  | 14 => .irqOn
  | _ => .reservedF

/-- A command word: it has no bit above its width, and the width is its operation's format's (R100, R102). A word with op
0xF is the reserved operation whatever its width (R216; DESIGN CHOICE, log entry 9). -/
def decodeCommand (width bits : Nat) : Except DecodeError Instr :=
  if 2 ^ width ≤ bits then .error .bitsBeyondWidth
  else if bits % 16 = 15 then .ok .reservedF
  else if width = formatWidth bits then .ok (commandInstr bits)
  else .error .widthNotOfFormat

/-- A frame on the wire: 0xBF, link, flags, n, then n payload bytes and the trailer (R90). Any flags and any trailer are
taken, as the parser takes them (R95). -/
def decodeWire (bytes : List Byte) : Except DecodeError Instr :=
  match bytes with
  | sof :: link :: flags :: n :: rest =>
    if sof ≠ sofByte then .error .frameNotSof
    else if rest.length ≠ n.toNat + 1 then .error .frameLengthWrong
    else .ok (.muxframe link flags (rest.take n.toNat) ((rest.drop n.toNat).headD 0#8))
  | _ => .error .frameHeaderShort

/-- The stage rule that a value of ESTAGE selects (R34, R160). -/
def decodeStage (code : BitVec 3) : Except DecodeError Instr :=
  match stageOf code with
  | none => .error .stageNeverHeld
  | some .idle => .error .encoderIdle
  | some .sof => .ok .eSof
  | some .link => .ok .eLink
  | some .flags => .ok .eFlags
  | some .len => .ok .eLen
  | some .pay => .ok .ePay
  | some .trl => .ok .eTrl

/-- The decoder: total on any bits presented to any of the decode tables. -/
def decode : Encoded → Except DecodeError Instr
  | .command width bits => decodeCommand width bits
  | .lineByte b => .ok (.lineIn b)
  | .rxVector v => if v &&& 0b111#3 = 0b111#3 then .ok .rxIsr else .error .vectorNotEnabled
  | .txVector v => if v &&& 0b111#3 = 0b111#3 then .ok .txIsr else .error .vectorNotEnabled
  | .outVector v => if v &&& 0b1#1 = 0b0#1 then .ok .lineOut else .error .vectorNotEnabled
  | .parserByte ps b =>
    match parserStateOf ps with
    | none => .error .parserStateNeverHeld
    | some st => .ok ((classify st b).instr b)
  | .wire bytes => decodeWire bytes
  | .stage code => decodeStage code

/-- The bytes of a frame in the order sent (R90). -/
def wireBytes (link flags : Byte) (payload : List Byte) (trailer : Byte) : List Byte :=
  [sofByte, link, flags, BitVec.ofNat 8 payload.length] ++ payload ++ [trailer]

/-- The frame that ENCODE link, payload puts on the wire: flags 0x00 and the right trailer (R90, R168). -/
def frameBytes (link : Byte) (payload : List Byte) : List Byte :=
  wireBytes link 0x00#8 payload (trailerOf link)

/-- The encoder: the word, vector, byte or bytes that stand for an instruction (R90, R94, R101, R103, R34). -/
def encode : Instr → Encoded
  | .init baud => .command 36 (16 * baud.toNat)
  | .put b => .command 12 (1 + 16 * b.toNat)
  | .get => .command 4 2
  | .avail => .command 4 3
  | .encode link payload =>
    .command (20 + 8 * payload.length)
      (4 + 16 * link.toNat + 4096 * payload.length + 1048576 * packBytes payload)
  | .dqClear => .command 4 5
  | .dqAvail => .command 4 6
  | .dqGet => .command 4 7
  | .dqPeek i => .command 12 (8 + 16 * i.toNat)
  | .rdErr => .command 4 9
  | .rdPstate => .command 4 10
  | .rdPlink => .command 4 11
  | .rdCtl => .command 4 12
  | .irqOff => .command 4 13
  | .irqOn => .command 4 14
  | .reservedF => .command 4 15
  | .lineIn b => .lineByte b
  | .rxIsr => .rxVector 0b111#3
  | .txIsr => .txVector 0b111#3
  | .lineOut => .outVector 0b0#1
  | .pSof => .parserByte 0#3 0xBF#8
  | .pSkip b => .parserByte 0#3 b
  | .pLink b => .parserByte 1#3 b
  | .pFlags b => .parserByte 2#3 b
  | .pLen0 => .parserByte 3#3 0x00#8
  | .pLenN b => .parserByte 3#3 b
  | .pData b => .parserByte 4#3 b
  | .muxframe link flags payload trailer => .wire (wireBytes link flags payload trailer)
  | .eSof => .stage 1#3
  | .eLink => .stage 2#3
  | .eFlags => .stage 3#3
  | .eLen => .stage 4#3
  | .ePay => .stage 5#3
  | .eTrl => .stage 6#3

/-- The decoder's answer as an option. -/
def decodeOk (e : Encoded) : Option Instr :=
  match decode e with
  | .ok i => some i
  | .error _ => none

/-- The bytes of a frame whose four header bytes are the number `w`, first byte in bits 31 to 24 as the table's row
MUXFRAME numbers them; every byte after the header is 0. -/
def headerBytes (w : Nat) : List Byte :=
  [BitVec.ofNat 8 (w / 16777216), BitVec.ofNat 8 (w / 65536), BitVec.ofNat 8 (w / 256), BitVec.ofNat 8 w]
    ++ List.replicate (w % 256 + 1) 0#8

/-- What bits of a table row stand for. The rows of seven decode tables share bit patterns, and the number alone does not
say which table it is for; it is read, in this order, as a frame header (32 bits, first byte 0xBF), a command word, the one
parser byte with a full pattern (0xBF), a byte of the line (log entry 12). A number that is none of these is presented on
the command port as it is. -/
def tableEncoded (nbits w : Nat) : Encoded :=
  if nbits = 32 ∧ w / 16777216 = 0xBF then .wire (headerBytes w)
  else if w < 16 ∨ (nbits ≠ 8 ∧ w < 2 ^ formatWidth w) then .command (formatWidth w) w
  else if nbits = 8 ∧ w = 0xBF then .parserByte 0#3 0xBF#8
  else if nbits = 8 ∧ w < 256 then .lineByte (BitVec.ofNat 8 w)
  else .command nbits w

/-- The instruction the decoder reads from an instruction whose bits are `w`, numbered as spec/opcode_table.json numbers them. -/
def decodeTableWord (nbits w : Nat) : Option Instr := decodeOk (tableEncoded nbits w)

end Sys2Proof
end

