-- ==== Sys2Proof/Config.lean ====
section
/-! DEFINITION. What the spec leaves open: the parameters of a block (00_scope.md R5), the choice of parameters that
State.reset names (DESIGN CHOICE, log entry 4), and the free values (log entries 1 and 5), which have no body. -/

namespace Sys2Proof

/-- The parameters of one block (R5). -/
structure BlockParams where
  rxCap     : Nat
  txCap     : Nat
  dqCap     : Nat
  hasParser : Bool
deriving DecidableEq, Repr

/-- The ranges of R5 and R6: RX_CAP from 64 to 256, the other capacities from 2 to 256. -/
abbrev BlockParams.Legal (p : BlockParams) : Prop :=
  (64 ≤ p.rxCap ∧ p.rxCap ≤ 256) ∧ (2 ≤ p.txCap ∧ p.txCap ≤ 256) ∧ (2 ≤ p.dqCap ∧ p.dqCap ≤ 256)

/-- The debug console of §4.1: no parser. Capacities as the test vectors use them (DESIGN CHOICE, log entry 4). -/
def Config.console : BlockParams := { rxCap := 64, txCap := 40, dqCap := 256, hasParser := false }

/-- The Bluetooth module's control channel of §4.1: with a parser (DESIGN CHOICE, log entry 4). -/
def Config.moduleChannel : BlockParams := { rxCap := 64, txCap := 40, dqCap := 256, hasParser := true }

/-- Free value: the byte in a slot that nothing has written since power-on, "any value" (R45, I6, I7, I8). -/
opaque Config.powerOnByte (port : Nat) (buf : BufName) (slot : Nat) : Byte

/-- Free value: which agent takes the next step, and the byte where the line delivers one, when the schedule does not
say (R70, R240, I10, I11). Read at successive values of the counter `State.tick`. -/
opaque Config.freeTurn (tick : Nat) : Agent

end Sys2Proof
end

