-- ==== Sys2Proof/Machine/State.lean ====
section
/-! DEFINITION. The state of the machine as plain data (10_state.md R20 to R45), the reasons of its outcomes, and the
machine right after power-on reset (R45, R260). -/

namespace Sys2Proof.Machine

/-- A byte memory: the slots that have been written, as (slot, byte) cells with the slots strictly rising. What a slot that
is not listed reads as is said in Machine/Ops.lean. -/
abbrev Memory := List Host.Cell

/-- The events a step can raise, each with the byte that caused it (R231). -/
inductive Event
  /-- Code 0: RX_ISR drops a byte because RXQ is full (R125). -/
  | rxqDrop (b : Byte)
  /-- Code 1: PARSE drops a payload byte because DQ is full (R184). -/
  | dqDrop (b : Byte)
  /-- Code 2: LINE_IN finds RXC set and loses the new byte (R124). -/
  | lineOvr (b : Byte)
  /-- Code 3: WaitSOF sees neither the expected trailer nor a start of frame in its place (R180). -/
  | frmErr (b : Byte)
deriving DecidableEq, Repr

/-- The reasons for which a foreground operation is refused: it changes nothing and the run is marked (R236). -/
inductive RefuseReason
  /-- The operation code 0xF (R216). -/
  | badOp
  /-- GET where the parser consumes RXQ (R122). -/
  | getOnParserInstance
  /-- A de-framed queue or parser operation where there is no parser (R167, R190 to R192, R211, R212). -/
  | noParser
  /-- DQ_PEEK at or beyond the occupancy (R192). -/
  | peekRange
deriving DecidableEq, Repr

/-- What a port returns: results are 8, 9 or 11 bits wide (R101, R39). -/
inductive PortResult
  | bits8 (v : BitVec 8)
  | bits9 (v : BitVec 9)
  | bits11 (v : BitVec 11)
deriving DecidableEq, Repr

/-- The operations that the foreground can hold (R35). An ENCODE that waits is `FgState.encode`. -/
inductive HeldOp
  | put (b : Byte)
  | get
  | dqGet
deriving DecidableEq, Repr

/-- FGST: what the one foreground is doing, and on which port (R35, R250). -/
inductive FgState
  | idle
  | hold (port : Nat) (op : HeldOp)
  | encode (port : Nat)
deriving DecidableEq, Repr

/-- A ByteQueue (R21): its capacity, its buffer and its two 8-bit indices. `port` and `name` say whose memory the buffer is,
so that slots nothing has written have free values of their own; they and `cap` never change. -/
structure Queue where
  port : Nat
  name : BufName
  cap  : Nat
  buf  : Memory
  head : BitVec 8
  tail : BitVec 8
deriving DecidableEq, Repr

/-- What a block has only if HAS_PARSER: the de-framed queue and the parser's registers (R24, R30 to R32). -/
structure Parser where
  dq      : Queue
  pstate  : ParserState
  prem    : Byte
  plink   : Byte
  plinkv  : Bool
  ptrail  : Byte
  ptrailv : Bool
deriving DecidableEq, Repr

/-- One copy of the block's state (R20), GIE and FGST apart. HAS_PARSER is that `parser` is some. `port` is the block's
number, configuration like the capacities. -/
structure Block where
  port    : Nat
  rxq     : Queue
  txq     : Queue
  rdr     : Byte
  rxc     : Bool
  tdr     : Byte
  txrdy   : Bool
  rxie    : Bool
  txie    : Bool
  baud    : Baud
  parser  : Option Parser
  err     : BitVec 8
  estage  : Stage
  elink   : Byte
  elen    : Byte
  eidx    : Byte
  epay    : Memory
  wireOut : List Byte
  evlog   : List Event
deriving DecidableEq, Repr

/-- The state of the whole system. The blocks in port order are `below`, then `blk`, then `above`: `blk` is the block on
whose port or line the current step is, and there is always at least one (R5: N_INST >= 1). `gie` and `fgst` are shared
(R250). `refusals` is the refusal mark (R236). `results`, `program`, `script` and `tick` are the model's own: what the ports
have returned, the command words still to be presented, the turns already fixed, the free turns taken. -/
structure State where
  below    : List Block
  blk      : Block
  above    : List Block
  gie      : Bool
  fgst     : FgState
  refusals : List RefuseReason
  results  : List PortResult
  program  : List Command
  script   : List Turn
  tick     : Nat
deriving DecidableEq, Repr

/-- Why the machine stops with a fault. -/
inductive Fault
  /-- Raised by the fetch when a command word is presented on the port of a block that does not exist (R100: each block has
  its own port, and there are no others). Safe: the model stops where the spec has no step. -/
  | noSuchPort
deriving DecidableEq, Repr

/-- Why a step has no meaning. The refusals of R236 are none of these: they are next states. -/
inductive Refusal
  /-- An instruction without a meaning. Safe. No arm of exec answers it: every instruction has one. -/
  | notModelled (mnemonic : String)
  /-- Raised by the fetch when the bits presented on a command port are no command word: such a word "cannot be formed" (R102),
  so no foreground presents it and the spec gives it no effect. Nothing else raises it. Safe. -/
  | undecodable (why : DecodeError)
  /-- Raised by ENCODE for a term with more than 255 payload bytes, which no word encodes (R100, I17). Safe. -/
  | payloadTooLong
deriving DecidableEq, Repr

/-- A queue right after power-on: both indices 0, no slot written (R45). -/
def Queue.powerOn (port : Nat) (name : BufName) (cap : Nat) : Queue :=
  { port := port, name := name, cap := cap, buf := [], head := 0#8, tail := 0#8 }

/-- The parser right after power-on: WaitSOF (R45). PTRAIL is unspecified there: 0x00 is a DESIGN CHOICE (log entry 6). -/
def Parser.powerOn (port : Nat) (p : BlockParams) : Parser :=
  { dq := Queue.powerOn port .dq p.dqCap, pstate := .waitSOF, prem := 0#8, plink := 0#8, plinkv := false,
    ptrail := 0#8, ptrailv := false }

/-- A block right after power-on (R45). RDR, TDR, BAUD, ELINK, ELEN and EIDX are unspecified there: 0 is a DESIGN CHOICE
(log entry 6). -/
def Block.powerOn (port : Nat) (p : BlockParams) : Block :=
  { port := port
    rxq := Queue.powerOn port .rxq p.rxCap
    txq := Queue.powerOn port .txq p.txCap
    rdr := 0#8, rxc := false, tdr := 0#8, txrdy := true, rxie := false, txie := false, baud := 0#32
    parser := if p.hasParser then some (Parser.powerOn port p) else none
    err := 0#8
    estage := .idle, elink := 0#8, elen := 0#8, eidx := 0#8, epay := []
    wireOut := [], evlog := [] }

/-- The blocks from port `k` on, right after power-on. -/
def powerOnBlocks : Nat → List BlockParams → List Block
  | _, [] => []
  | k, p :: ps => Block.powerOn k p :: powerOnBlocks (k + 1) ps

/-- The system right after power-on reset (R45, R260), for any parameters of its one or more blocks (R5). -/
def State.powerOn (first : BlockParams) (rest : List BlockParams) : State :=
  { below := [], blk := Block.powerOn 0 first, above := powerOnBlocks 1 rest
    gie := false, fgst := .idle, refusals := [], results := [], program := [], script := [], tick := 0 }

/-- The machine right after reset: the two blocks §4.1 names, the debug console on port 0 and the module channel on port 1
(DESIGN CHOICE, log entry 4). Nothing is in the program and nothing in the script. -/
def State.reset : State := State.powerOn Config.console [Config.moduleChannel]

end Sys2Proof.Machine
end

