-- ==== Sys2Proof/Machine/Ops.lean ====
section
/-! DEFINITION. The named operations: byte memories, the ByteQueue primitives (20_memory.md R62 to R67), raising an event
(60_exceptions.md R232), refusing (R236), holding (R71), and choosing the block a step acts on (R250). The block has no
exception entry or return: nothing diverts control, an interrupt saves and restores nothing (R242, R243). -/

namespace Sys2Proof.Machine

/-! ### Byte memories -/

/-- The byte written last to a slot, if any. -/
def Memory.read : Memory → Nat → Option Byte
  | [], _ => none
  | (k, v) :: m, a => if k = a then some v else Memory.read m a

/-- Writes one slot and no other (R64), keeping the slots rising. -/
def Memory.write : Memory → Nat → Byte → Memory
  | [], a, v => [(a, v)]
  | (k, w) :: m, a, v =>
    if a < k then (a, v) :: (k, w) :: m
    else if a = k then (a, v) :: m
    else (k, w) :: Memory.write m a v

/-- The canonical form: slots strictly rising. A slot that is not listed has no byte of its own (it reads as a free value),
so no entry can equal what an unlisted slot reads as, and no write removes one (log entry 5). -/
def Memory.wf : Memory → Bool
  | [] => true
  | [_] => true
  | (k, _) :: (k', v') :: m => decide (k < k') && Memory.wf ((k', v') :: m)

/-- Every listed slot is below a bound: the memory has that many slots (R60). -/
def Memory.within (m : Memory) (n : Nat) : Bool := m.all fun c => decide (c.1 < n)

/-! ### The ByteQueue primitives -/

/-- MemRead(Q.buf, i, 1) (R64). A slot nothing has written reads as a free value (R45, I6; log entry 5). -/
def Queue.slot (q : Queue) (i : Nat) : Byte := (q.buf.read i).getD (Config.powerOnByte q.port q.name i)

/-- (i + 1) mod C (R77): the index after i, wrapping to 0 (R69). -/
def Queue.after (q : Queue) (i : BitVec 8) : BitVec 8 := BitVec.ofNat 8 ((i.toNat + 1) % q.cap)

/-- occ(Q) = (head - tail) mod C, by the two cases of R62. -/
def Queue.occ (q : Queue) : Nat :=
  if q.tail.toNat ≤ q.head.toNat then q.head.toNat - q.tail.toNat else q.head.toNat + q.cap - q.tail.toNat

/-- empty(Q) (R63). -/
def Queue.empty (q : Queue) : Bool := decide (q.head = q.tail)

/-- full(Q): the next head slot collides with tail (R63). -/
def Queue.full (q : Queue) : Bool := decide (q.after q.head = q.tail)

/-- MemWrite(Q.buf, head, 1, b), then head advances: the storing half of push (R65). -/
def Queue.store (q : Queue) (b : Byte) : Queue :=
  { q with buf := q.buf.write q.head.toNat b, head := q.after q.head }

/-- push(Q, b) (R65): the queue after, and whether the byte was stored. A dropped push changes nothing. -/
def Queue.push (q : Queue) (b : Byte) : Queue × Bool :=
  if q.full then (q, false) else (q.store b, true)

/-- The byte pop(Q) returns (R66). -/
def Queue.front (q : Queue) : Byte := q.slot q.tail.toNat

/-- The queue after pop(Q): tail advances, the vacated slot keeps its byte (R66). -/
def Queue.pop (q : Queue) : Queue := { q with tail := q.after q.tail }

/-- peek(Q, i) (R67). -/
def Queue.peek (q : Queue) (i : Nat) : Byte := q.slot ((q.tail.toNat + i) % q.cap)

/-- flush(Q): tail moves up to head (R67). -/
def Queue.flush (q : Queue) : Queue := { q with tail := q.head }

/-- zero(Q): both indices to 0 (R67). -/
def Queue.zero (q : Queue) : Queue := { q with head := 0#8, tail := 0#8 }

/-- The live bytes of a queue from oldest to newest (R21). -/
def Queue.live (q : Queue) : List Byte := (List.range q.occ).map q.peek

/-! ### Events -/

/-- The code of an event: the number of its ERR bit (R231). -/
def Event.code : Event → Nat
  | .rxqDrop _ => 0
  | .dqDrop _ => 1
  | .lineOvr _ => 2
  | .frmErr _ => 3

/-- raise E(b): x[ERR][code] <- 1 and evlog gains E(b), and nothing else (R232). -/
def Block.raise (b : Block) (e : Event) : Block :=
  { b with err := b.err ||| BitVec.ofNat 8 (2 ^ e.code), evlog := b.evlog ++ [e] }

/-! ### The blocks of the system -/

/-- The blocks in port order (R250). -/
def State.blocks (s : State) : List Block := s.below ++ s.blk :: s.above

/-- The number of the block the current step acts on. -/
def State.portNo (s : State) : Nat := s.below.length

/-- Makes block `k` the one the step acts on; none where there is no such block. No block changes. -/
def State.select (s : State) (k : Nat) : Option State :=
  match s.blocks.drop k with
  | [] => none
  | b :: rest => some { s with below := s.blocks.take k, blk := b, above := rest }

/-- Replaces the block the step acts on. -/
def State.setBlk (s : State) (b : Block) : State := { s with blk := b }

/-- Replaces the parser of a block. -/
def Block.setParser (b : Block) (p : Parser) : Block := { b with parser := some p }

/-! ### Foreground operations -/

/-- What a meaning answers. -/
abbrev Answer := Host.Outcome State Fault Refusal

/-- Whether the foreground may take a step of this operation: it is idle, or it holds this very operation on this port
(R35, R71: while it holds or encodes it issues no other). -/
def State.fgReady (s : State) (op : Option HeldOp) : Bool :=
  match s.fgst with
  | .idle => true
  | .hold k held => decide (k = s.portNo) && decide (op = some held)
  | .encode _ => false

/-- A step of a foreground operation. Where the foreground may not take it there is no such step, and nothing changes
(log entry 10). -/
def State.operate (s : State) (op : Option HeldOp) (body : State → Answer) : Answer :=
  if s.fgReady op then body s else .next s

/-- `hold`: FGST <- FgHold(op), nothing else changes (R71). -/
def State.hold (s : State) (op : HeldOp) : Answer := .next { s with fgst := .hold s.portNo op }

/-- `refuse`: no state of the block changes, no result, the run is marked (R236). -/
def State.refuse (s : State) (r : RefuseReason) : Answer := .next { s with refusals := s.refusals ++ [r] }

/-- The operation is complete without a result: FGST <- FgIdle. -/
def State.done (s : State) : State := { s with fgst := .idle }

/-- The operation is complete with a result, which the port returns (R101). -/
def State.answer (s : State) (r : PortResult) : State := { s with fgst := .idle, results := s.results ++ [r] }

/-- push(TXQ, v) where TXQ is not full, and x[TXIE] <- 1: what PUT and every encoder stage do (R121, R161). -/
def Block.txPut (b : Block) (v : Byte) : Block := { b with txq := (b.txq.push v).1, txie := true }

end Sys2Proof.Machine
end

