-- ==== Sys2Proof/Machine/Operands.lean ====
section
/-! DEFINITION. Operands and results: the encoder's payload latch (R34, R160) and the readout layouts of 10_state.md R39. The
operands of a command word are cut out of it in Decode.lean (30_encoding.md R100); no operand is a register or an address (R36, R60). -/

namespace Sys2Proof.Machine

/-- `for k in 0 .. n-1 do x[EPAY[k]] <- payload[k]`, from slot `k` on (R160). -/
def latchPayload (m : Memory) (k : Nat) : List Byte → Memory
  | [] => m
  | b :: bs => latchPayload (m.write k b) (k + 1) bs

/-- x[EPAY[i]] (R34). A slot nothing has latched reads as a free value (R45, I7; log entry 5). -/
def Block.epaySlot (b : Block) (i : Nat) : Byte := (b.epay.read i).getD (Config.powerOnByte b.port .epay i)

/-- The result of RD_PSTATE: PSTATE[2:0], PREM[7:0] (R39, R211). -/
def Parser.stateReadout (p : Parser) : BitVec 11 := p.pstate.code ++ p.prem

/-- The result of RD_PLINK: PLINKV, PLINK[7:0] (R39, R212). -/
def Parser.linkReadout (p : Parser) : BitVec 9 := BitVec.ofBool p.plinkv ++ p.plink

end Sys2Proof.Machine
end

