-- ==== Sys2Proof/Machine/Parser.lean ====
section
/-! DEFINITION. The receive parser and the foreground's access to the de-framed queue (42_frame_parser.md R180 to R192): PARSE in
its seven byte classes, and the meanings of P_SOF, P_SKIP, P_LINK, P_FLAGS, P_LEN0, P_LENN, P_DATA, DQ_AVAIL, DQ_GET, DQ_PEEK. -/

namespace Sys2Proof.Machine

/-! ### PARSE -/

/-- Whether WaitSOF raises FrmErr for a byte: it is not the trailer expected, or, where none is expected, not 0xBF (R180). -/
def Parser.frmErrDue (p : Parser) (c : Byte) : Bool :=
  if p.ptrailv then decide (c ≠ p.ptrail) else decide (c ≠ sofByte)

/-- The observability part of WaitSOF, less the clearing of PTRAILV (R180, D16). -/
def Block.trailerCheck (b : Block) (p : Parser) (c : Byte) : Block :=
  if p.frmErrDue c then b.raise (.frmErr c) else b

/-- The frame's last counted byte has been consumed: PTRAIL <- PLINK XOR 0xFF, PTRAILV <- 1, back to WaitSOF (R183, R184). -/
def Parser.frameOver (p : Parser) : Parser :=
  { p with ptrail := trailerOf p.plink, ptrailv := true, pstate := .waitSOF }

/-- PARSE of 0xBF in WaitSOF (R180). -/
def Block.parseSof (b : Block) (p : Parser) : Block :=
  (b.trailerCheck p sofByte).setParser { p with ptrailv := false, pstate := .waitLink }

/-- PARSE of any other byte in WaitSOF: it is discarded (R180). -/
def Block.parseSkip (c : Byte) (b : Block) (p : Parser) : Block :=
  (b.trailerCheck p c).setParser { p with ptrailv := false, pstate := .waitSOF }

/-- PARSE in WaitLink (R181). -/
def Block.parseLink (c : Byte) (b : Block) (p : Parser) : Block :=
  b.setParser { p with plink := c, plinkv := true, pstate := .waitFlags }

/-- PARSE in WaitFlags: the byte is neither stored nor checked (R182). -/
def Block.parseFlags (b : Block) (p : Parser) : Block := b.setParser { p with pstate := .waitLength }

/-- PARSE of 0x00 in WaitLength: an empty frame (R183). -/
def Block.parseLen0 (b : Block) (p : Parser) : Block := b.setParser p.frameOver

/-- PARSE of any other byte in WaitLength (R183). -/
def Block.parseLenN (c : Byte) (b : Block) (p : Parser) : Block :=
  b.setParser { p with prem := c, pstate := .payload }

/-- PARSE in Payload: the byte is enqueued or dropped, and counted either way (R184, D14). -/
def Block.parseData (c : Byte) (b : Block) (p : Parser) : Block :=
  let pushed := p.dq.push c
  let b := if pushed.2 then b else b.raise (.dqDrop c)
  let p := { p with dq := pushed.1 }
  if p.prem = 1#8 then b.setParser { p with prem := 0#8 }.frameOver
  else b.setParser { p with prem := p.prem - 1#8 }

/-- PARSE(c): the rule that PSTATE and the byte select (R185, R94). A block without a parser has none. -/
def Block.parse (b : Block) (c : Byte) : Block :=
  match b.parser with
  | none => b
  | some p =>
    match classify p.pstate c with
    | .sof => b.parseSof p
    | .skip => b.parseSkip c p
    | .link => b.parseLink c p
    | .flags => b.parseFlags p
    | .len0 => b.parseLen0 p
    | .lenN => b.parseLenN c p
    | .data => b.parseData c p

/-- PARSE of a stream of bytes, one after the other. -/
def Block.parseAll (b : Block) : List Byte → Block
  | [] => b
  | c :: cs => (b.parse c).parseAll cs

/-- One byte class as a step of its own, where PSTATE and the byte select it. Otherwise, or where there is no parser, there is
no such step, and nothing changes (log entry 10). -/
def State.parserStep (s : State) (k : ByteClass) (c : Byte) (f : Block → Parser → Block) : Answer :=
  match s.blk.parser with
  | none => .next s
  | some p => if classify p.pstate c = k then .next (s.setBlk (f s.blk p)) else .next s

/-- P_SOF (R180). -/
def execPSof (s : State) : Answer := s.parserStep .sof sofByte Block.parseSof

/-- P_SKIP b (R180). -/
def execPSkip (b : Byte) (s : State) : Answer := s.parserStep .skip b (Block.parseSkip b)

/-- P_LINK b (R181). -/
def execPLink (b : Byte) (s : State) : Answer := s.parserStep .link b (Block.parseLink b)

/-- P_FLAGS b (R182). -/
def execPFlags (b : Byte) (s : State) : Answer := s.parserStep .flags b Block.parseFlags

/-- P_LEN0 (R183). -/
def execPLen0 (s : State) : Answer := s.parserStep .len0 0x00#8 Block.parseLen0

/-- P_LENN b (R183). -/
def execPLenN (b : Byte) (s : State) : Answer := s.parserStep .lenN b (Block.parseLenN b)

/-- P_DATA b (R184). -/
def execPData (b : Byte) (s : State) : Answer := s.parserStep .data b (Block.parseData b)

/-! ### Foreground access to the de-framed queue -/

/-- An operation that needs the parser: refused with NoParser where there is none (R236). -/
def State.withParser (s : State) (body : Parser → Answer) : Answer :=
  match s.blk.parser with
  | none => s.refuse .noParser
  | some p => body p

/-- DQ_AVAIL: the number of unread de-framed bytes (R190). -/
def execDqAvail (s : State) : Answer :=
  s.operate none fun s => s.withParser fun p => .next (s.answer (.bits8 (BitVec.ofNat 8 p.dq.occ)))

/-- DQ_GET: takes the oldest de-framed byte, or holds (R191). -/
def execDqGet (s : State) : Answer :=
  s.operate (some .dqGet) fun s => s.withParser fun p =>
    if p.dq.empty then s.hold .dqGet
    else .next ((s.setBlk (s.blk.setParser { p with dq := p.dq.pop })).answer (.bits8 p.dq.front))

/-- DQ_PEEK i: reads without removing; refused at or beyond the occupancy (R192). -/
def execDqPeek (i : Byte) (s : State) : Answer :=
  s.operate none fun s => s.withParser fun p =>
    if p.dq.occ ≤ i.toNat then s.refuse .peekRange
    else .next (s.answer (.bits8 (p.dq.peek i.toNat)))

end Sys2Proof.Machine
end

