-- ==== Sys2Proof/Machine/Encoder.lean ====
section
/-! DEFINITION. The frame encoder (41_mux_encoder.md R160 to R167): ENCODE's issue step, its six stages, and DQ_CLEAR. -/

namespace Sys2Proof.Machine

/-- The operands latched, ESTAGE <- E_SOF: the issue step on its block (R160). -/
def Block.latchFrame (b : Block) (link : Byte) (payload : List Byte) : Block :=
  { b with
    elink := link, elen := BitVec.ofNat 8 payload.length, epay := latchPayload b.epay 0 payload, eidx := 0#8, estage := .sof }

/-- ENCODE link, payload: the issue step; it puts nothing into TXQ (R160). A term with more than 255 payload bytes is no
instruction of the machine (I17). -/
def execEncode (link : Byte) (payload : List Byte) (s : State) : Answer :=
  if payloadFits payload then
    s.operate none fun s => .next { s.setBlk (s.blk.latchFrame link payload) with fgst := .encode s.portNo }
  else .refused .payloadTooLong

/-- `stage_put(v, ·)` (R161): a foreground step of the encoder in stage `st`. It holds while TXQ is full, nothing changing;
else it pushes `v` and enables the transmit-ready interrupt, and `after` says where the encoder goes. In any other stage there
is no such step, and nothing changes (log entry 10). -/
def State.stagePut (s : State) (st : Stage) (v : Byte) (after : State → State) : Answer :=
  if s.fgst = .encode s.portNo ∧ s.blk.estage = st then
    if s.blk.txq.full then .next s else .next (after (s.setBlk (s.blk.txPut v)))
  else .next s

/-- es <- S. -/
def State.goStage (st : Stage) (s : State) : State := s.setBlk { s.blk with estage := st }

/-- E_SOF: stage_put(0xBF, E_LINK) (R161). -/
def execESof (s : State) : Answer := s.stagePut .sof sofByte (State.goStage .link)

/-- E_LINK: stage_put(x[ELINK], E_FLAGS) (R162). -/
def execELink (s : State) : Answer := s.stagePut .link s.blk.elink (State.goStage .flags)

/-- E_FLAGS: stage_put(0x00, E_LEN) (R163). -/
def execEFlags (s : State) : Answer := s.stagePut .flags 0x00#8 (State.goStage .len)

/-- E_LEN: stage_put(x[ELEN], ·), to the trailer if x[ELEN] = 0 and to the payload otherwise (R164). -/
def execELen (s : State) : Answer :=
  s.stagePut .len s.blk.elen (State.goStage (if s.blk.elen = 0#8 then .trl else .pay))

/-- After a payload byte: to the trailer if it was the last one, and EIDX advances (R165). -/
def State.nextPayload (s : State) : State :=
  s.setBlk { s.blk with
    estage := if s.blk.eidx + 1#8 = s.blk.elen then .trl else .pay, eidx := s.blk.eidx + 1#8 }

/-- E_PAY: pushes x[EPAY[x[EIDX]]] (R165). -/
def execEPay (s : State) : Answer := s.stagePut .pay (s.blk.epaySlot s.blk.eidx.toNat) State.nextPayload

/-- E_TRL: pushes x[ELINK] XOR 0xFF; the ENCODE is complete (R166). -/
def execETrl (s : State) : Answer :=
  s.stagePut .trl (trailerOf s.blk.elink) fun s => (s.goStage .idle).done

/-- DQ_CLEAR: DQ.tail <- DQ.head (R167). -/
def execDqClear (s : State) : Answer :=
  s.operate none fun s => s.withParser fun p =>
    .next (s.setBlk (s.blk.setParser { p with dq := p.dq.flush })).done

end Sys2Proof.Machine
end

