-- ==== Sys2Proof/Machine/Flags.lean ====
section
/-! DEFINITION. The flags (10_state.md R38): the vectors that enable the handlers and the line (20_memory.md R70, 30_encoding.md
R103), and the readout of the interrupt and line flags (R39, R213). There are no arithmetic condition codes (R38). -/

namespace Sys2Proof.Machine

/-- The vector GIE, RXIE, RXC (R103). -/
def State.rxVector (s : State) : BitVec 3 :=
  BitVec.ofBool s.gie ++ BitVec.ofBool s.blk.rxie ++ BitVec.ofBool s.blk.rxc

/-- The vector GIE, TXIE, TXRDY (R103). -/
def State.txVector (s : State) : BitVec 3 :=
  BitVec.ofBool s.gie ++ BitVec.ofBool s.blk.txie ++ BitVec.ofBool s.blk.txrdy

/-- The vector TXRDY (R103). -/
def State.outVector (s : State) : BitVec 1 := BitVec.ofBool s.blk.txrdy

/-- RX_ISR is enabled: x[GIE] = 1 and x[RXIE] = 1 and x[RXC] = 1 (R70). -/
def State.rxEnabled (s : State) : Bool := s.gie && s.blk.rxie && s.blk.rxc

/-- TX_ISR is enabled: x[GIE] = 1 and x[TXIE] = 1 and x[TXRDY] = 1 (R70). -/
def State.txEnabled (s : State) : Bool := s.gie && s.blk.txie && s.blk.txrdy

/-- LINE_OUT is enabled: x[TXRDY] = 0 (R70). -/
def State.outEnabled (s : State) : Bool := !s.blk.txrdy

/-- An event step: the agent takes it when it is enabled; otherwise there is no such step, and nothing changes (log entry 10). -/
def State.event (s : State) (enabled : Bool) (f : Block → Block) : Answer :=
  if enabled then .next (s.setBlk (f s.blk)) else .next s

/-- The result of RD_CTL: bit 0 RXIE, bit 1 TXIE, bit 2 RXC, bit 3 TXRDY, bit 4 GIE, bit 5 HAS_PARSER, bits 7:6 zero (R39, R213). -/
def State.ctlByte (s : State) : BitVec 8 :=
  0b00#2 ++ BitVec.ofBool s.blk.parser.isSome ++ BitVec.ofBool s.gie ++ BitVec.ofBool s.blk.txrdy
    ++ BitVec.ofBool s.blk.rxc ++ BitVec.ofBool s.blk.txie ++ BitVec.ofBool s.blk.rxie

end Sys2Proof.Machine
end

