-- ==== Sys2Proof/Machine/System.lean ====
section
/-! DEFINITION. The system operations (43_system_ops.md R210 to R216): the observers, the critical section, the reserved code. -/

namespace Sys2Proof.Machine

/-- RD_ERR: reading does not clear (R210). -/
def execRdErr (s : State) : Answer := s.operate none fun s => .next (s.answer (.bits8 s.blk.err))

/-- RD_PSTATE (R211). -/
def execRdPstate (s : State) : Answer :=
  s.operate none fun s => s.withParser fun p => .next (s.answer (.bits11 p.stateReadout))

/-- RD_PLINK (R212). -/
def execRdPlink (s : State) : Answer :=
  s.operate none fun s => s.withParser fun p => .next (s.answer (.bits9 p.linkReadout))

/-- RD_CTL (R213). -/
def execRdCtl (s : State) : Answer := s.operate none fun s => .next (s.answer (.bits8 s.ctlByte))

/-- IRQ_OFF: x[GIE] <- 0, for every block (R214). -/
def execIrqOff (s : State) : Answer := s.operate none fun s => .next { s with gie := false }.done

/-- IRQ_ON: x[GIE] <- 1, for every block (R215). -/
def execIrqOn (s : State) : Answer := s.operate none fun s => .next { s with gie := true }.done

/-- The reserved operation code: refused with BadOp (R216). -/
def execReservedF (s : State) : Answer := s.operate none fun s => s.refuse .badOp

end Sys2Proof.Machine
end

