-- ==== Sys2Proof/Machine/Transport.lean ====
section
/-! DEFINITION. The byte transport (40_byte_transport.md R120 to R127): INIT, PUT, GET, AVAIL, LINE_IN, RX_ISR, TX_ISR, LINE_OUT. -/

namespace Sys2Proof.Machine

/-- What INIT does to its block, and nothing else (R120, R261). -/
def Block.initialise (b : Block) (baud : Baud) : Block :=
  { b with rxq := b.rxq.zero, txq := b.txq.zero, baud := baud, rxc := false, rxie := true, txie := false }

/-- INIT baud (R120). -/
def execInit (baud : Baud) (s : State) : Answer :=
  s.operate none fun s => .next (s.setBlk (s.blk.initialise baud)).done

/-- PUT b: holds while TXQ is full; else pushes, enables the transmit-ready interrupt, and is done (R121). -/
def execPut (b : Byte) (s : State) : Answer :=
  s.operate (some (.put b)) fun s =>
    if s.blk.txq.full then s.hold (.put b) else .next (s.setBlk (s.blk.txPut b)).done

/-- GET: refused where there is a parser; holds while RXQ is empty; else pops (R122). -/
def execGet (s : State) : Answer :=
  s.operate (some .get) fun s =>
    if s.blk.parser.isSome then s.refuse .getOnParserInstance
    else if s.blk.rxq.empty then s.hold .get
    else .next ((s.setBlk { s.blk with rxq := s.blk.rxq.pop }).answer (.bits8 s.blk.rxq.front))

/-- AVAIL: the number of unread bytes in RXQ (R123). -/
def execAvail (s : State) : Answer :=
  s.operate none fun s => .next (s.answer (.bits8 (BitVec.ofNat 8 s.blk.rxq.occ)))

/-- LINE_IN(b) on its block: the byte waits in RDR, or is lost where one is waiting already (R124). -/
def Block.lineDelivers (c : Byte) (b : Block) : Block :=
  if b.rxc then b.raise (.lineOvr c) else { b with rdr := c, rxc := true }

/-- LINE_IN b: enabled always (R124). -/
def execLineIn (b : Byte) (s : State) : Answer := s.event true (Block.lineDelivers b)

/-- `while not empty(RXQ) do PARSE(pop(RXQ))`, at most `fuel` times round (R125). -/
def Block.drain (b : Block) : Nat → Block
  | 0 => b
  | fuel + 1 =>
    if b.rxq.empty then b else (({ b with rxq := b.rxq.pop } : Block).parse b.rxq.front).drain fuel

/-- `push(RXQ, b)` of the receive handler with RXC cleared, a drop raising RxqDrop (R125). -/
def Block.rxPush (b : Block) : Block :=
  let pushed := b.rxq.push b.rdr
  let b' := { b with rxc := false, rxq := pushed.1 }
  if pushed.2 then b' else b'.raise (.rxqDrop b.rdr)

/-- The receive interrupt handler on its block: push, then, with a parser, drain RXQ through PARSE (R125). PARSE leaves RXQ
alone, so the loop goes round occ(RXQ) times. -/
def Block.rxHandler (b : Block) : Block :=
  if b.parser.isSome then b.rxPush.drain b.rxPush.rxq.occ else b.rxPush

/-- RX_ISR (R125). -/
def execRxIsr (s : State) : Answer := s.event s.rxEnabled Block.rxHandler

/-- The transmit interrupt handler on its block: TXIE off when TXQ is empty, else the next byte goes to TDR (R126). -/
def Block.txHandler (b : Block) : Block :=
  if b.txq.empty then { b with txie := false }
  else { b with tdr := b.txq.front, txq := b.txq.pop, txrdy := false }

/-- TX_ISR (R126). -/
def execTxIsr (s : State) : Answer := s.event s.txEnabled Block.txHandler

/-- LINE_OUT on its block: the byte in TDR is taken (R127). -/
def Block.lineTakes (b : Block) : Block := { b with wireOut := b.wireOut ++ [b.tdr], txrdy := true }

/-- LINE_OUT (R127). -/
def execLineOut (s : State) : Answer := s.event s.outEnabled Block.lineTakes

end Sys2Proof.Machine
end

