-- ==== Sys2Proof/Machine/Wire.lean ====
section
/-! DEFINITION. The meaning of a whole frame on the wire (30_encoding.md R90; log entry 11). -/

namespace Sys2Proof.Machine

/-- The line delivers bytes one by one, each followed by a turn of the receive handler, as the programs of 95_test_vectors.md
(P2, P5) deliver a frame. -/
def deliveryTurns (port : Nat) : List Byte → List Turn
  | [] => []
  | b :: bs => .agent (.lin port b) :: .agent (.rxh port) :: deliveryTurns port bs

/-- MUXFRAME: the 5 + n bytes of the frame come in on the line, byte 0 first and the trailer last (R90, R68). A frame is no
atomic step of any agent: its turns are put at the front of the schedule, and each is taken as a step of its own (R70). -/
def execMuxframe (link flags : Byte) (payload : List Byte) (trailer : Byte) (s : State) : Answer :=
  .next { s with script := deliveryTurns s.portNo (wireBytes link flags payload trailer) ++ s.script }

end Sys2Proof.Machine
end

