-- ==== Sys2Proof/Machine/Dispatch.lean ====
section
/-! DEFINITION. One arm per constructor of Instr, each one direct call of its meaning. -/

namespace Sys2Proof.Machine

def exec (i : Instr) (s : State) : Host.Outcome State Fault Refusal :=
  match i with
  -- the byte transport, the encoder and the de-framed queue: command words
  | .init baud => Sys2Proof.Machine.execInit baud s
  | .put b => Sys2Proof.Machine.execPut b s
  | .get => Sys2Proof.Machine.execGet s
  | .avail => Sys2Proof.Machine.execAvail s
  | .encode link payload => Sys2Proof.Machine.execEncode link payload s
  | .dqClear => Sys2Proof.Machine.execDqClear s
  | .dqAvail => Sys2Proof.Machine.execDqAvail s
  | .dqGet => Sys2Proof.Machine.execDqGet s
  | .dqPeek index => Sys2Proof.Machine.execDqPeek index s
  -- the system operations
  | .rdErr => Sys2Proof.Machine.execRdErr s
  | .rdPstate => Sys2Proof.Machine.execRdPstate s
  | .rdPlink => Sys2Proof.Machine.execRdPlink s
  | .rdCtl => Sys2Proof.Machine.execRdCtl s
  | .irqOff => Sys2Proof.Machine.execIrqOff s
  | .irqOn => Sys2Proof.Machine.execIrqOn s
  | .reservedF => Sys2Proof.Machine.execReservedF s
  -- the events
  | .lineIn b => Sys2Proof.Machine.execLineIn b s
  | .rxIsr => Sys2Proof.Machine.execRxIsr s
  | .txIsr => Sys2Proof.Machine.execTxIsr s
  | .lineOut => Sys2Proof.Machine.execLineOut s
  -- the parser's byte classes
  | .pSof => Sys2Proof.Machine.execPSof s
  | .pSkip b => Sys2Proof.Machine.execPSkip b s
  | .pLink b => Sys2Proof.Machine.execPLink b s
  | .pFlags b => Sys2Proof.Machine.execPFlags b s
  | .pLen0 => Sys2Proof.Machine.execPLen0 s
  | .pLenN b => Sys2Proof.Machine.execPLenN b s
  | .pData b => Sys2Proof.Machine.execPData b s
  -- the frame on the wire
  | .muxframe link flags payload trailer => Sys2Proof.Machine.execMuxframe link flags payload trailer s
  -- the encoder's stages
  | .eSof => Sys2Proof.Machine.execESof s
  | .eLink => Sys2Proof.Machine.execELink s
  | .eFlags => Sys2Proof.Machine.execEFlags s
  | .eLen => Sys2Proof.Machine.execELen s
  | .ePay => Sys2Proof.Machine.execEPay s
  | .eTrl => Sys2Proof.Machine.execETrl s

end Sys2Proof.Machine
end

