-- ==== Sys2Proof/Machine/Fetch.lean ====
section
/-! DEFINITION. Which step comes next and which instruction it is (00_scope.md R9, 20_memory.md R70, R71): the schedule, the
foreground's next operation, and the decoding of what the agent of the turn presents. Log entries 1 and 2. -/

namespace Sys2Proof.Machine

/-- What a turn comes to. -/
inductive Fetched
  /-- The step is this instruction, in this state: the turn is taken from the schedule and the block is selected. -/
  | run (i : Instr) (s : State)
  /-- The agent's step is not enabled, or it has none: the turn passes and nothing changes but the schedule. -/
  | pass (s : State)
  /-- A command word on a port that does not exist. -/
  | stop (f : Fault)
  /-- A command word that cannot be formed. -/
  | reject (r : Refusal)
deriving DecidableEq, Repr

/-- The next turn and the state without it: the first of the script, or a free one when the script is empty (log entry 1). -/
def State.nextTurn (s : State) : Turn × State :=
  match s.script with
  | t :: ts => (t, { s with script := ts })
  | [] => (.agent (Config.freeTurn s.tick), { s with tick := s.tick + 1 })

/-- The instruction of a held operation: the one that is retried (R71). -/
def HeldOp.instr : HeldOp → Instr
  | .put b => .put b
  | .get => .get
  | .dqGet => .dqGet

/-- A turn of an agent at block `k`: the instruction that what it presents decodes to. Where there is no such block, or what
is presented selects no step, the turn passes. -/
def State.fetchAt (s : State) (k : Nat) (presents : State → Encoded) : Fetched :=
  match s.select k with
  | none => .pass s
  | some s' =>
    match decode (presents s') with
    | .ok i => .run i s'
    | .error _ => .pass s

/-- The foreground's turn when it is idle: the next command word of its list, presented on its port (R100). -/
def State.fetchCommand (s : State) : Fetched :=
  match s.program with
  | [] => .pass s
  | c :: cs =>
    match ({ s with program := cs } : State).select c.port with
    | none => .stop .noSuchPort
    | some s' =>
      match decode (.command c.width c.bits) with
      | .ok i => .run i s'
      | .error why => .reject (.undecodable why)

/-- The foreground's turn: the next command when idle, the held operation again when it holds (R71), the stage that ESTAGE
selects while it encodes (R160). -/
def State.fetchForeground (s : State) : Fetched :=
  match s.fgst with
  | .idle => s.fetchCommand
  | .hold k op =>
    match s.select k with
    | none => .pass s
    | some s' => .run op.instr s'
  | .encode k => s.fetchAt k fun s => .stage s.blk.estage.code

/-- Bytes sent to block `k` one after the other. A whole frame is the MUXFRAME it decodes to (R90). Bytes that form no frame, a
truncated one or noise, come in on the line all the same: no byte is illegal (R95, R124, I18), so their turn puts the turns
that deliver them at the front of the schedule (log entry 11). There is no line to a block that does not exist: the turn
passes. -/
def State.fetchWire (s : State) (k : Nat) (bytes : List Byte) : Fetched :=
  match s.select k with
  | none => .pass s
  | some s' =>
    match decode (.wire bytes) with
    | .ok i => .run i s'
    | .error _ => .pass { s with script := deliveryTurns k bytes ++ s.script }

/-- What a turn comes to, in the state without it. -/
def State.fetchTurn (s : State) : Turn → Fetched
  | .agent .fg => s.fetchForeground
  | .agent (.rxh k) => s.fetchAt k fun s => .rxVector s.rxVector
  | .agent (.txh k) => s.fetchAt k fun s => .txVector s.txVector
  | .agent (.lin k b) => s.fetchAt k fun _ => .lineByte b
  | .agent (.lout k) => s.fetchAt k fun s => .outVector s.outVector
  | .wire k bytes => s.fetchWire k bytes

/-- The next step of the machine. -/
def State.fetch (s : State) : Fetched := s.nextTurn.2.fetchTurn s.nextTurn.1

/-! ### Placing an instruction where the next step fetches it -/

/-- Whether an operation is offered only with a parser (some true), only without one (some false), or by every block (R102). -/
def needsParser : Encoded → Option Bool
  | .command _ bits =>
    if bits % 16 = 2 then some false
    else if bits % 16 ∈ [5, 6, 7, 8, 10, 11] then some true
    else none
  | .parserByte _ _ => some true
  | .lineByte _ => none
  | .rxVector _ => none
  | .txVector _ => none
  | .outVector _ => none
  | .wire _ => none
  | .stage _ => none

/-- The first block that offers an operation, and the block at hand where every block does or none does. -/
def State.portOffering (s : State) (want : Option Bool) : Nat :=
  match want with
  | none => s.portNo
  | some w => (s.blocks.findIdx? fun b => b.parser.isSome == w).getD s.portNo

/-- The parser set to a state, RXQ emptied, and a byte waiting in RDR for the receive handler to parse. -/
def Block.awaiting (b : Block) (ps : ParserState) (c : Byte) : Block :=
  { b with rxq := b.rxq.zero, rdr := c, rxc := true, rxie := true, parser := b.parser.map fun p => { p with pstate := ps } }

/-- Puts an instruction where the very next step fetches it, setting all that this takes: the turn and the operand, and the
state that selects it where the "encoding" is itself state (the flags of R103, PSTATE of R94, ESTAGE of R34). A byte class is
never a step of its own (R185): the step is the RX_ISR that parses the byte. -/
def State.present (s : State) (e : Encoded) : State :=
  let k := s.portOffering (needsParser e)
  let s := (s.select k).getD s
  match e with
  | .command width bits =>
    { s with fgst := .idle, program := ⟨k, width, bits⟩ :: s.program, script := .agent .fg :: s.script }
  | .lineByte b => { s with script := .agent (.lin k b) :: s.script }
  | .rxVector _ =>
    { s with gie := true, blk := { s.blk with rxie := true, rxc := true }, script := .agent (.rxh k) :: s.script }
  | .txVector _ =>
    { s with gie := true, blk := { s.blk with txie := true, txrdy := true }, script := .agent (.txh k) :: s.script }
  | .outVector _ => { s with blk := { s.blk with txrdy := false }, script := .agent (.lout k) :: s.script }
  | .parserByte code b =>
    { s with gie := true, blk := s.blk.awaiting ((parserStateOf code).getD .waitSOF) b, script := .agent (.rxh k) :: s.script }
  | .wire bytes => { s with script := .wire k bytes :: s.script }
  | .stage code =>
    { s with fgst := .encode k, blk := { s.blk with estage := (stageOf code).getD .idle }, script := .agent .fg :: s.script }

end Sys2Proof.Machine
end

