-- ==== Sys2Proof/Machine/Step.lean ====
section
/-! DEFINITION. One step of the machine: the next turn of the schedule, as an atomic step of one agent (R9, R70). -/

namespace Sys2Proof.Machine

/-- One atomic step: what the next turn comes to. -/
def step (s : State) : Host.Outcome State Fault Refusal :=
  match s.fetch with
  | .run i s' => exec i s'
  | .pass s' => .next s'
  | .stop f => .fault f
  | .reject r => .refused r

/-- The state with the instruction whose bits are `w`, numbered as spec/opcode_table.json numbers them, where step fetches
its next instruction (log entries 2 and 12). -/
def State.withFetchWord (s : State) (nbits w : Nat) : State := s.present (tableEncoded nbits w)

end Sys2Proof.Machine
end

