-- ==== Sys2Proof/Safety.lean ====
section
/-! DEFINITION. What claims are stated in terms of: the invariants of 10_state.md R42, runs, the end of a run (70_reset_and_hazards.md
R282), hangs (60_exceptions.md R237), fairness (R281), and what the two queues' byte streams are (R128). -/

namespace Sys2Proof.Machine

/-! ### The invariants (R42) -/

/-- Capacity in range, indices within the buffer, memory canonical and within the buffer (R6, R42 items 1 and 2, R60). -/
abbrev Queue.Ok (q : Queue) : Prop :=
  (2 ≤ q.cap ∧ q.cap ≤ 256) ∧ q.head.toNat < q.cap ∧ q.tail.toNat < q.cap ∧ q.buf.wf = true ∧ q.buf.within q.cap = true

/-- PSTATE = 4 exactly when PREM is not 0 (R42 item 3, R30); PLINK reads 0x00 while PLINKV = 0 (R39). -/
abbrev Parser.Ok (p : Parser) : Prop :=
  p.dq.Ok ∧ (p.pstate = .payload ↔ p.prem ≠ 0#8) ∧ (p.plinkv = false → p.plink = 0#8)

/-- The encoder's registers: EIDX < ELEN in E_PAY (R42 item 4), EIDX = 0 before it (R164), the latch canonical (R34). -/
abbrev Block.EncoderOk (b : Block) : Prop :=
  (b.estage = .pay → b.eidx < b.elen) ∧
  ((b.estage = .sof ∨ b.estage = .link ∨ b.estage = .flags ∨ b.estage = .len) → b.eidx = 0#8) ∧
  b.epay.wf = true ∧ b.epay.within 255 = true

/-- The bits of ERR that are never set: 7:4 (R33); bit 0 with a parser (R42 item 7), bits 1 and 3 without (R210). -/
abbrev Block.ErrOk (b : Block) : Prop :=
  b.err &&& 0xF0#8 = 0#8 ∧
  (b.parser.isSome = true → b.err &&& 0x01#8 = 0#8) ∧ (b.parser.isSome = false → b.err &&& 0x0A#8 = 0#8)

/-- What R42 says of one block. -/
abbrev Block.Ok (b : Block) : Prop :=
  b.rxq.Ok ∧ b.txq.Ok ∧ (∀ p ∈ b.parser, p.Ok) ∧ b.EncoderOk ∧ b.ErrOk ∧
  (b.txq.head ≠ b.txq.tail → b.txie = true) ∧
  (b.parser.isSome = true → b.rxq.head = b.rxq.tail)

/-- The port the foreground is busy on, if it is. -/
def FgState.port? : FgState → Option Nat
  | .idle => none
  | .hold k _ => some k
  | .encode k => some k

/-- The invariants of R42 for the whole system: every block is in order, and FGST = FgEncode exactly where ESTAGE is not 0
(item 5), on a port that exists. -/
abbrev State.Ok (s : State) : Prop :=
  (∀ b ∈ s.blocks, b.Ok) ∧
  (∀ k (h : k < s.blocks.length), s.blocks[k].estage ≠ .idle ↔ s.fgst = .encode k) ∧
  (∀ k ∈ s.fgst.port?, k < s.blocks.length)

/-! ### Runs -/

/-- The states a run can reach from a state. -/
inductive Reaches (s : State) : State → Prop
  | here : Reaches s s
  | next {t u : State} : Reaches s t → step t = .next u → Reaches s u

/-- The whole run has marked a refusal (R236). -/
def State.marked (s : State) : Bool := !s.refusals.isEmpty

/-- Nothing is left to do on a block: no pending byte that RX_ISR could take, the transmitter idle or cut off (R282). -/
abbrev Block.Quiet (gie : Bool) (b : Block) : Prop :=
  (b.rxc = false ∨ gie = false ∨ b.rxie = false) ∧ b.txrdy = true ∧ ((b.txq.empty = true ∧ b.txie = false) ∨ gie = false)

/-- Whether a turn brings a byte to one of `n` blocks. A byte for a block that does not exist is none. -/
def Turn.delivers (n : Nat) : Turn → Bool
  | .agent .fg => false
  | .agent (.rxh _) => false
  | .agent (.txh _) => false
  | .agent (.lin k _) => decide (k < n)
  | .agent (.lout _) => false
  | .wire k bytes => decide (k < n) && !bytes.isEmpty

/-- The environment has no more bytes to deliver (R282): no turn that is fixed brings one, and no free turn from here on does.
Whether the free turns do is open (log entry 1), so it is a premise and never a fact about one state. -/
def State.LineSilent (s : State) : Prop :=
  (∀ t ∈ s.script, Turn.delivers s.blocks.length t = false) ∧
  ∀ n, s.tick ≤ n → Turn.delivers s.blocks.length (.agent (Config.freeTurn n)) = false

/-- All that R282 asks of the machine itself: the foreground has completed its last operation, nothing is in progress or
pending, and the run is not refused. Turns that are left over and bring nothing do not count. A state in which the foreground
holds is not settled. -/
abbrev State.Settled (s : State) : Prop :=
  s.fgst = .idle ∧ s.program = [] ∧ s.marked = false ∧ (∀ b ∈ s.blocks, b.estage = .idle ∧ b.Quiet s.gie)

/-- The state of a run that is over (R282): settled, and the environment has no more bytes to deliver. -/
def State.Final (s : State) : Prop := s.Settled ∧ s.LineSilent

/-- What the foreground has come to: FGST and where the encoder of each block stands. -/
def State.progress (s : State) : FgState × List (Stage × Byte) :=
  (s.fgst, s.blocks.map fun b => (b.estage, b.eidx))

/-- The states that possible steps lead to (R9, R70): at every point any turn that is allowed may be the next one, whatever
schedule the state holds. -/
inductive Leads (allowed : Turn → Prop) (s : State) : State → Prop
  | here : Leads allowed s s
  | next {t u : State} (turn : Turn) : Leads allowed s t → allowed turn → step { t with script := [turn] } = .next u →
      Leads allowed s u

/-- The foreground waits, and no steps of the allowed turns ever let it advance. -/
def State.HungUnder (s : State) (allowed : Turn → Prop) : Prop :=
  s.fgst ≠ .idle ∧ ∀ t, Leads allowed s t → t.progress = s.progress

/-- A hang: a wait that no possible step can lift (R237). The schedule the state happens to hold is left aside. -/
def State.Hung (s : State) : Prop := s.HungUnder fun _ => True

/-- A hang where the environment delivers no byte (R237: "when the environment never delivers the awaited data"). -/
def State.HungOnSilentLine (s : State) : Prop := s.HungUnder fun t => Turn.delivers s.blocks.length t = false

/-! ### Fairness (R281) -/

/-- An infinite run. -/
def IsRun (σ : Nat → State) : Prop := ∀ n, step (σ n) = .next (σ (n + 1))

/-- Whether a step of an agent is enabled (R70). -/
def State.enables (s : State) : Agent → Bool
  | .fg => true
  | .rxh k => (s.select k).any State.rxEnabled
  | .txh k => (s.select k).any State.txEnabled
  | .lin k _ => (s.select k).isSome
  | .lout k => (s.select k).any State.outEnabled

/-- The agents that fairness speaks of: RXH, TXH and LOUT. -/
def isHardware : Agent → Bool
  | .fg => false
  | .rxh _ => true
  | .txh _ => true
  | .lin _ _ => false
  | .lout _ => true

/-- Weak fairness: a step of RXH, TXH or LOUT that stays enabled is eventually taken (R281). -/
def WeaklyFair (σ : Nat → State) : Prop :=
  ∀ a : Agent, isHardware a = true → ∀ n, (∀ m, n ≤ m → (σ m).enables a = true) →
    ∃ m, n ≤ m ∧ (σ m).nextTurn.1 = .agent a

/-! ### Byte streams -/

/-- Everything pushed into TXQ that has left or will leave on the line, in order: what has been sent, the byte in TDR if the
line has not taken it, the live contents of TXQ (R128). -/
def Block.txStream (b : Block) : List Byte :=
  b.wireOut ++ (if b.txrdy then [] else [b.tdr]) ++ b.txq.live

/-- The registers that only the receive handler writes (R41): the parser's, and the producer's side of DQ. -/
def Parser.handlerView (p : Parser) : ParserState × Byte × Byte × Bool × Byte × Bool × BitVec 8 × Memory :=
  (p.pstate, p.prem, p.plink, p.plinkv, p.ptrail, p.ptrailv, p.dq.head, p.dq.buf)

/-- The indices that only the handlers move, INIT apart (R41): RXQ.head, TXQ.tail, and RXQ.tail where there is a parser. -/
def Block.handlerIndices (b : Block) : BitVec 8 × BitVec 8 × Option (BitVec 8) :=
  (b.rxq.head, b.txq.tail, b.parser.map fun _ => b.rxq.tail)

/-! ### Plays of a queue (R74) -/

/-- What can happen to a queue between two INITs: a byte is pushed, or one is popped. -/
inductive QueueMove
  | push (b : Byte)
  | pop
deriving DecidableEq, Repr

/-- A sequence of moves: the bytes whose push was stored, the bytes popped, and the queue after. A pop is defined only on a
queue that is not empty (R66); a move to an empty one does nothing. -/
def Queue.play (q : Queue) : List QueueMove → List Byte × List Byte × Queue
  | [] => ([], [], q)
  | .push b :: ms =>
    let r := (q.push b).1.play ms
    (if (q.push b).2 then b :: r.1 else r.1, r.2.1, r.2.2)
  | .pop :: ms =>
    if q.empty then q.play ms
    else
      let r := q.pop.play ms
      (r.1, q.front :: r.2.1, r.2.2)

/-! ### What observation leaves aside (R32, R33) -/

/-- A parser less its shadow PTRAIL, PTRAILV (R32). -/
def Parser.lessShadow (p : Parser) : Parser := { p with ptrail := 0#8, ptrailv := false }

/-- A block less the shadow, the error flags and the event log (R32, R33, D15). -/
def Block.lessShadow (b : Block) : Block :=
  { b with err := 0#8, evlog := [], parser := b.parser.map Parser.lessShadow }

/-- The system less all that only observes. -/
def State.lessShadow (s : State) : State :=
  { s with below := s.below.map Block.lessShadow, blk := s.blk.lessShadow, above := s.above.map Block.lessShadow }

/-- A frame as it stands on the wire with the right trailer: link, flags, payload (R90). -/
structure WireFrame where
  link    : Byte
  flags   : Byte
  payload : List Byte
deriving DecidableEq, Repr

/-- Its bytes in the order sent (R90). -/
def WireFrame.bytes (f : WireFrame) : List Byte := wireBytes f.link f.flags f.payload (trailerOf f.link)

end Sys2Proof.Machine
end

