-- ==== Sys2Proof/Certificates/Slice0/Obligations.lean ====
section
/-! DEFINITION. The statements for the provers. Each docstring names the rule of spec/ that the statement formalises. -/

open Sys2Proof
open Sys2Proof.Machine

/-! ### Encoding -/

/-- Decode and encode agree on every well-formed instruction, with every operand (R90, R94, R100, R101, R103, R34). -/
def Obligations.DecodeOfEncodeIsTheInstruction : Prop :=
  ∀ i : Instr, i.wellFormed = true → decode (encode i) = .ok i

/-- A command word has one meaning: the word that decodes to an operation is the one its encoding writes (R100, R101, R102).
The reserved code is left out: a word of any width with op 0xF is refused (R216; log entry 9). -/
def Obligations.CommandWordIsDeterminedByItsInstruction : Prop :=
  ∀ (width bits : Nat) (i : Instr), decode (.command width bits) = .ok i → i ≠ .reservedF →
    encode i = .command width bits

/-- The decoder answers only well-formed instructions, whatever bits it is given (R94, R100, I17). -/
def Obligations.DecodedInstructionIsWellFormed : Prop :=
  ∀ (e : Encoded) (i : Instr), decode e = .ok i → i.wellFormed = true

/-- Every command word of the programs P1, P2 and P5 of 95_test_vectors.md, in their order, and the document's frame S2 (R100,
R101, R90). -/
def Obligations.PublishedWordsDecode : Prop :=
  decode (.command 36 0x0001C2000) = .ok (.init 115200#32) ∧
  decode (.command 4 0xE) = .ok .irqOn ∧
  decode (.command 36 0x424102014) = .ok (.encode 0x01#8 [0x41#8, 0x42#8]) ∧
  decode (.command 4 0x6) = .ok .dqAvail ∧
  decode (.command 12 0x018) = .ok (.dqPeek 0x01#8) ∧
  decode (.command 4 0x7) = .ok .dqGet ∧
  decode (.command 4 0xA) = .ok .rdPstate ∧
  decode (.command 4 0xB) = .ok .rdPlink ∧
  decode (.command 4 0x9) = .ok .rdErr ∧
  decode (.command 4 0x3) = .ok .avail ∧
  decode (.command 4 0x5) = .ok .dqClear ∧
  decode (.command 68 0x0A0D5453494C06014) = .ok (.encode 0x01#8 [0x4C#8, 0x49#8, 0x53#8, 0x54#8, 0x0D#8, 0x0A#8]) ∧
  decode (.command 12 0x008) = .ok (.dqPeek 0x00#8) ∧
  decode (.command 12 0x058) = .ok (.dqPeek 0x05#8) ∧
  decode (.wire [0xBF#8, 0x01#8, 0x00#8, 0x02#8, 0x41#8, 0x42#8, 0xFE#8])
    = .ok (.muxframe 0x01#8 0x00#8 [0x41#8, 0x42#8] 0xFE#8)

/-- No byte value is illegal in any parser state: each of the 256 has a class in each of the five states (R94, R95). -/
def Obligations.ParserDecodeTableIsTotal : Prop :=
  ∀ b : Byte,
    decode (.parserByte 0#3 b) = .ok (if b = 0xBF#8 then .pSof else .pSkip b) ∧
    decode (.parserByte 1#3 b) = .ok (.pLink b) ∧
    decode (.parserByte 2#3 b) = .ok (.pFlags b) ∧
    decode (.parserByte 3#3 b) = .ok (if b = 0x00#8 then .pLen0 else .pLenN b) ∧
    decode (.parserByte 4#3 b) = .ok (.pData b)

/-! ### The ring buffers -/

/-- push on a queue in order: full, nothing changes and the byte is dropped; else it is stored in the slot of the old head, no
other slot changes, head advances mod C, tail stays (R65, R63, R64). -/
def Obligations.PushStoresAtOldHeadOrDrops : Prop :=
  ∀ (q : Queue) (b : Byte), q.Ok →
    ((q.head.toNat + 1) % q.cap = q.tail.toNat → q.push b = (q, false)) ∧
    ((q.head.toNat + 1) % q.cap ≠ q.tail.toNat →
      (q.push b).2 = true ∧ (q.push b).1.head.toNat = (q.head.toNat + 1) % q.cap ∧ (q.push b).1.tail = q.tail ∧
      (q.push b).1.cap = q.cap ∧
      ∀ i, (q.push b).1.slot i = if i = q.head.toNat then b else q.slot i)

/-- pop on a queue that is not empty returns the byte at tail, advances tail mod C, and writes nothing else (R66). -/
def Obligations.PopReadsAtTailAndAdvances : Prop :=
  ∀ q : Queue, q.Ok → q.head ≠ q.tail →
    q.front = q.slot q.tail.toNat ∧ q.front = q.peek 0 ∧ q.pop.tail.toNat = (q.tail.toNat + 1) % q.cap ∧
    q.pop.head = q.head ∧ q.pop.cap = q.cap ∧ ∀ i, q.pop.slot i = q.slot i

/-- The FIFO guarantee: for any sequence of pushes and pops, what was live and what was stored since is, in order, what was
popped and what is live now; never more than C - 1 bytes are live (R74, R63). -/
def Obligations.QueueIsFirstInFirstOut : Prop :=
  ∀ (q : Queue) (ms : List QueueMove), q.Ok →
    q.live ++ (q.play ms).1 = (q.play ms).2.1 ++ (q.play ms).2.2.live ∧
    (q.play ms).2.2.live.length + 1 ≤ q.cap

/-! ### Command operations: what each leaves, and that it completes -/

/-- INIT zeroes the indices of RXQ and TXQ, stores baud, clears RXC and TXIE, sets RXIE, and changes nothing else (R120, R261). -/
def Obligations.InitResetsBothQueuesAndTheLine : Prop :=
  ∀ (baud : Baud) (s : State), s.fgst = .idle →
    exec (.init baud) s = .next { s with blk := { s.blk with
      rxq := { s.blk.rxq with head := 0#8, tail := 0#8 }
      txq := { s.blk.txq with head := 0#8, tail := 0#8 }
      baud := baud, rxc := false, rxie := true, txie := false } }

/-- PUT, issued or retried: with room it stores the byte, sets TXIE and completes; with TXQ full it holds, and nothing but
FGST changes (R121, R71). -/
def Obligations.PutEnqueuesOrHolds : Prop :=
  ∀ (b : Byte) (s : State), (s.fgst = .idle ∨ s.fgst = .hold s.portNo (.put b)) →
    (s.blk.txq.full = false →
      exec (.put b) s = .next { s with fgst := .idle, blk := { s.blk with
        txq := { s.blk.txq with buf := s.blk.txq.buf.write s.blk.txq.head.toNat b, head := s.blk.txq.after s.blk.txq.head }
        txie := true } }) ∧
    (s.blk.txq.full = true → exec (.put b) s = .next { s with fgst := .hold s.portNo (.put b) })

/-- GET on a block without a parser, issued or retried: returns the oldest byte and advances tail, or holds (R122, R71). -/
def Obligations.GetDequeuesOrHolds : Prop :=
  ∀ s : State, (s.fgst = .idle ∨ s.fgst = .hold s.portNo .get) → s.blk.parser = none →
    (s.blk.rxq.head ≠ s.blk.rxq.tail →
      exec .get s = .next { s with
        fgst := .idle, results := s.results ++ [.bits8 (s.blk.rxq.slot s.blk.rxq.tail.toNat)]
        blk := { s.blk with rxq := { s.blk.rxq with tail := s.blk.rxq.after s.blk.rxq.tail } } }) ∧
    (s.blk.rxq.head = s.blk.rxq.tail → exec .get s = .next { s with fgst := .hold s.portNo .get })

/-- DQ_GET on a block with a parser, issued or retried: returns the oldest de-framed byte and advances DQ.tail, or holds
(R191, R71). -/
def Obligations.DqGetDequeuesOrHolds : Prop :=
  ∀ (s : State) (p : Parser), (s.fgst = .idle ∨ s.fgst = .hold s.portNo .dqGet) → s.blk.parser = some p →
    (p.dq.head ≠ p.dq.tail →
      exec .dqGet s = .next { s with
        fgst := .idle, results := s.results ++ [.bits8 (p.dq.slot p.dq.tail.toNat)]
        blk := { s.blk with parser := some { p with dq := { p.dq with tail := p.dq.after p.dq.tail } } } }) ∧
    (p.dq.head = p.dq.tail → exec .dqGet s = .next { s with fgst := .hold s.portNo .dqGet })

/-- DQ_CLEAR moves DQ.tail up to DQ.head and changes nothing else (R167). -/
def Obligations.DqClearMovesTailToHead : Prop :=
  ∀ (s : State) (p : Parser), s.fgst = .idle → s.blk.parser = some p →
    exec .dqClear s =
      .next { s with blk := { s.blk with parser := some { p with dq := { p.dq with tail := p.dq.head } } } }

/-- AVAIL, DQ_AVAIL, DQ_PEEK return a count or a byte and change nothing else (R123, R190, R192, R73). -/
def Obligations.QueueReadsReturnAndChangeNothing : Prop :=
  ∀ s : State, s.fgst = .idle →
    exec .avail s = .next { s with results := s.results ++ [.bits8 (BitVec.ofNat 8 s.blk.rxq.occ)] } ∧
    (∀ p, s.blk.parser = some p →
      exec .dqAvail s = .next { s with results := s.results ++ [.bits8 (BitVec.ofNat 8 p.dq.occ)] } ∧
      ∀ i : Byte, i.toNat < p.dq.occ →
        exec (.dqPeek i) s =
          .next { s with results := s.results ++ [.bits8 (p.dq.slot ((p.dq.tail.toNat + i.toNat) % p.dq.cap))] })

/-- RD_ERR, RD_PSTATE, RD_PLINK return ERR, PSTATE with PREM, PLINKV with PLINK, and change nothing else (R210, R211, R212, R39). -/
def Obligations.StatusReadsReturnAndChangeNothing : Prop :=
  ∀ s : State, s.fgst = .idle →
    exec .rdErr s = .next { s with results := s.results ++ [.bits8 s.blk.err] } ∧
    (∀ p, s.blk.parser = some p →
      exec .rdPstate s = .next { s with results := s.results ++ [.bits11 (p.pstate.code ++ p.prem)] } ∧
      exec .rdPlink s = .next { s with results := s.results ++ [.bits9 (BitVec.ofBool p.plinkv ++ p.plink)] })

/-- RD_CTL returns its eight bits, each the one of the layout, and changes nothing else (R213, R39). -/
def Obligations.RdCtlReturnsTheFlagsBitByBit : Prop :=
  ∀ s : State, s.fgst = .idle →
    ∃ v : BitVec 8, exec .rdCtl s = .next { s with results := s.results ++ [.bits8 v] } ∧
      v.getLsbD 0 = s.blk.rxie ∧ v.getLsbD 1 = s.blk.txie ∧ v.getLsbD 2 = s.blk.rxc ∧ v.getLsbD 3 = s.blk.txrdy ∧
      v.getLsbD 4 = s.gie ∧ v.getLsbD 5 = s.blk.parser.isSome ∧ v.getLsbD 6 = false ∧ v.getLsbD 7 = false

/-- IRQ_OFF clears GIE and IRQ_ON sets it; neither counts nor changes anything else (R214, R215). -/
def Obligations.IrqOffAndOnWriteGie : Prop :=
  ∀ s : State, s.fgst = .idle →
    exec .irqOff s = .next { s with gie := false } ∧ exec .irqOn s = .next { s with gie := true }

/-- A refused operation changes nothing and marks the run with its reason: the reserved code, GET where there is a parser, the
parser's operations where there is none, a peek at or beyond the occupancy (R236, R216, R122, R192). -/
def Obligations.RefusedOperationOnlyMarksTheRun : Prop :=
  ∀ s : State, s.fgst = .idle →
    exec .reservedF s = .next { s with refusals := s.refusals ++ [.badOp] } ∧
    (s.blk.parser.isSome = true → exec .get s = .next { s with refusals := s.refusals ++ [.getOnParserInstance] }) ∧
    (s.blk.parser = none →
      ∀ i ∈ [Instr.dqClear, .dqAvail, .dqGet, .rdPstate, .rdPlink],
        exec i s = .next { s with refusals := s.refusals ++ [.noParser] }) ∧
    (s.blk.parser = none → ∀ k, exec (.dqPeek k) s = .next { s with refusals := s.refusals ++ [.noParser] }) ∧
    (∀ p, s.blk.parser = some p → ∀ k : Byte, p.dq.occ ≤ k.toNat →
      exec (.dqPeek k) s = .next { s with refusals := s.refusals ++ [.peekRange] })

/-- While the foreground holds or encodes, no operation but the held one on its port, and no stage but those of its ENCODE, can
be taken: nothing changes (R35, R71; that exec answers the state unchanged is the model's choice, log entry 10). -/
def Obligations.BusyForegroundIssuesNothing : Prop :=
  ∀ (i : Instr) (s : State), s.fgst ≠ .idle → i.wellFormed = true →
    (i.role = .port ∧ (∀ op, s.fgst = .hold s.portNo op → i ≠ op.instr) ∨ i.role = .stage ∧ s.fgst ≠ .encode s.portNo) →
    exec i s = .next s

/-! ### Events -/

/-- LINE_IN: with RXC = 0 the byte goes to RDR and RXC is set; else it is lost, RDR keeps the older one, and LineOvr is raised
(R124). -/
def Obligations.LineInFillsRdrOrOverruns : Prop :=
  ∀ (b : Byte) (s : State),
    (s.blk.rxc = false → exec (.lineIn b) s = .next { s with blk := { s.blk with rdr := b, rxc := true } }) ∧
    (s.blk.rxc = true →
      exec (.lineIn b) s =
        .next { s with blk := { s.blk with err := s.blk.err ||| 0x04#8, evlog := s.blk.evlog ++ [.lineOvr b] } })

/-- RX_ISR on a block without a parser: RXC is cleared and the byte is stored in RXQ, or dropped with RxqDrop when RXQ is
full (R125). -/
def Obligations.RxIsrStoresOrDrops : Prop :=
  ∀ s : State, s.gie = true → s.blk.rxie = true → s.blk.rxc = true → s.blk.parser = none →
    (s.blk.rxq.full = false →
      exec .rxIsr s = .next { s with blk := { s.blk with
        rxc := false
        rxq := { s.blk.rxq with
          buf := s.blk.rxq.buf.write s.blk.rxq.head.toNat s.blk.rdr, head := s.blk.rxq.after s.blk.rxq.head } } }) ∧
    (s.blk.rxq.full = true →
      exec .rxIsr s = .next { s with blk := { s.blk with
        rxc := false
        err := s.blk.err ||| 0x01#8, evlog := s.blk.evlog ++ [.rxqDrop s.blk.rdr] } })

/-- RX_ISR on a block with a parser whose RXQ is empty (R42 item 7): RXC is cleared, the byte passes through RXQ, which is empty
again, and PARSE runs exactly once: what follows is the byte class that PSTATE and the byte in RDR decode to (R125, R185, R94). -/
def Obligations.RxIsrParsesTheByteOnce : Prop :=
  ∀ (s : State) (p : Parser) (i : Instr), s.gie = true → s.blk.rxie = true → s.blk.rxc = true → s.blk.parser = some p →
    s.blk.rxq.Ok → s.blk.rxq.head = s.blk.rxq.tail → decode (.parserByte p.pstate.code s.blk.rdr) = .ok i →
    ∃ t, exec .rxIsr s = .next t ∧
      exec i { s with blk := { s.blk with
        rxc := false
        rxq := { s.blk.rxq with
          buf := s.blk.rxq.buf.write s.blk.rxq.head.toNat s.blk.rdr,
          head := s.blk.rxq.after s.blk.rxq.head, tail := s.blk.rxq.after s.blk.rxq.head } } } = .next t

/-- TX_ISR: on an empty TXQ it clears TXIE and changes nothing else; else the oldest byte goes to TDR, tail advances, TXRDY is
cleared (R126). -/
def Obligations.TxIsrLoadsTdrOrDisables : Prop :=
  ∀ s : State, s.gie = true → s.blk.txie = true → s.blk.txrdy = true →
    (s.blk.txq.head = s.blk.txq.tail → exec .txIsr s = .next { s with blk := { s.blk with txie := false } }) ∧
    (s.blk.txq.head ≠ s.blk.txq.tail →
      exec .txIsr s = .next { s with blk := { s.blk with
        tdr := s.blk.txq.slot s.blk.txq.tail.toNat, txrdy := false,
        txq := { s.blk.txq with tail := s.blk.txq.after s.blk.txq.tail } } })

/-- LINE_OUT: the byte in TDR joins wire_out and TXRDY is set, whatever GIE is (R127). -/
def Obligations.LineOutTakesTdr : Prop :=
  ∀ s : State, s.blk.txrdy = false →
    exec .lineOut s = .next { s with blk := { s.blk with wireOut := s.blk.wireOut ++ [s.blk.tdr], txrdy := true } }

/-- A handler that is not enabled, and a line with nothing to take, change nothing (R70; that exec answers the state unchanged
is the model's choice, log entry 10). -/
def Obligations.DisabledEventChangesNothing : Prop :=
  ∀ s : State,
    ((s.gie = false ∨ s.blk.rxie = false ∨ s.blk.rxc = false) → exec .rxIsr s = .next s) ∧
    ((s.gie = false ∨ s.blk.txie = false ∨ s.blk.txrdy = false) → exec .txIsr s = .next s) ∧
    (s.blk.txrdy = true → exec .lineOut s = .next s)

/-! ### The encoder -/

/-- ENCODE's issue step latches its operands, EPAY slot by slot and no slot beyond n, sets ESTAGE to E_SOF and EIDX to 0, and
leaves TXQ and everything else as it was (R160). -/
def Obligations.EncodeIssueLatchesTheFrame : Prop :=
  ∀ (link : Byte) (payload : List Byte) (s : State), s.fgst = .idle → payload.length ≤ 255 →
    ∃ m : Memory,
      exec (.encode link payload) s = .next { s with fgst := .encode s.portNo, blk := { s.blk with
        elink := link, elen := BitVec.ofNat 8 payload.length, eidx := 0#8, estage := .sof, epay := m } } ∧
      (∀ k (h : k < payload.length), m.read k = some payload[k]) ∧
      (∀ k, payload.length ≤ k → m.read k = s.blk.epay.read k)

/-- The four header stages and the trailer stage, with room in TXQ: each pushes its byte (0xBF; ELINK; 0x00; ELEN; ELINK XOR
0xFF), sets TXIE and goes to the next stage; after the trailer the foreground is idle (R161, R162, R163, R164, R166). -/
def Obligations.HeaderAndTrailerStagesPushTheirByte : Prop :=
  ∀ s : State, s.fgst = .encode s.portNo → s.blk.txq.full = false →
    (s.blk.estage = .sof → exec .eSof s = .next { s with blk := { s.blk with
      txq := s.blk.txq.store 0xBF#8, txie := true, estage := .link } }) ∧
    (s.blk.estage = .link → exec .eLink s = .next { s with blk := { s.blk with
      txq := s.blk.txq.store s.blk.elink, txie := true, estage := .flags } }) ∧
    (s.blk.estage = .flags → exec .eFlags s = .next { s with blk := { s.blk with
      txq := s.blk.txq.store 0x00#8, txie := true, estage := .len } }) ∧
    (s.blk.estage = .len → exec .eLen s = .next { s with blk := { s.blk with
      txq := s.blk.txq.store s.blk.elen, txie := true, estage := if s.blk.elen = 0#8 then .trl else .pay } }) ∧
    (s.blk.estage = .trl → exec .eTrl s = .next { s with fgst := .idle, blk := { s.blk with
      txq := s.blk.txq.store (s.blk.elink ^^^ 0xFF#8), txie := true, estage := .idle } })

/-- Stage E_PAY: with room in TXQ it pushes EPAY[EIDX] unchanged, sets TXIE, advances EIDX, and goes to the trailer after the
last byte; with TXQ full it holds and nothing changes (R165). -/
def Obligations.PayloadStagePushesTheNextByte : Prop :=
  ∀ s : State, s.fgst = .encode s.portNo → s.blk.estage = .pay → s.blk.eidx < s.blk.elen →
    (s.blk.txq.full = false →
      exec .ePay s = .next { s with blk := { s.blk with
        txq := s.blk.txq.store (s.blk.epaySlot s.blk.eidx.toNat), txie := true, eidx := s.blk.eidx + 1#8,
        estage := if s.blk.eidx.toNat + 1 = s.blk.elen.toNat then .trl else .pay } }) ∧
    (s.blk.txq.full = true → exec .ePay s = .next s)

/-- Every stage holds while TXQ is full: nothing changes, the stage is retried later (R161, R165, R166). For a stage
that ESTAGE does not select, that exec answers the state unchanged is the model's choice and no rule's (log entry 10). -/
def Obligations.StagesHoldWhileTxqIsFull : Prop :=
  ∀ s : State, s.fgst = .encode s.portNo → s.blk.txq.full = true →
    ∀ i ∈ [Instr.eSof, .eLink, .eFlags, .eLen, .ePay, .eTrl], exec i s = .next s

/-- What ENCODE adds up to: with room for the whole frame, an ENCODE command and 5 + n further foreground turns put exactly the
frame's 5 + n bytes into TXQ, behind what was there, and leave the foreground idle, whatever GIE is (R168, R270). That the turns
stand in a script and the command in a list of words, and leave them, is the model's choice (log entries 1 and 2). -/
def Obligations.EncodeQueuesExactlyTheFrame : Prop :=
  ∀ (link : Byte) (payload : List Byte) (s : State) (ts : List Turn) (cs : List Command) (width bits : Nat),
    s.fgst = .idle → s.blk.txq.Ok → payload.length ≤ 255 →
    s.blk.txq.occ + (5 + payload.length) + 1 ≤ s.blk.txq.cap →
    encode (.encode link payload) = .command width bits →
    s.program = ⟨s.portNo, width, bits⟩ :: cs →
    s.script = List.replicate (6 + payload.length) (.agent .fg) ++ ts →
    ∃ t, core.run (6 + payload.length) s = .next t ∧
      t.blk.txq.live = s.blk.txq.live ++ ([0xBF#8, link, 0x00#8, BitVec.ofNat 8 payload.length] ++ payload ++ [link ^^^ 0xFF#8]) ∧
      t.fgst = .idle ∧ t.blk.estage = .idle ∧ t.blk.txie = true ∧ t.program = cs ∧ t.script = ts ∧
      t.gie = s.gie ∧ t.blk.wireOut = s.blk.wireOut ∧ t.blk.rxq = s.blk.rxq ∧ t.blk.parser = s.blk.parser ∧
      t.below = s.below ∧ t.above = s.above

/-! ### The parser -/

/-- PARSE in WaitSOF: 0xBF starts a frame, any other byte is discarded; PTRAILV is cleared; FrmErr is raised when a trailer was
expected and this is not it, or none was and this is not 0xBF; nothing else changes (R180). -/
def Obligations.WaitSofTakesOnlyTheStartByte : Prop :=
  ∀ (s : State) (p : Parser), s.blk.parser = some p → p.pstate = .waitSOF →
    (exec .pSof s =
      if p.ptrailv = true ∧ p.ptrail ≠ 0xBF#8 then
        .next { s with blk := { s.blk with
          parser := some { p with ptrailv := false, pstate := .waitLink }
          err := s.blk.err ||| 0x08#8, evlog := s.blk.evlog ++ [.frmErr 0xBF#8] } }
      else .next { s with blk := { s.blk with parser := some { p with ptrailv := false, pstate := .waitLink } } }) ∧
    (∀ b : Byte, b ≠ 0xBF#8 →
      exec (.pSkip b) s =
        if p.ptrailv = true ∧ p.ptrail = b then .next { s with blk := { s.blk with parser := some { p with ptrailv := false } } }
        else .next { s with blk := { s.blk with
          parser := some { p with ptrailv := false }
          err := s.blk.err ||| 0x08#8, evlog := s.blk.evlog ++ [.frmErr b] } })

/-- PARSE in WaitLink stores the link id and goes to WaitFlags (R181). PARSE in WaitFlags ignores the byte and goes to
WaitLength (R182). Nothing else changes. -/
def Obligations.HeaderBytesStoreTheLinkAndSkipTheFlags : Prop :=
  ∀ (s : State) (p : Parser) (b : Byte), s.blk.parser = some p →
    (p.pstate = .waitLink →
      exec (.pLink b) s =
        .next { s with blk := { s.blk with parser := some { p with plink := b, plinkv := true, pstate := .waitFlags } } }) ∧
    (p.pstate = .waitFlags →
      exec (.pFlags b) s = .next { s with blk := { s.blk with parser := some { p with pstate := .waitLength } } })

/-- PARSE in WaitLength: 0 ends an empty frame, its trailer expected next; any other byte is the payload count (R183). -/
def Obligations.LengthByteStartsThePayloadOrEndsTheFrame : Prop :=
  ∀ (s : State) (p : Parser), s.blk.parser = some p → p.pstate = .waitLength →
    exec .pLen0 s = .next { s with blk := { s.blk with
      parser := some { p with ptrail := p.plink ^^^ 0xFF#8, ptrailv := true, pstate := .waitSOF } } } ∧
    (∀ b : Byte, b ≠ 0#8 →
      exec (.pLenN b) s = .next { s with blk := { s.blk with parser := some { p with prem := b, pstate := .payload } } })

/-- PARSE in Payload: the byte is stored in DQ, or dropped with DqDrop when DQ is full; it is counted either way; after the last
one the trailer is expected and the parser is in WaitSOF (R184). -/
def Obligations.PayloadByteIsCountedStoredOrDropped : Prop :=
  ∀ (s : State) (p : Parser) (b : Byte), s.blk.parser = some p → p.pstate = .payload →
    ∃ p' : Parser,
      (p' = if p.prem = 1#8 then
          { p with dq := p'.dq, prem := 0#8, ptrail := p.plink ^^^ 0xFF#8, ptrailv := true, pstate := .waitSOF }
        else { p with dq := p'.dq, prem := p.prem - 1#8 }) ∧
      (p.dq.full = false →
        p'.dq = { p.dq with buf := p.dq.buf.write p.dq.head.toNat b, head := p.dq.after p.dq.head } ∧
        exec (.pData b) s = .next { s with blk := { s.blk with parser := some p' } }) ∧
      (p.dq.full = true →
        p'.dq = p.dq ∧
        exec (.pData b) s = .next { s with blk := { s.blk with
          parser := some p'
          err := s.blk.err ||| 0x02#8, evlog := s.blk.evlog ++ [.dqDrop b] } })

/-- Well-formed input: from WaitSOF with no trailer expected, a concatenation of frames with the right trailers and links other
than 0x40, with room in DQ for all their payloads, adds exactly the payloads to DQ in order, ends in WaitSOF with no trailer
expected and PLINK the last link, and raises no event (R186). -/
def Obligations.WellFormedStreamIsDeframed : Prop :=
  ∀ (b : Block) (p : Parser) (fs : List WireFrame),
    b.parser = some p → p.Ok → p.pstate = .waitSOF → p.ptrailv = false →
    (∀ f ∈ fs, f.link ≠ 0x40#8 ∧ f.payload.length ≤ 255) →
    p.dq.occ + (fs.flatMap WireFrame.payload).length + 1 ≤ p.dq.cap →
    ∃ p' : Parser,
      (b.parseAll (fs.flatMap WireFrame.bytes)).parser = some p' ∧
      p'.dq.live = p.dq.live ++ fs.flatMap WireFrame.payload ∧
      p'.pstate = .waitSOF ∧ p'.ptrailv = false ∧ p'.plink = (fs.getLast?.map WireFrame.link).getD p.plink ∧
      (b.parseAll (fs.flatMap WireFrame.bytes)).evlog = b.evlog ∧
      (b.parseAll (fs.flatMap WireFrame.bytes)).err = b.err

/-- The trailer of a frame on link 0x40 is taken as a start of frame: after such a frame the parser is in WaitLink, and no
event tells (R272). -/
def Obligations.LinkFortyLeavesTheParserInWaitLink : Prop :=
  ∀ (b : Block) (p : Parser) (f : WireFrame),
    b.parser = some p → p.Ok → p.pstate = .waitSOF → p.ptrailv = false →
    f.link = 0x40#8 → f.payload.length ≤ 255 → p.dq.occ + f.payload.length + 1 ≤ p.dq.cap →
    ∃ p' : Parser, (b.parseAll f.bytes).parser = some p' ∧ p'.pstate = .waitLink ∧
      p'.dq.live = p.dq.live ++ f.payload ∧ (b.parseAll f.bytes).evlog = b.evlog

/-- On any input the parser is back in WaitSOF after at most 3 + 255 further bytes (R187). -/
def Obligations.ParserReturnsToWaitSofInBoundedBytes : Prop :=
  ∀ (b : Block) (p : Parser) (cs : List Byte), b.parser = some p → p.Ok → cs.length = 258 →
    ∃ (n : Nat) (p' : Parser), n ≤ 258 ∧ (b.parseAll (cs.take n)).parser = some p' ∧ p'.pstate = .waitSOF

/-- The shadow, the error flags and the event log never feed back: two systems that differ only in them answer every
instruction but RD_ERR alike, up to them (R32, R33, R232). -/
def Obligations.ObservationNeverFeedsBack : Prop :=
  ∀ (i : Instr) (s s' t : State), i ≠ .rdErr → s.lessShadow = s'.lessShadow → exec i s = .next t →
    ∃ t', exec i s' = .next t' ∧ t.lessShadow = t'.lessShadow

/-! ### A whole frame -/

/-- MUXFRAME puts the delivery of its 5 + n bytes, in the order of R90, at the front of the schedule, each byte followed by a
turn of the receive handler, and changes nothing else (R90; that a frame on the wire is run so is the model's choice, log
entry 11). -/
def Obligations.FrameOnTheWireIsDeliveredByteByByte : Prop :=
  ∀ (link flags : Byte) (payload : List Byte) (trailer : Byte) (s : State),
    exec (.muxframe link flags payload trailer) s =
      .next { s with
        script :=
          ([0xBF#8, link, flags, BitVec.ofNat 8 payload.length] ++ payload ++ [trailer]).flatMap
            (fun b => [.agent (.lin s.portNo b), .agent (.rxh s.portNo)]) ++ s.script }

/-- The round trip: the frame that ENCODE link, payload puts on the wire, sent to a block with its interrupts on and its parser
in WaitSOF, puts exactly its payload into DQ and leaves the parser in WaitSOF with no event, in 1 + 2 * (5 + n) steps (R96;
rests on log entry 11 for how a frame is run). -/
def Obligations.EncodedFrameIsReceivedAsItsPayload : Prop :=
  ∀ (link : Byte) (payload : List Byte) (s : State) (ts : List Turn) (p : Parser),
    s.gie = true → s.blk.rxie = true → s.blk.rxc = false → s.blk.parser = some p →
    s.blk.rxq.Ok → s.blk.rxq.head = s.blk.rxq.tail → p.Ok → p.pstate = .waitSOF → p.ptrailv = false →
    link ≠ 0x40#8 → payload.length ≤ 255 → p.dq.occ + payload.length + 1 ≤ p.dq.cap →
    s.script = .wire s.portNo (frameBytes link payload) :: ts →
    ∃ (t : State) (p' : Parser), core.run (1 + 2 * (5 + payload.length)) s = .next t ∧
      t.blk.parser = some p' ∧ p'.dq.live = p.dq.live ++ payload ∧ p'.pstate = .waitSOF ∧ p'.plink = link ∧
      t.blk.evlog = s.blk.evlog ∧ t.blk.err = s.blk.err ∧ t.blk.rxc = false ∧ t.script = ts

/-! ### Steps -/

/-- The foreground's turn when it is idle: the next command word is presented on its port, and when it decodes to an
instruction, the step is that instruction (R9, R70, R100). The model's choice: the turn is the first of a script (log entry 1),
the word is the first of a list and leaves it whatever the instruction comes to (log entry 2), and the block of the port is
selected first (log entry 3). -/
def Obligations.StepRunsTheDecodedCommand : Prop :=
  ∀ (s u : State) (ts : List Turn) (c : Command) (cs : List Command) (i : Instr),
    s.script = .agent .fg :: ts → s.fgst = .idle → s.program = c :: cs →
    decode (.command c.width c.bits) = .ok i →
    ({ s with script := ts, program := cs } : State).select c.port = some u →
    step s = exec i u

/-- The turns of the other agents: RX_ISR, TX_ISR and LINE_OUT run where they are enabled, and LINE_IN always (R70, R103). The
model's choice: the turn is the first of a script, and a turn that is not enabled passes, which is a step the spec does not have
(log entry 1); the block of the turn is selected first (log entry 3); a frame runs as MUXFRAME, and bytes that form no frame
are delivered one by one like those of a frame (R95; log entry 11). -/
def Obligations.StepRunsTheEnabledEvent : Prop :=
  ∀ (s u : State) (ts : List Turn) (k : Nat), ({ s with script := ts } : State).select k = some u →
    (s.script = .agent (.rxh k) :: ts → step s =
      if u.gie = true ∧ u.blk.rxie = true ∧ u.blk.rxc = true then exec .rxIsr u else .next { s with script := ts }) ∧
    (s.script = .agent (.txh k) :: ts → step s =
      if u.gie = true ∧ u.blk.txie = true ∧ u.blk.txrdy = true then exec .txIsr u else .next { s with script := ts }) ∧
    (s.script = .agent (.lout k) :: ts → step s =
      if u.blk.txrdy = false then exec .lineOut u else .next { s with script := ts }) ∧
    (∀ b, s.script = .agent (.lin k b) :: ts → step s = exec (.lineIn b) u) ∧
    (∀ bytes i, s.script = .wire k bytes :: ts → decode (.wire bytes) = .ok i → step s = exec i u) ∧
    (∀ bytes why, s.script = .wire k bytes :: ts → decode (.wire bytes) = .error why → step s =
      .next { s with script := bytes.flatMap (fun b => [.agent (.lin k b), .agent (.rxh k)]) ++ ts })

/-- The foreground's turn when it is busy: a held operation is retried on its port; while it encodes, the step is the stage that
ESTAGE selects (R71, R160). That the turn is the first of a script and the block of the port is selected first is the model's
choice (log entries 1 and 3). -/
def Obligations.StepRetriesTheHeldOperationOrStage : Prop :=
  ∀ (s u : State) (ts : List Turn) (k : Nat), s.script = .agent .fg :: ts →
    ({ s with script := ts } : State).select k = some u →
    (∀ b, s.fgst = .hold k (.put b) → step s = exec (.put b) u) ∧
    (s.fgst = .hold k .get → step s = exec .get u) ∧
    (s.fgst = .hold k .dqGet → step s = exec .dqGet u) ∧
    (∀ i, s.fgst = .encode k → decode (.stage u.blk.estage.code) = .ok i → step s = exec i u)

/-- The model's own representation of the blocks (log entry 3; no rule of the spec says it): selecting the block of a turn
changes no block, the blocks in port order stay, and the one at hand is the one numbered. -/
def Obligations.SelectingABlockChangesNoBlock : Prop :=
  ∀ (s u : State) (k : Nat), s.select k = some u →
    u.blocks = s.blocks ∧ s.blocks[k]? = some u.blk ∧ u.portNo = k ∧ u.gie = s.gie ∧ u.fgst = s.fgst ∧
    u.refusals = s.refusals ∧ u.results = s.results ∧ u.program = s.program ∧ u.script = s.script ∧ u.tick = s.tick

/-! ### Whole-machine rules -/

/-- The invariants of R42 are kept by every step, from every state that has them (R42, R6, R30, R33). -/
def Obligations.EveryStepKeepsTheInvariants : Prop :=
  ∀ s t : State, s.Ok → step s = .next t → t.Ok

/-- The invariants hold after power-on reset, for all legal parameters of any number of blocks, and for State.reset (R42, R45).
Which parameters State.reset has is the model's choice (log entry 4). -/
def Obligations.InvariantsHoldAfterReset : Prop :=
  (∀ (first : BlockParams) (rest : List BlockParams), first.Legal → (∀ p ∈ rest, p.Legal) → (State.powerOn first rest).Ok) ∧
  State.reset.Ok

/-- Every register that R45 gives a value has it after power-on reset, whatever the parameters (R45, R260). -/
def Obligations.ResetValuesAreThoseOfTheTable : Prop :=
  ∀ (first : BlockParams) (rest : List BlockParams),
    (State.powerOn first rest).gie = false ∧ (State.powerOn first rest).fgst = .idle ∧
    ∀ b ∈ (State.powerOn first rest).blocks,
      b.rxq.head = 0#8 ∧ b.rxq.tail = 0#8 ∧ b.txq.head = 0#8 ∧ b.txq.tail = 0#8 ∧
      b.rxc = false ∧ b.txrdy = true ∧ b.rxie = false ∧ b.txie = false ∧ b.err = 0#8 ∧ b.estage = .idle ∧
      b.wireOut = [] ∧ b.evlog = [] ∧
      ∀ p, b.parser = some p → p.dq.head = 0#8 ∧ p.dq.tail = 0#8 ∧ p.pstate = .waitSOF ∧ p.prem = 0#8 ∧ p.plink = 0#8 ∧
        p.plinkv = false ∧ p.ptrailv = false

/-- Sticky: no instruction clears a bit of ERR, takes an entry from a history, or unmarks a refused run (R33, R44, R236). -/
def Obligations.ErrorsAndHistoriesOnlyGrow : Prop :=
  ∀ (i : Instr) (s t : State), exec i s = .next t →
    t.blk.err &&& s.blk.err = s.blk.err ∧ s.blk.evlog <+: t.blk.evlog ∧ s.blk.wireOut <+: t.blk.wireOut ∧
    s.refusals <+: t.refusals ∧ s.results <+: t.results

/-- At most one event is raised in a step, and ERR gains exactly its bit (R232, from states with the invariants of R42). -/
def Obligations.AtMostOneEventPerStep : Prop :=
  ∀ (i : Instr) (s t : State), s.Ok → exec i s = .next t →
    (t.blk.evlog = s.blk.evlog ∧ t.blk.err = s.blk.err) ∨
    ∃ e : Event, t.blk.evlog = s.blk.evlog ++ [e] ∧ t.blk.err = s.blk.err ||| BitVec.ofNat 8 (2 ^ e.code)

/-- GIE is written only by IRQ_OFF and IRQ_ON (R28). -/
def Obligations.OnlyIrqOffAndOnWriteGie : Prop :=
  ∀ (i : Instr) (s t : State), exec i s = .next t → i ≠ .irqOff → i ≠ .irqOn → t.gie = s.gie

/-- An instruction on one block never writes another's state, and no block comes or goes (R250). -/
def Obligations.OtherBlocksAreUntouched : Prop :=
  ∀ (i : Instr) (s t : State), exec i s = .next t →
    t.below = s.below ∧ t.above = s.above ∧ t.portNo = s.portNo ∧
    (∀ j, j ≠ s.portNo → t.blocks[j]? = s.blocks[j]?) ∧ t.blk.parser.isSome = s.blk.parser.isSome

/-- The single-writer table (R41), register by register: which instructions can change it, and for a flag in which direction.
INIT is the exception that R41 names. The byte classes are PARSE, which RX_ISR runs (R185). -/
def Obligations.EachRegisterHasItsWriters : Prop :=
  ∀ (i : Instr) (s t : State), exec i s = .next t →
    -- RXQ.head and RXQ.buf; RXQ.tail
    (i ≠ .rxIsr → t.blk.rxq.buf = s.blk.rxq.buf ∧ ((∀ baud, i ≠ .init baud) → t.blk.rxq.head = s.blk.rxq.head)) ∧
    ((∀ baud, i ≠ .init baud) → t.blk.rxq.tail ≠ s.blk.rxq.tail →
      (i = .get ∧ s.blk.parser.isSome = false) ∨ (i = .rxIsr ∧ s.blk.parser.isSome = true)) ∧
    -- TXQ.head and TXQ.buf; TXQ.tail and TDR
    ((∀ b, i ≠ .put b) → i.role ≠ .stage →
      t.blk.txq.buf = s.blk.txq.buf ∧ ((∀ baud, i ≠ .init baud) → t.blk.txq.head = s.blk.txq.head)) ∧
    (i ≠ .txIsr → t.blk.tdr = s.blk.tdr ∧ ((∀ baud, i ≠ .init baud) → t.blk.txq.tail = s.blk.txq.tail)) ∧
    -- DQ.head, DQ.buf and the parser's registers; DQ.tail
    (i ≠ .rxIsr → i.role ≠ .byteClass →
      t.blk.parser.map Parser.handlerView = s.blk.parser.map Parser.handlerView) ∧
    (i ≠ .dqGet → i ≠ .dqClear → t.blk.parser.map (fun p => p.dq.tail) = s.blk.parser.map (fun p => p.dq.tail)) ∧
    -- RDR; RXC; TXRDY; TXIE
    ((∀ b, i ≠ .lineIn b) → t.blk.rdr = s.blk.rdr) ∧
    ((∀ baud, i ≠ .init baud) → t.blk.rxc ≠ s.blk.rxc →
      (t.blk.rxc = true ∧ ∃ b, i = .lineIn b) ∨ (t.blk.rxc = false ∧ i = .rxIsr)) ∧
    (t.blk.txrdy ≠ s.blk.txrdy → (t.blk.txrdy = false ∧ i = .txIsr) ∨ (t.blk.txrdy = true ∧ i = .lineOut)) ∧
    ((∀ baud, i ≠ .init baud) → t.blk.txie ≠ s.blk.txie →
      (t.blk.txie = true ∧ ((∃ b, i = .put b) ∨ i.role = .stage)) ∨ (t.blk.txie = false ∧ i = .txIsr)) ∧
    -- RXIE and BAUD; GIE; ERR
    ((∀ baud, i ≠ .init baud) → t.blk.rxie = s.blk.rxie ∧ t.blk.baud = s.blk.baud) ∧
    (i ≠ .irqOff → i ≠ .irqOn → t.gie = s.gie) ∧
    (t.blk.err ≠ s.blk.err → (∃ b, i = .lineIn b) ∨ i = .rxIsr ∨ i.role = .byteClass) ∧
    -- ESTAGE; ELINK, ELEN and EPAY; EIDX; FGST
    (t.blk.estage ≠ s.blk.estage → (∃ link payload, i = .encode link payload) ∨ i.role = .stage) ∧
    ((∀ link payload, i ≠ .encode link payload) →
      t.blk.elink = s.blk.elink ∧ t.blk.elen = s.blk.elen ∧ t.blk.epay = s.blk.epay ∧
      (i ≠ .ePay → t.blk.eidx = s.blk.eidx)) ∧
    (t.fgst ≠ s.fgst → i.role = .port ∨ i = .eTrl)

/-- What stores to memory, and where: from states with the invariants, a slot of TXQ changes only if it is the one at the old
head, TXQ had room, and the instruction is PUT or a stage; a slot of RXQ only under RX_ISR, a slot of DQ only under RX_ISR or
P_DATA, each at the old head with room; a slot of EPAY only under ENCODE, below its payload's length (R64, R65, R160). -/
def Obligations.OnlyTheOldHeadSlotIsStored : Prop :=
  ∀ (i : Instr) (s t : State), s.Ok → exec i s = .next t →
    (∀ j, t.blk.txq.slot j ≠ s.blk.txq.slot j → j = s.blk.txq.head.toNat ∧ s.blk.txq.full = false ∧
      ((∃ b, i = .put b) ∨ i ∈ [Instr.eSof, .eLink, .eFlags, .eLen, .ePay, .eTrl])) ∧
    (∀ j, t.blk.rxq.slot j ≠ s.blk.rxq.slot j → j = s.blk.rxq.head.toNat ∧ s.blk.rxq.full = false ∧ i = .rxIsr) ∧
    (∀ p p', s.blk.parser = some p → t.blk.parser = some p' → ∀ j, p'.dq.slot j ≠ p.dq.slot j →
      j = p.dq.head.toNat ∧ p.dq.full = false ∧ (i = .rxIsr ∨ ∃ b, i = .pData b)) ∧
    (∀ j, t.blk.epaySlot j ≠ s.blk.epaySlot j → ∃ link payload, i = .encode link payload ∧ j < payload.length)

/-- The transmit stream: PUT and each stage with room append their byte to it; every other instruction but INIT, the handler
and the line among them, leaves it as it is (R128, R68). -/
def Obligations.TransmitStreamGrowsOnlyByPushedBytes : Prop :=
  ∀ (i : Instr) (s t : State), s.Ok → (∀ baud, i ≠ .init baud) → exec i s = .next t →
    (t.blk.txStream = s.blk.txStream ∧ t.blk.txq.head = s.blk.txq.head) ∨
    (∃ b, i = .put b ∧ t.blk.txStream = s.blk.txStream ++ [b]) ∨
    (i = .eSof ∧ t.blk.txStream = s.blk.txStream ++ [0xBF#8]) ∨
    (i = .eLink ∧ t.blk.txStream = s.blk.txStream ++ [s.blk.elink]) ∨
    (i = .eFlags ∧ t.blk.txStream = s.blk.txStream ++ [0x00#8]) ∨
    (i = .eLen ∧ t.blk.txStream = s.blk.txStream ++ [s.blk.elen]) ∨
    (i = .ePay ∧ t.blk.txStream = s.blk.txStream ++ [s.blk.epaySlot s.blk.eidx.toNat]) ∨
    (i = .eTrl ∧ t.blk.txStream = s.blk.txStream ++ [s.blk.elink ^^^ 0xFF#8])

/-- DQ's count only grows until the foreground itself consumes (R277, R190). -/
def Obligations.DqCountOnlyGrowsUntilConsumed : Prop :=
  ∀ (i : Instr) (s t : State) (p : Parser), s.Ok → exec i s = .next t → i ≠ .dqGet → i ≠ .dqClear →
    s.blk.parser = some p → ∃ p', t.blk.parser = some p' ∧ p.dq.live <+: p'.dq.live

/-- Inside a critical section no step changes what the handlers own: on every block the parser's registers, the producer's side
of DQ, TDR, RXQ.buf, every bit of ERR but LINE_OVR, and, unless the step is an INIT, the indices that R41 gives the handlers
(R76, R28, R41). -/
def Obligations.HandlerStateIsStableWithGieOff : Prop :=
  ∀ s t : State, s.gie = false → step s = .next t →
    t.blocks.map (fun b => b.parser.map Parser.handlerView) = s.blocks.map (fun b => b.parser.map Parser.handlerView) ∧
    t.blocks.map Block.tdr = s.blocks.map Block.tdr ∧
    t.blocks.map (fun b => b.rxq.buf) = s.blocks.map (fun b => b.rxq.buf) ∧
    t.blocks.map (fun b => b.err &&& 0xFB#8) = s.blocks.map (fun b => b.err &&& 0xFB#8) ∧
    ((∃ baud u, s.fetch = .run (.init baud) u) ∨
      t.blocks.map Block.handlerIndices = s.blocks.map Block.handlerIndices)

/-- Waiting for room with interrupts disabled deadlocks: a PUT that holds, or an encoder stage, on a full TXQ with GIE = 0 is a
hang: no possible step lifts it, whatever schedule the state holds (R270, R237). -/
def Obligations.WaitingForRoomWithGieOffHangs : Prop :=
  ∀ (s u : State) (k : Nat), s.gie = false → s.select k = some u → u.blk.txq.full = true →
    (∀ b, s.fgst = .hold k (.put b) → s.Hung) ∧ (s.fgst = .encode k → s.Hung)

/-- A GET that holds on an empty RXQ, or a DQ_GET that holds on an empty DQ, is a hang with GIE = 0 or RXIE = 0, whatever steps
are taken and whatever the line delivers; with no byte waiting in RDR it is one as long as the line delivers nothing, whatever
GIE and RXIE are (R237, R270). -/
def Obligations.WaitingForDataThatCannotComeHangs : Prop :=
  ∀ (s u : State) (k : Nat), s.select k = some u →
    (s.fgst = .hold k .get ∧ u.blk.parser = none ∧ u.blk.rxq.head = u.blk.rxq.tail ∨
      s.fgst = .hold k .dqGet ∧ ∃ p, u.blk.parser = some p ∧ p.dq.head = p.dq.tail) →
    (s.gie = false ∨ u.blk.rxie = false → s.Hung) ∧ (u.blk.rxc = false → s.HungOnSilentLine)

/-- A held PUT is lifted by one TX_ISR: the handler's pop makes room, and the retried PUT completes (R121, V12). -/
def Obligations.HeldPutIsLiftedByOneTxIsr : Prop :=
  ∀ (s : State) (b : Byte), s.Ok → s.fgst = .hold s.portNo (.put b) → s.blk.txq.full = true →
    s.gie = true → s.blk.txrdy = true →
    ∃ t u, exec .txIsr s = .next t ∧ exec (.put b) t = .next u ∧ u.fgst = .idle ∧
      u.blk.txStream = s.blk.txStream ++ [b]

/-- Transmit progress: in a weakly fair run with the invariants, a PUT that holds with GIE = 1 finds room at some point (R129,
R281). -/
def Obligations.FairRunMakesRoomForAHeldPut : Prop :=
  ∀ (σ : Nat → State) (k : Nat) (b : Byte), IsRun σ → WeaklyFair σ → (σ 0).Ok → (σ 0).gie = true →
    (σ 0).fgst = .hold k (.put b) →
    ∃ (n : Nat) (c : Block), (σ n).blocks[k]? = some c ∧ c.txq.full = false
end

