-- ==== Sys2Proof/Laws/Memory.lean ====
section
/-! SUPPORT. The laws of byte memories: read after write, and every operation keeps the canonical form (R64). -/

namespace Sys2Proof.Machine

theorem Memory.read_write_same (m : Memory) (a : Nat) (v : Byte) : (m.write a v).read a = some v := by
  induction m with
  | nil => simp [Memory.write, Memory.read]
  | cons c m ih =>
    obtain ⟨k, w⟩ := c
    simp only [Memory.write]
    split
    · simp [Memory.read]
    · split
      · simp [Memory.read]
      · rename_i h; simp [Memory.read, ih, Ne.symm h]

theorem Memory.read_write_other (m : Memory) {a b : Nat} (v : Byte) (h : b ≠ a) : (m.write a v).read b = m.read b := by
  induction m with
  | nil => simp [Memory.write, Memory.read, Ne.symm h]
  | cons c m ih =>
    obtain ⟨k, w⟩ := c
    simp only [Memory.write]
    split
    · simp [Memory.read, Ne.symm h]
    · split
      · rename_i e; subst e; simp [Memory.read, Ne.symm h]
      · simp [Memory.read, ih]

theorem Memory.wf_tail {c : Nat × BitVec 8} {m : Memory} (h : Memory.wf (c :: m) = true) : m.wf = true := by
  cases m with
  | nil => rfl
  | cons d m => simp [Memory.wf] at h; exact h.2

/-- A write keeps the slots strictly rising. -/
theorem Memory.wf_write (m : Memory) (a : Nat) (v : Byte) (h : m.wf = true) : (m.write a v).wf = true := by
  induction m with
  | nil => rfl
  | cons c m ih =>
    obtain ⟨k, w⟩ := c
    simp only [Memory.write]
    split
    · rename_i hlt; simp [Memory.wf, hlt, h]
    · split
      · rename_i e; subst e
        cases m with
        | nil => rfl
        | cons d m => obtain ⟨k', w'⟩ := d; simpa [Memory.wf] using h
      · rename_i h1 h2
        have hk : k < a := by omega
        have hm := ih (Memory.wf_tail h)
        cases m with
        | nil => simp [Memory.write, Memory.wf, hk]
        | cons d m =>
          obtain ⟨k', w'⟩ := d
          have hkk : k < k' := by simp [Memory.wf] at h; exact h.1
          simp only [Memory.write] at hm ⊢
          split at hm
          · rename_i h3; simp [h3, Memory.wf, hk] at hm ⊢; exact hm
          · split at hm
            · rename_i h3 h4; subst h4; simp [Memory.wf, hk] at hm ⊢; exact hm
            · rename_i h3 h4; simp [h3, h4, Memory.wf, hkk] at hm ⊢; exact hm

theorem Memory.within_write (m : Memory) {a n : Nat} (v : Byte) (ha : a < n) (h : m.within n = true) :
    (m.write a v).within n = true := by
  induction m with
  | nil => simp [Memory.write, Memory.within, ha]
  | cons c m ih =>
    obtain ⟨k, w⟩ := c
    simp only [Memory.within, List.all_cons, Bool.and_eq_true, decide_eq_true_eq] at h
    simp only [Memory.write]
    split
    · simpa [Memory.within, ha] using h
    · split
      · simpa [Memory.within, ha] using h.2
      · simpa [Memory.within, h.1] using ih h.2

/-- Latching a payload keeps the canonical form. -/
theorem latchPayload_wf (bs : List Byte) : ∀ (m : Memory) (k : Nat), m.wf = true → (latchPayload m k bs).wf = true := by
  induction bs with
  | nil => intro m k h; exact h
  | cons b bs ih => intro m k h; exact ih _ _ (Memory.wf_write m k b h)

theorem latchPayload_within (bs : List Byte) : ∀ (m : Memory) (k n : Nat), k + bs.length ≤ n → m.within n = true →
    (latchPayload m k bs).within n = true := by
  induction bs with
  | nil => intro m k n _ h; exact h
  | cons b bs ih =>
    intro m k n hn h
    simp only [List.length_cons] at hn
    exact ih _ _ _ (by omega) (Memory.within_write m b (by omega) h)

end Sys2Proof.Machine
end

