-- ==== Sys2Proof/Laws/State.lean ====
section
/-! SUPPORT. One lemma per field per update of the state records, true by rfl, so that no proof unfolds a record update. -/

namespace Sys2Proof.Machine

/-! ### setBlk, done, answer -/

@[simp] theorem setBlk_blk (s : State) (b : Block) : (s.setBlk b).blk = b := rfl
@[simp] theorem setBlk_below (s : State) (b : Block) : (s.setBlk b).below = s.below := rfl
@[simp] theorem setBlk_above (s : State) (b : Block) : (s.setBlk b).above = s.above := rfl
@[simp] theorem setBlk_gie (s : State) (b : Block) : (s.setBlk b).gie = s.gie := rfl
@[simp] theorem setBlk_fgst (s : State) (b : Block) : (s.setBlk b).fgst = s.fgst := rfl
@[simp] theorem setBlk_refusals (s : State) (b : Block) : (s.setBlk b).refusals = s.refusals := rfl
@[simp] theorem setBlk_results (s : State) (b : Block) : (s.setBlk b).results = s.results := rfl
@[simp] theorem setBlk_program (s : State) (b : Block) : (s.setBlk b).program = s.program := rfl
@[simp] theorem setBlk_script (s : State) (b : Block) : (s.setBlk b).script = s.script := rfl
@[simp] theorem setBlk_tick (s : State) (b : Block) : (s.setBlk b).tick = s.tick := rfl
@[simp] theorem setBlk_portNo (s : State) (b : Block) : (s.setBlk b).portNo = s.portNo := rfl

@[simp] theorem done_blk (s : State) : s.done.blk = s.blk := rfl
@[simp] theorem done_below (s : State) : s.done.below = s.below := rfl
@[simp] theorem done_above (s : State) : s.done.above = s.above := rfl
@[simp] theorem done_gie (s : State) : s.done.gie = s.gie := rfl
@[simp] theorem done_fgst (s : State) : s.done.fgst = .idle := rfl
@[simp] theorem done_refusals (s : State) : s.done.refusals = s.refusals := rfl
@[simp] theorem done_results (s : State) : s.done.results = s.results := rfl
@[simp] theorem done_program (s : State) : s.done.program = s.program := rfl
@[simp] theorem done_script (s : State) : s.done.script = s.script := rfl
@[simp] theorem done_tick (s : State) : s.done.tick = s.tick := rfl
@[simp] theorem done_portNo (s : State) : s.done.portNo = s.portNo := rfl

@[simp] theorem answer_blk (s : State) (r : PortResult) : (s.answer r).blk = s.blk := rfl
@[simp] theorem answer_below (s : State) (r : PortResult) : (s.answer r).below = s.below := rfl
@[simp] theorem answer_above (s : State) (r : PortResult) : (s.answer r).above = s.above := rfl
@[simp] theorem answer_gie (s : State) (r : PortResult) : (s.answer r).gie = s.gie := rfl
@[simp] theorem answer_fgst (s : State) (r : PortResult) : (s.answer r).fgst = .idle := rfl
@[simp] theorem answer_refusals (s : State) (r : PortResult) : (s.answer r).refusals = s.refusals := rfl
@[simp] theorem answer_results (s : State) (r : PortResult) : (s.answer r).results = s.results ++ [r] := rfl
@[simp] theorem answer_program (s : State) (r : PortResult) : (s.answer r).program = s.program := rfl
@[simp] theorem answer_script (s : State) (r : PortResult) : (s.answer r).script = s.script := rfl
@[simp] theorem answer_tick (s : State) (r : PortResult) : (s.answer r).tick = s.tick := rfl
@[simp] theorem answer_portNo (s : State) (r : PortResult) : (s.answer r).portNo = s.portNo := rfl

/-! ### raise, setParser, txPut -/

@[simp] theorem raise_err (b : Block) (e : Event) : (b.raise e).err = b.err ||| BitVec.ofNat 8 (2 ^ e.code) := rfl
@[simp] theorem raise_evlog (b : Block) (e : Event) : (b.raise e).evlog = b.evlog ++ [e] := rfl
@[simp] theorem raise_port (b : Block) (e : Event) : (b.raise e).port = b.port := rfl
@[simp] theorem raise_rxq (b : Block) (e : Event) : (b.raise e).rxq = b.rxq := rfl
@[simp] theorem raise_txq (b : Block) (e : Event) : (b.raise e).txq = b.txq := rfl
@[simp] theorem raise_rdr (b : Block) (e : Event) : (b.raise e).rdr = b.rdr := rfl
@[simp] theorem raise_rxc (b : Block) (e : Event) : (b.raise e).rxc = b.rxc := rfl
@[simp] theorem raise_tdr (b : Block) (e : Event) : (b.raise e).tdr = b.tdr := rfl
@[simp] theorem raise_txrdy (b : Block) (e : Event) : (b.raise e).txrdy = b.txrdy := rfl
@[simp] theorem raise_rxie (b : Block) (e : Event) : (b.raise e).rxie = b.rxie := rfl
@[simp] theorem raise_txie (b : Block) (e : Event) : (b.raise e).txie = b.txie := rfl
@[simp] theorem raise_baud (b : Block) (e : Event) : (b.raise e).baud = b.baud := rfl
@[simp] theorem raise_parser (b : Block) (e : Event) : (b.raise e).parser = b.parser := rfl
@[simp] theorem raise_estage (b : Block) (e : Event) : (b.raise e).estage = b.estage := rfl
@[simp] theorem raise_elink (b : Block) (e : Event) : (b.raise e).elink = b.elink := rfl
@[simp] theorem raise_elen (b : Block) (e : Event) : (b.raise e).elen = b.elen := rfl
@[simp] theorem raise_eidx (b : Block) (e : Event) : (b.raise e).eidx = b.eidx := rfl
@[simp] theorem raise_epay (b : Block) (e : Event) : (b.raise e).epay = b.epay := rfl
@[simp] theorem raise_wireOut (b : Block) (e : Event) : (b.raise e).wireOut = b.wireOut := rfl

@[simp] theorem setParser_parser (b : Block) (p : Parser) : (b.setParser p).parser = some p := rfl
@[simp] theorem setParser_port (b : Block) (p : Parser) : (b.setParser p).port = b.port := rfl
@[simp] theorem setParser_rxq (b : Block) (p : Parser) : (b.setParser p).rxq = b.rxq := rfl
@[simp] theorem setParser_txq (b : Block) (p : Parser) : (b.setParser p).txq = b.txq := rfl
@[simp] theorem setParser_rdr (b : Block) (p : Parser) : (b.setParser p).rdr = b.rdr := rfl
@[simp] theorem setParser_rxc (b : Block) (p : Parser) : (b.setParser p).rxc = b.rxc := rfl
@[simp] theorem setParser_tdr (b : Block) (p : Parser) : (b.setParser p).tdr = b.tdr := rfl
@[simp] theorem setParser_txrdy (b : Block) (p : Parser) : (b.setParser p).txrdy = b.txrdy := rfl
@[simp] theorem setParser_rxie (b : Block) (p : Parser) : (b.setParser p).rxie = b.rxie := rfl
@[simp] theorem setParser_txie (b : Block) (p : Parser) : (b.setParser p).txie = b.txie := rfl
@[simp] theorem setParser_baud (b : Block) (p : Parser) : (b.setParser p).baud = b.baud := rfl
@[simp] theorem setParser_err (b : Block) (p : Parser) : (b.setParser p).err = b.err := rfl
@[simp] theorem setParser_estage (b : Block) (p : Parser) : (b.setParser p).estage = b.estage := rfl
@[simp] theorem setParser_elink (b : Block) (p : Parser) : (b.setParser p).elink = b.elink := rfl
@[simp] theorem setParser_elen (b : Block) (p : Parser) : (b.setParser p).elen = b.elen := rfl
@[simp] theorem setParser_eidx (b : Block) (p : Parser) : (b.setParser p).eidx = b.eidx := rfl
@[simp] theorem setParser_epay (b : Block) (p : Parser) : (b.setParser p).epay = b.epay := rfl
@[simp] theorem setParser_wireOut (b : Block) (p : Parser) : (b.setParser p).wireOut = b.wireOut := rfl
@[simp] theorem setParser_evlog (b : Block) (p : Parser) : (b.setParser p).evlog = b.evlog := rfl

@[simp] theorem txPut_txq (b : Block) (v : Byte) : (b.txPut v).txq = (b.txq.push v).1 := rfl
@[simp] theorem txPut_txie (b : Block) (v : Byte) : (b.txPut v).txie = true := rfl
@[simp] theorem txPut_port (b : Block) (v : Byte) : (b.txPut v).port = b.port := rfl
@[simp] theorem txPut_rxq (b : Block) (v : Byte) : (b.txPut v).rxq = b.rxq := rfl
@[simp] theorem txPut_rdr (b : Block) (v : Byte) : (b.txPut v).rdr = b.rdr := rfl
@[simp] theorem txPut_rxc (b : Block) (v : Byte) : (b.txPut v).rxc = b.rxc := rfl
@[simp] theorem txPut_tdr (b : Block) (v : Byte) : (b.txPut v).tdr = b.tdr := rfl
@[simp] theorem txPut_txrdy (b : Block) (v : Byte) : (b.txPut v).txrdy = b.txrdy := rfl
@[simp] theorem txPut_rxie (b : Block) (v : Byte) : (b.txPut v).rxie = b.rxie := rfl
@[simp] theorem txPut_baud (b : Block) (v : Byte) : (b.txPut v).baud = b.baud := rfl
@[simp] theorem txPut_parser (b : Block) (v : Byte) : (b.txPut v).parser = b.parser := rfl
@[simp] theorem txPut_err (b : Block) (v : Byte) : (b.txPut v).err = b.err := rfl
@[simp] theorem txPut_estage (b : Block) (v : Byte) : (b.txPut v).estage = b.estage := rfl
@[simp] theorem txPut_elink (b : Block) (v : Byte) : (b.txPut v).elink = b.elink := rfl
@[simp] theorem txPut_elen (b : Block) (v : Byte) : (b.txPut v).elen = b.elen := rfl
@[simp] theorem txPut_eidx (b : Block) (v : Byte) : (b.txPut v).eidx = b.eidx := rfl
@[simp] theorem txPut_epay (b : Block) (v : Byte) : (b.txPut v).epay = b.epay := rfl
@[simp] theorem txPut_wireOut (b : Block) (v : Byte) : (b.txPut v).wireOut = b.wireOut := rfl
@[simp] theorem txPut_evlog (b : Block) (v : Byte) : (b.txPut v).evlog = b.evlog := rfl

/-! ### The queue operations -/

@[simp] theorem store_head (q : Queue) (b : Byte) : (q.store b).head = q.after q.head := rfl
@[simp] theorem store_tail (q : Queue) (b : Byte) : (q.store b).tail = q.tail := rfl
@[simp] theorem store_cap (q : Queue) (b : Byte) : (q.store b).cap = q.cap := rfl
@[simp] theorem store_buf (q : Queue) (b : Byte) : (q.store b).buf = q.buf.write q.head.toNat b := rfl
@[simp] theorem store_port (q : Queue) (b : Byte) : (q.store b).port = q.port := rfl
@[simp] theorem store_name (q : Queue) (b : Byte) : (q.store b).name = q.name := rfl
@[simp] theorem pop_head (q : Queue) : q.pop.head = q.head := rfl
@[simp] theorem pop_tail (q : Queue) : q.pop.tail = q.after q.tail := rfl
@[simp] theorem pop_cap (q : Queue) : q.pop.cap = q.cap := rfl
@[simp] theorem pop_buf (q : Queue) : q.pop.buf = q.buf := rfl
@[simp] theorem pop_port (q : Queue) : q.pop.port = q.port := rfl
@[simp] theorem pop_name (q : Queue) : q.pop.name = q.name := rfl
@[simp] theorem flush_head (q : Queue) : q.flush.head = q.head := rfl
@[simp] theorem flush_tail (q : Queue) : q.flush.tail = q.head := rfl
@[simp] theorem flush_cap (q : Queue) : q.flush.cap = q.cap := rfl
@[simp] theorem flush_buf (q : Queue) : q.flush.buf = q.buf := rfl
@[simp] theorem zero_head (q : Queue) : q.zero.head = 0#8 := rfl
@[simp] theorem zero_tail (q : Queue) : q.zero.tail = 0#8 := rfl
@[simp] theorem zero_cap (q : Queue) : q.zero.cap = q.cap := rfl
@[simp] theorem zero_buf (q : Queue) : q.zero.buf = q.buf := rfl

/-! ### The parser at the end of a frame -/

@[simp] theorem frameOver_dq (p : Parser) : p.frameOver.dq = p.dq := rfl
@[simp] theorem frameOver_pstate (p : Parser) : p.frameOver.pstate = .waitSOF := rfl
@[simp] theorem frameOver_prem (p : Parser) : p.frameOver.prem = p.prem := rfl
@[simp] theorem frameOver_plink (p : Parser) : p.frameOver.plink = p.plink := rfl
@[simp] theorem frameOver_plinkv (p : Parser) : p.frameOver.plinkv = p.plinkv := rfl
@[simp] theorem frameOver_ptrail (p : Parser) : p.frameOver.ptrail = trailerOf p.plink := rfl
@[simp] theorem frameOver_ptrailv (p : Parser) : p.frameOver.ptrailv = true := rfl

end Sys2Proof.Machine
end

