-- ==== Sys2Proof/Laws/Queue.lean ====
section
/-! SUPPORT. The ByteQueue primitives: what each can do, and that each keeps a queue in order (20_memory.md R62 to R67, R77). -/

namespace Sys2Proof.Machine

theorem Queue.after_toNat (q : Queue) (i : BitVec 8) (h : q.Ok) : (q.after i).toNat = (i.toNat + 1) % q.cap := by
  have h1 : (i.toNat + 1) % q.cap < q.cap := Nat.mod_lt _ (by omega)
  simp only [Queue.after, BitVec.toNat_ofNat]
  exact Nat.mod_eq_of_lt (by omega)

theorem Queue.after_lt (q : Queue) (i : BitVec 8) (h : q.Ok) : (q.after i).toNat < q.cap := by
  rw [q.after_toNat i h]; exact Nat.mod_lt _ (by omega)

/-- (i + 1) mod C is i + 1, or 0 where that is C (R77). -/
theorem Queue.after_cases (q : Queue) (i : BitVec 8) (h : q.Ok) (hi : i.toNat < q.cap) :
    (i.toNat + 1 < q.cap ∧ (q.after i).toNat = i.toNat + 1) ∨ (i.toNat + 1 = q.cap ∧ (q.after i).toNat = 0) := by
  rw [q.after_toNat i h]
  by_cases e : i.toNat + 1 < q.cap
  · exact .inl ⟨e, Nat.mod_eq_of_lt e⟩
  · have e' : i.toNat + 1 = q.cap := by omega
    exact .inr ⟨e', by rw [e']; exact Nat.mod_self _⟩

/-- occ(Q) by its two cases, as arithmetic (R62). -/
theorem Queue.occ_cases (q : Queue) :
    (q.tail.toNat ≤ q.head.toNat ∧ q.occ = q.head.toNat - q.tail.toNat) ∨
    (q.head.toNat < q.tail.toNat ∧ q.occ = q.head.toNat + q.cap - q.tail.toNat) := by
  unfold Queue.occ
  split <;> omega

/-- occ(Q) is at most C - 1 (R62, R42 item 2). -/
theorem Queue.occ_lt (q : Queue) (h : q.Ok) : q.occ < q.cap := by
  obtain ⟨_, h1, h2, _⟩ := h
  unfold Queue.occ
  split <;> omega

theorem Queue.occ_eq_zero_iff (q : Queue) (h : q.Ok) : q.occ = 0 ↔ q.head = q.tail := by
  obtain ⟨_, h1, h2, _⟩ := h
  rw [BitVec.toNat_eq]
  unfold Queue.occ
  split <;> omega

theorem Queue.empty_iff (q : Queue) : q.empty = true ↔ q.head = q.tail := by simp [Queue.empty]

theorem Queue.full_iff (q : Queue) : q.full = true ↔ q.after q.head = q.tail := by simp [Queue.full]

/-- A full queue holds C - 1 bytes (R63). -/
theorem Queue.full_iff_occ (q : Queue) (h : q.Ok) : q.full = true ↔ q.occ + 1 = q.cap := by
  obtain ⟨hc, h1, h2, h3⟩ := h
  have hq : q.Ok := ⟨hc, h1, h2, h3⟩
  have ha := q.after_cases q.head hq h1
  rw [Queue.full_iff, BitVec.toNat_eq]
  unfold Queue.occ
  split <;> omega

/-- push answers one of two things (R65). -/
theorem Queue.push_cases (q : Queue) (b : Byte) :
    (q.full = true ∧ q.push b = (q, false)) ∨ (q.full = false ∧ q.push b = (q.store b, true)) := by
  unfold Queue.push
  cases h : q.full <;> simp

@[simp] theorem Queue.push_full {q : Queue} (h : q.full = true) (b : Byte) : q.push b = (q, false) := by
  simp [Queue.push, h]

@[simp] theorem Queue.push_room {q : Queue} (h : q.full = false) (b : Byte) : q.push b = (q.store b, true) := by
  simp [Queue.push, h]

theorem Queue.store_ok (q : Queue) (b : Byte) (h : q.Ok) : (q.store b).Ok :=
  ⟨h.1, q.after_lt q.head h, h.2.2.1, Memory.wf_write _ _ _ h.2.2.2.1, Memory.within_write _ b h.2.1 h.2.2.2.2⟩

theorem Queue.push_ok (q : Queue) (b : Byte) (h : q.Ok) : (q.push b).1.Ok := by
  rcases q.push_cases b with ⟨_, e⟩ | ⟨_, e⟩ <;> rw [e]
  · exact h
  · exact q.store_ok b h

theorem Queue.pop_ok (q : Queue) (h : q.Ok) : q.pop.Ok := ⟨h.1, h.2.1, q.after_lt q.tail h, h.2.2.2⟩

theorem Queue.flush_ok (q : Queue) (h : q.Ok) : q.flush.Ok := ⟨h.1, h.2.1, h.2.1, h.2.2.2⟩

theorem Queue.zero_ok (q : Queue) (h : q.Ok) : q.zero.Ok := ⟨h.1, by simp; omega, by simp; omega, h.2.2.2⟩

theorem Queue.powerOn_ok (port : Nat) (name : BufName) (cap : Nat) (h : 2 ≤ cap ∧ cap ≤ 256) :
    (Queue.powerOn port name cap).Ok :=
  ⟨h, by simp [Queue.powerOn]; omega, by simp [Queue.powerOn]; omega, rfl, rfl⟩

/-- The slot a push stores in reads the byte, every other slot reads as before (R64, R65). -/
theorem Queue.store_slot (q : Queue) (b : Byte) (i : Nat) :
    (q.store b).slot i = if i = q.head.toNat then b else q.slot i := by
  unfold Queue.slot
  split
  · rename_i e; subst e; simp [Memory.read_write_same]
  · rename_i e; simp [Memory.read_write_other _ _ e]

/-! ### The live bytes -/

/-- As many bytes are live as occ(Q) says (R62). -/
theorem Queue.live_length (q : Queue) : q.live.length = q.occ := by simp [Queue.live]

/-- A push into a queue with room adds one to occ(Q) (R62, R65). -/
theorem Queue.store_occ (q : Queue) (b : Byte) (h : q.Ok) (hf : q.full = false) : (q.store b).occ = q.occ + 1 := by
  have hc := q.after_cases q.head h h.2.1
  have hne : ¬ (q.after q.head).toNat = q.tail.toNat := by
    rw [← BitVec.toNat_eq, ← Queue.full_iff]; simp [hf]
  obtain ⟨_, h1, h2, _⟩ := h
  have o1 := q.occ_cases
  have o2 := (q.store b).occ_cases
  simp only [store_head, store_tail, store_cap] at o2
  omega

/-- No live byte lies in the slot at head (R62). -/
theorem Queue.peek_slot_ne_head (q : Queue) (i : Nat) (h : q.Ok) (hi : i < q.occ) : (q.tail.toNat + i) % q.cap ≠ q.head.toNat := by
  obtain ⟨_, h1, h2, _⟩ := h
  unfold Queue.occ at hi
  by_cases e : q.tail.toNat + i < q.cap
  · rw [Nat.mod_eq_of_lt e]; split at hi <;> omega
  · have : (q.tail.toNat + i) % q.cap = q.tail.toNat + i - q.cap := by
      rw [Nat.mod_eq_sub_mod (by omega)]; apply Nat.mod_eq_of_lt; split at hi <;> omega
    rw [this]; split at hi <;> omega

/-- head is occ(Q) slots after tail (R62). -/
theorem Queue.peek_slot_occ (q : Queue) (h : q.Ok) : (q.tail.toNat + q.occ) % q.cap = q.head.toNat := by
  obtain ⟨_, h1, h2, _⟩ := h
  unfold Queue.occ
  split
  · rw [Nat.add_sub_cancel' (by omega)]; exact Nat.mod_eq_of_lt h1
  · have : q.tail.toNat + (q.head.toNat + q.cap - q.tail.toNat) = q.head.toNat + q.cap := by omega
    rw [this, Nat.add_mod_right]; exact Nat.mod_eq_of_lt h1

/-- A push into a queue with room adds its byte at the end (R65, R74). -/
theorem Queue.live_store (q : Queue) (b : Byte) (h : q.Ok) (hf : q.full = false) : (q.store b).live = q.live ++ [b] := by
  unfold Queue.live
  rw [Queue.store_occ q b h hf, List.range_succ, List.map_append]
  congr 1
  · apply List.map_congr_left
    intro i hi
    simp only [List.mem_range] at hi
    simp only [Queue.peek, store_tail, store_cap]
    rw [Queue.store_slot, if_neg (Queue.peek_slot_ne_head q i h hi)]
  · simp only [List.map_cons, List.map_nil, Queue.peek, store_tail, store_cap]
    rw [Queue.store_slot, if_pos (Queue.peek_slot_occ q h)]

/-- A pop takes one from occ(Q) (R62, R66). -/
theorem Queue.pop_occ (q : Queue) (h : q.Ok) (hne : q.head ≠ q.tail) : q.pop.occ + 1 = q.occ := by
  have hc := q.after_cases q.tail h h.2.2.1
  have hne : ¬ q.head.toNat = q.tail.toNat := by rw [← BitVec.toNat_eq]; exact hne
  obtain ⟨_, h1, h2, _⟩ := h
  have o1 := q.occ_cases
  have o2 := q.pop.occ_cases
  simp only [pop_head, pop_tail, pop_cap] at o2
  omega

/-- A pop takes the oldest byte (R66, R74). -/
theorem Queue.live_pop (q : Queue) (h : q.Ok) (hne : q.head ≠ q.tail) : q.live = q.front :: q.pop.live := by
  unfold Queue.live
  rw [← Queue.pop_occ q h hne, List.range_succ_eq_map, List.map_cons, List.map_map]
  congr 1
  · simp [Queue.front, Queue.peek, Nat.mod_eq_of_lt h.2.2.1]
  · apply List.map_congr_left
    intro i hi
    simp only [Queue.peek, Function.comp, pop_tail, pop_cap]
    have : (q.tail.toNat + (i+1)) % q.cap = ((q.after q.tail).toNat + i) % q.cap := by
      rw [q.after_toNat _ h, Nat.mod_add_mod]; congr 1; omega
    simp only [Nat.succ_eq_add_one, this]; rfl

end Sys2Proof.Machine
end

