-- ==== Sys2Proof/Laws/Ops.lean ====
section
/-! SUPPORT. What each shared operation can answer, said once: the foreground's operations, the events, the encoder's stages,
the parser's steps, and PARSE. -/

namespace Sys2Proof.Machine

/-! ### Foreground operations -/

@[simp] theorem operate_idle {s : State} (h : s.fgst = .idle) (op : Option HeldOp) (body : State → Answer) :
    s.operate op body = body s := by
  simp [State.operate, State.fgReady, h]

@[simp] theorem operate_held {s : State} {op : HeldOp} (h : s.fgst = .hold s.portNo op) (body : State → Answer) :
    s.operate (some op) body = body s := by
  simp [State.operate, State.fgReady, h]

/-- A foreground operation that cannot be taken changes nothing. -/
theorem operate_busy {s : State} {op : Option HeldOp} (h : s.fgReady op = false) (body : State → Answer) :
    s.operate op body = .next s := by
  simp [State.operate, h]

/-- A foreground operation either runs its body or changes nothing. -/
theorem operate_cases (s : State) (op : Option HeldOp) (body : State → Answer) :
    (s.fgReady op = true ∧ s.operate op body = body s) ∨ (s.fgReady op = false ∧ s.operate op body = .next s) := by
  unfold State.operate
  cases h : s.fgReady op <;> simp

theorem fgReady_none {s : State} : s.fgReady none = true ↔ s.fgst = .idle := by
  unfold State.fgReady
  cases s.fgst <;> simp

theorem fgReady_some {s : State} {op : HeldOp} :
    s.fgReady (some op) = true ↔ s.fgst = .idle ∨ s.fgst = .hold s.portNo op := by
  unfold State.fgReady
  cases h : s.fgst with
  | idle => simp
  | hold k held => simp [eq_comm (a := op)]
  | encode k => simp

@[simp] theorem withParser_some {s : State} {p : Parser} (h : s.blk.parser = some p) (body : Parser → Answer) :
    s.withParser body = body p := by
  simp [State.withParser, h]

@[simp] theorem withParser_none {s : State} (h : s.blk.parser = none) (body : Parser → Answer) :
    s.withParser body = s.refuse .noParser := by
  simp [State.withParser, h]

/-- An operation that needs the parser is refused where there is none, and runs on the parser where there is one. -/
theorem withParser_cases (s : State) (body : Parser → Answer) :
    (s.blk.parser = none ∧ s.withParser body = s.refuse .noParser) ∨
    (∃ p, s.blk.parser = some p ∧ s.withParser body = body p) := by
  unfold State.withParser
  cases h : s.blk.parser <;> simp

/-! ### Events, stages, parser steps -/

/-- An event step updates the block when it is enabled, and changes nothing otherwise. -/
theorem event_cases (s : State) (enabled : Bool) (f : Block → Block) :
    (enabled = true ∧ s.event enabled f = .next (s.setBlk (f s.blk))) ∨ (enabled = false ∧ s.event enabled f = .next s) := by
  cases enabled <;> simp [State.event]

/-- A stage step pushes and moves on, or changes nothing. -/
theorem stagePut_cases (s : State) (st : Stage) (v : Byte) (after : State → State) :
    (s.fgst = .encode s.portNo ∧ s.blk.estage = st ∧ s.blk.txq.full = false ∧
      s.stagePut st v after = .next (after (s.setBlk (s.blk.txPut v)))) ∨
    s.stagePut st v after = .next s := by
  unfold State.stagePut
  split
  · rename_i h
    cases hf : s.blk.txq.full
    · exact .inl ⟨h.1, h.2, rfl, by simp⟩
    · exact .inr (by simp)
  · exact .inr rfl

/-- A parser step runs its class where PSTATE and the byte select it, or changes nothing. -/
theorem parserStep_cases (s : State) (k : ByteClass) (c : Byte) (f : Block → Parser → Block) :
    (∃ p, s.blk.parser = some p ∧ classify p.pstate c = k ∧ s.parserStep k c f = .next (s.setBlk (f s.blk p))) ∨
    s.parserStep k c f = .next s := by
  unfold State.parserStep
  cases hp : s.blk.parser with
  | none => exact .inr rfl
  | some p =>
    by_cases hk : classify p.pstate c = k
    · exact .inl ⟨p, rfl, hk, by simp [hk]⟩
    · exact .inr (by simp [hk])

/-! ### PARSE -/

/-- What the check of WaitSOF can do: raise FrmErr, or nothing (R180). -/
theorem trailerCheck_cases (b : Block) (p : Parser) (c : Byte) :
    (p.frmErrDue c = true ∧ b.trailerCheck p c = b.raise (.frmErr c)) ∨ (p.frmErrDue c = false ∧ b.trailerCheck p c = b) := by
  unfold Block.trailerCheck
  cases p.frmErrDue c <;> simp

/-- PARSE of a byte is the rule its class names; a block without a parser is left as it is (R185). -/
theorem parse_cases (b : Block) (c : Byte) :
    (b.parser = none ∧ b.parse c = b) ∨
    ∃ p, b.parser = some p ∧
      ((classify p.pstate c = .sof ∧ b.parse c = b.parseSof p) ∨
       (classify p.pstate c = .skip ∧ b.parse c = b.parseSkip c p) ∨
       (classify p.pstate c = .link ∧ b.parse c = b.parseLink c p) ∨
       (classify p.pstate c = .flags ∧ b.parse c = b.parseFlags p) ∨
       (classify p.pstate c = .len0 ∧ b.parse c = b.parseLen0 p) ∨
       (classify p.pstate c = .lenN ∧ b.parse c = b.parseLenN c p) ∨
       (classify p.pstate c = .data ∧ b.parse c = b.parseData c p)) := by
  unfold Block.parse
  cases hp : b.parser with
  | none => exact .inl ⟨rfl, rfl⟩
  | some p =>
    refine .inr ⟨p, rfl, ?_⟩
    cases hk : classify p.pstate c <;> simp [hk]

/-- A payload byte is counted whether or not it is stored (R184). -/
theorem parseData_cases (c : Byte) (b : Block) (p : Parser) :
    ∃ b' q, ((p.dq.full = false ∧ b' = b ∧ q = p.dq.store c) ∨ (p.dq.full = true ∧ b' = b.raise (.dqDrop c) ∧ q = p.dq)) ∧
      ((p.prem = 1#8 ∧ b.parseData c p = b'.setParser { p with dq := q, prem := 0#8 }.frameOver) ∨
       (p.prem ≠ 1#8 ∧ b.parseData c p = b'.setParser { p with dq := q, prem := p.prem - 1#8 })) := by
  unfold Block.parseData
  rcases p.dq.push_cases c with ⟨hf, e⟩ | ⟨hf, e⟩ <;> by_cases h1 : p.prem = 1#8
  · exact ⟨_, _, .inr ⟨hf, rfl, rfl⟩, .inl ⟨h1, by simp [e, h1]⟩⟩
  · exact ⟨_, _, .inr ⟨hf, rfl, rfl⟩, .inr ⟨h1, by simp [e, h1]⟩⟩
  · exact ⟨_, _, .inl ⟨hf, rfl, rfl⟩, .inl ⟨h1, by simp [e, h1]⟩⟩
  · exact ⟨_, _, .inl ⟨hf, rfl, rfl⟩, .inr ⟨h1, by simp [e, h1]⟩⟩

/-! ### The handlers -/

/-- The push of the receive handler stores the byte, or drops it with RxqDrop (R125). -/
theorem rxPush_cases (b : Block) :
    (b.rxq.full = false ∧ b.rxPush = { b with rxc := false, rxq := b.rxq.store b.rdr }) ∨
    (b.rxq.full = true ∧ b.rxPush = ({ b with rxc := false } : Block).raise (.rxqDrop b.rdr)) := by
  unfold Block.rxPush
  rcases b.rxq.push_cases b.rdr with ⟨hf, e⟩ | ⟨hf, e⟩
  · exact .inr ⟨hf, by simp [e]⟩
  · exact .inl ⟨hf, by simp [e]⟩

/-- The transmit handler turns itself off on an empty queue, or loads TDR (R126). -/
theorem txHandler_cases (b : Block) :
    (b.txq.empty = true ∧ b.txHandler = { b with txie := false }) ∨
    (b.txq.empty = false ∧ b.txHandler = { b with tdr := b.txq.front, txq := b.txq.pop, txrdy := false }) := by
  unfold Block.txHandler
  cases b.txq.empty <;> simp

/-- The line's byte waits in RDR, or is lost with LineOvr (R124). -/
theorem lineDelivers_cases (c : Byte) (b : Block) :
    (b.rxc = false ∧ b.lineDelivers c = { b with rdr := c, rxc := true }) ∨
    (b.rxc = true ∧ b.lineDelivers c = b.raise (.lineOvr c)) := by
  unfold Block.lineDelivers
  cases b.rxc <;> simp

/-! ### The enabling vectors -/

theorem rxVector_enabled (s : State) : s.rxVector &&& 0b111#3 = 0b111#3 ↔ s.rxEnabled = true := by
  unfold State.rxVector State.rxEnabled
  cases s.gie <;> cases s.blk.rxie <;> cases s.blk.rxc <;> decide

theorem txVector_enabled (s : State) : s.txVector &&& 0b111#3 = 0b111#3 ↔ s.txEnabled = true := by
  unfold State.txVector State.txEnabled
  cases s.gie <;> cases s.blk.txie <;> cases s.blk.txrdy <;> decide

theorem outVector_enabled (s : State) : s.outVector &&& 0b1#1 = 0b0#1 ↔ s.outEnabled = true := by
  unfold State.outVector State.outEnabled
  cases s.blk.txrdy <;> decide

end Sys2Proof.Machine
end

