-- ==== Sys2Proof/Laws/Exec.lean ====
section
/-! SUPPORT. Everything an instruction can do, said once: what every instruction leaves alone (`ExecFrame`) and what it can do
to its block and to FGST (`ExecEffect`). Claims about all instructions follow from `exec_cases` without unfolding a meaning. -/

namespace Sys2Proof.Machine

/-- What every instruction leaves as it is, and the histories it only adds to. -/
structure ExecFrame (i : Instr) (s t : State) : Prop where
  below : t.below = s.below
  above : t.above = s.above
  program : t.program = s.program
  tick : t.tick = s.tick
  refusals : s.refusals <+: t.refusals
  results : s.results <+: t.results
  gie : i ≠ .irqOff → i ≠ .irqOn → t.gie = s.gie

/-- What an instruction other than ENCODE and the stages can do to FGST. -/
def FgMove (s t : State) : Prop :=
  t.fgst = s.fgst ∨ ((∀ k, s.fgst ≠ .encode k) ∧ (t.fgst = .idle ∨ ∃ op, t.fgst = .hold s.portNo op))

/-- A stage before the trailer: the byte it pushes, the stage it goes to, and EIDX after it (R161 to R165). -/
def StageMove (i : Instr) (b : Block) (v : Byte) (st : Stage) (eidx : Byte) : Prop :=
  (i = .eSof ∧ b.estage = .sof ∧ v = sofByte ∧ st = .link ∧ eidx = b.eidx) ∨
  (i = .eLink ∧ b.estage = .link ∧ v = b.elink ∧ st = .flags ∧ eidx = b.eidx) ∨
  (i = .eFlags ∧ b.estage = .flags ∧ v = 0#8 ∧ st = .len ∧ eidx = b.eidx) ∨
  (i = .eLen ∧ b.estage = .len ∧ v = b.elen ∧ st = (if b.elen = 0#8 then .trl else .pay) ∧ eidx = b.eidx) ∨
  (i = .ePay ∧ b.estage = .pay ∧ v = b.epaySlot b.eidx.toNat ∧ st = (if b.eidx + 1#8 = b.elen then .trl else .pay) ∧
    eidx = b.eidx + 1#8)

/-- What an instruction does to its block and to FGST. -/
inductive ExecEffect (i : Instr) (s t : State) : Prop
  | quiet : t.blk = s.blk → FgMove s t → ExecEffect i s t
  | init (baud) : i = .init baud → FgMove s t → t.blk = s.blk.initialise baud → ExecEffect i s t
  | put (b) : i = .put b → s.blk.txq.full = false → FgMove s t → t.blk = s.blk.txPut b → ExecEffect i s t
  | get : i = .get → s.blk.parser = none → s.blk.rxq.empty = false → FgMove s t →
      t.blk = { s.blk with rxq := s.blk.rxq.pop } → ExecEffect i s t
  | dqGet (p) : i = .dqGet → s.blk.parser = some p → p.dq.empty = false → FgMove s t →
      t.blk = s.blk.setParser { p with dq := p.dq.pop } → ExecEffect i s t
  | dqClear (p) : i = .dqClear → s.blk.parser = some p → FgMove s t →
      t.blk = s.blk.setParser { p with dq := p.dq.flush } → ExecEffect i s t
  | lineIn (b) : i = .lineIn b → t.fgst = s.fgst → t.blk = s.blk.lineDelivers b → ExecEffect i s t
  | rx : i = .rxIsr → s.rxEnabled = true → t.fgst = s.fgst → t.blk = s.blk.rxHandler → ExecEffect i s t
  | tx : i = .txIsr → s.txEnabled = true → t.fgst = s.fgst → t.blk = s.blk.txHandler → ExecEffect i s t
  | lout : i = .lineOut → s.outEnabled = true → t.fgst = s.fgst → t.blk = s.blk.lineTakes → ExecEffect i s t
  | parse (c p) : s.blk.parser = some p → i = (classify p.pstate c).instr c → t.fgst = s.fgst → t.blk = s.blk.parse c →
      ExecEffect i s t
  | encode (l pl) : i = .encode l pl → pl.length ≤ 255 → s.fgst = .idle → t.fgst = .encode s.portNo →
      t.blk = s.blk.latchFrame l pl → ExecEffect i s t
  | stage (v st i') : s.fgst = .encode s.portNo → s.blk.txq.full = false →
      StageMove i s.blk v st i' →
      t.fgst = s.fgst → t.blk = { s.blk.txPut v with estage := st, eidx := i' } → ExecEffect i s t
  | trl : s.fgst = .encode s.portNo → s.blk.txq.full = false → i = .eTrl → s.blk.estage = .trl →
      t.fgst = .idle → t.blk = { s.blk.txPut (trailerOf s.blk.elink) with estage := .idle } → ExecEffect i s t

theorem fgReady_not_encode {s : State} {op : Option HeldOp} (h : s.fgReady op = true) : ∀ k, s.fgst ≠ .encode k := by
  intro k e
  simp [State.fgReady, e] at h

theorem execFrame_refl (i : Instr) (s : State) : ExecFrame i s s :=
  ⟨rfl, rfl, rfl, rfl, List.prefix_rfl, List.prefix_rfl, fun _ _ => rfl⟩

/-- A byte class as a step is PARSE of its byte, or changes nothing. -/
theorem parserStep_effect {s t : State} {i : Instr} {k : ByteClass} {c : Byte} {f : Block → Parser → Block}
    (hi : i = k.instr c)
    (hf : ∀ p, s.blk.parser = some p → classify p.pstate c = k → f s.blk p = s.blk.parse c)
    (h : s.parserStep k c f = .next t) : ExecFrame i s t ∧ ExecEffect i s t := by
  rcases parserStep_cases s k c f with ⟨p, hp, hk, e⟩ | e <;> rw [e, Host.Outcome.next.injEq] at h <;> subst h
  · exact ⟨⟨rfl, rfl, rfl, rfl, List.prefix_rfl, List.prefix_rfl, fun _ _ => rfl⟩, .parse c p hp (by rw [hk]; exact hi) rfl (hf p hp hk)⟩
  · exact ⟨execFrame_refl _ _, .quiet rfl (.inl rfl)⟩

/-- Everything an instruction can do when it answers a next state. -/
theorem exec_cases {i : Instr} {s t : State} (h : exec i s = .next t) : ExecFrame i s t ∧ ExecEffect i s t := by
  have F0 : ∀ b f sc, ExecFrame i s { s with blk := b, fgst := f, script := sc } := fun _ _ _ =>
    ⟨rfl, rfl, rfl, rfl, List.prefix_rfl, List.prefix_rfl, fun _ _ => rfl⟩
  have F1 : ∀ b f r, ExecFrame i s { s with blk := b, fgst := f, results := s.results ++ [r] } := fun _ _ _ =>
    ⟨rfl, rfl, rfl, rfl, List.prefix_rfl, List.prefix_append _ _, fun _ _ => rfl⟩
  have F2 : ∀ r, ExecFrame i s { s with refusals := s.refusals ++ [r] } := fun _ =>
    ⟨rfl, rfl, rfl, rfl, List.prefix_append _ _, List.prefix_rfl, fun _ _ => rfl⟩
  have Q : ∀ {t : State} {op}, s.fgReady op = true → t.blk = s.blk → (t.fgst = .idle ∨ (∃ o, t.fgst = .hold s.portNo o) ∨ t.fgst = s.fgst) → ExecEffect i s t := by
    intro t op hr hb hm
    refine .quiet hb ?_
    rcases hm with h | h | h
    · exact .inr ⟨fgReady_not_encode hr, .inl h⟩
    · exact .inr ⟨fgReady_not_encode hr, .inr h⟩
    · exact .inl h
  have P : ExecEffect i s s := .quiet rfl (.inl rfl)
  cases i with
  | init baud =>
    rcases operate_cases s none _ with ⟨hr, e⟩ | ⟨hr, e⟩ <;> rw [exec, execInit, e] at h <;> simp at h <;> subst h
    · exact ⟨F0 _ _ _, .init baud rfl (.inr ⟨fgReady_not_encode hr, .inl rfl⟩) rfl⟩
    · exact ⟨execFrame_refl _ _, P⟩
  | put b =>
    rcases operate_cases s (some (.put b)) _ with ⟨hr, e⟩ | ⟨hr, e⟩ <;> rw [exec, execPut, e] at h
    · split at h <;> simp [State.hold] at h <;> subst h
      · exact ⟨F0 _ _ _, Q hr rfl (.inr (.inl ⟨_, rfl⟩))⟩
      · rename_i hf; exact ⟨F0 _ _ _, .put b rfl (by simpa using hf) (.inr ⟨fgReady_not_encode hr, .inl rfl⟩) rfl⟩
    · simp at h; subst h; exact ⟨execFrame_refl _ _, P⟩
  | get =>
    rcases operate_cases s (some .get) _ with ⟨hr, e⟩ | ⟨hr, e⟩ <;> rw [exec, execGet, e] at h
    · split at h
      · simp [State.refuse] at h; subst h
        exact ⟨F2 _, Q hr rfl (.inr (.inr rfl))⟩
      · split at h <;> simp [State.hold] at h <;> subst h
        · exact ⟨F0 _ _ _, Q hr rfl (.inr (.inl ⟨_, rfl⟩))⟩
        · rename_i hn he
          exact ⟨F1 _ _ _, .get rfl (by simpa using hn) (by simpa using he) (.inr ⟨fgReady_not_encode hr, .inl rfl⟩) rfl⟩
    · simp at h; subst h; exact ⟨execFrame_refl _ _, P⟩
  | avail =>
    rcases operate_cases s none _ with ⟨hr, e⟩ | ⟨hr, e⟩ <;> rw [exec, execAvail, e] at h <;> simp at h <;> subst h
    · exact ⟨F1 _ _ _, Q hr rfl (.inl rfl)⟩
    · exact ⟨execFrame_refl _ _, P⟩
  | encode l pl =>
    by_cases hl : pl.length ≤ 255
    · simp only [exec, execEncode, payloadFits, hl, decide_true, if_true] at h
      rcases operate_cases s none (fun s => .next { s.setBlk (s.blk.latchFrame l pl) with fgst := .encode s.portNo }) with ⟨hr, e⟩ | ⟨hr, e⟩ <;> rw [e] at h <;> simp at h <;> subst h
      · exact ⟨F0 _ _ _, .encode l pl rfl hl (fgReady_none.1 hr) rfl rfl⟩
      · exact ⟨execFrame_refl _ _, P⟩
    · simp [exec, execEncode, payloadFits, hl] at h
  | dqClear =>
    rcases operate_cases s none _ with ⟨hr, e⟩ | ⟨hr, e⟩ <;> rw [exec, execDqClear, e] at h
    · rcases withParser_cases s _ with ⟨hp, e⟩ | ⟨p, hp, e⟩ <;> rw [e] at h <;> simp [State.refuse] at h <;> subst h
      · exact ⟨F2 _, Q hr rfl (.inr (.inr rfl))⟩
      · exact ⟨F0 _ _ _, .dqClear p rfl hp (.inr ⟨fgReady_not_encode hr, .inl rfl⟩) rfl⟩
    · simp at h; subst h; exact ⟨execFrame_refl _ _, P⟩
  | dqAvail =>
    rcases operate_cases s none _ with ⟨hr, e⟩ | ⟨hr, e⟩ <;> rw [exec, execDqAvail, e] at h
    · rcases withParser_cases s _ with ⟨hp, e⟩ | ⟨p, hp, e⟩ <;> rw [e] at h <;> simp [State.refuse] at h <;> subst h
      · exact ⟨F2 _, Q hr rfl (.inr (.inr rfl))⟩
      · exact ⟨F1 _ _ _, Q hr rfl (.inl rfl)⟩
    · simp at h; subst h; exact ⟨execFrame_refl _ _, P⟩
  | dqGet =>
    rcases operate_cases s (some .dqGet) _ with ⟨hr, e⟩ | ⟨hr, e⟩ <;> rw [exec, execDqGet, e] at h
    · rcases withParser_cases s _ with ⟨hp, e⟩ | ⟨p, hp, e⟩ <;> rw [e] at h
      · simp [State.refuse] at h; subst h
        exact ⟨F2 _, Q hr rfl (.inr (.inr rfl))⟩
      · split at h <;> simp [State.hold] at h <;> subst h
        · exact ⟨F0 _ _ _, Q hr rfl (.inr (.inl ⟨_, rfl⟩))⟩
        · rename_i he
          exact ⟨F1 _ _ _, .dqGet p rfl hp (by simpa using he) (.inr ⟨fgReady_not_encode hr, .inl rfl⟩) rfl⟩
    · simp at h; subst h; exact ⟨execFrame_refl _ _, P⟩
  | dqPeek k =>
    rcases operate_cases s none _ with ⟨hr, e⟩ | ⟨hr, e⟩ <;> rw [exec, execDqPeek, e] at h
    · rcases withParser_cases s _ with ⟨hp, e⟩ | ⟨p, hp, e⟩ <;> rw [e] at h
      · simp [State.refuse] at h; subst h
        exact ⟨F2 _, Q hr rfl (.inr (.inr rfl))⟩
      · split at h <;> simp [State.refuse] at h <;> subst h
        · exact ⟨F2 _, Q hr rfl (.inr (.inr rfl))⟩
        · exact ⟨F1 _ _ _, Q hr rfl (.inl rfl)⟩
    · simp at h; subst h; exact ⟨execFrame_refl _ _, P⟩
  | rdErr =>
    rcases operate_cases s none _ with ⟨hr, e⟩ | ⟨hr, e⟩ <;> rw [exec, execRdErr, e] at h <;> simp at h <;> subst h
    · exact ⟨F1 _ _ _, Q hr rfl (.inl rfl)⟩
    · exact ⟨execFrame_refl _ _, P⟩
  | rdPstate =>
    rcases operate_cases s none _ with ⟨hr, e⟩ | ⟨hr, e⟩ <;> rw [exec, execRdPstate, e] at h
    · rcases withParser_cases s _ with ⟨hp, e⟩ | ⟨p, hp, e⟩ <;> rw [e] at h <;> simp [State.refuse] at h <;> subst h
      · exact ⟨F2 _, Q hr rfl (.inr (.inr rfl))⟩
      · exact ⟨F1 _ _ _, Q hr rfl (.inl rfl)⟩
    · simp at h; subst h; exact ⟨execFrame_refl _ _, P⟩
  | rdPlink =>
    rcases operate_cases s none _ with ⟨hr, e⟩ | ⟨hr, e⟩ <;> rw [exec, execRdPlink, e] at h
    · rcases withParser_cases s _ with ⟨hp, e⟩ | ⟨p, hp, e⟩ <;> rw [e] at h <;> simp [State.refuse] at h <;> subst h
      · exact ⟨F2 _, Q hr rfl (.inr (.inr rfl))⟩
      · exact ⟨F1 _ _ _, Q hr rfl (.inl rfl)⟩
    · simp at h; subst h; exact ⟨execFrame_refl _ _, P⟩
  | rdCtl =>
    rcases operate_cases s none _ with ⟨hr, e⟩ | ⟨hr, e⟩ <;> rw [exec, execRdCtl, e] at h <;> simp at h <;> subst h
    · exact ⟨F1 _ _ _, Q hr rfl (.inl rfl)⟩
    · exact ⟨execFrame_refl _ _, P⟩
  | irqOff =>
    rcases operate_cases s none _ with ⟨hr, e⟩ | ⟨hr, e⟩ <;> rw [exec, execIrqOff, e] at h <;> simp at h <;> subst h
    · exact ⟨⟨rfl, rfl, rfl, rfl, List.prefix_rfl, List.prefix_rfl, fun h _ => absurd rfl h⟩, Q hr rfl (.inl rfl)⟩
    · exact ⟨execFrame_refl _ _, P⟩
  | irqOn =>
    rcases operate_cases s none _ with ⟨hr, e⟩ | ⟨hr, e⟩ <;> rw [exec, execIrqOn, e] at h <;> simp at h <;> subst h
    · exact ⟨⟨rfl, rfl, rfl, rfl, List.prefix_rfl, List.prefix_rfl, fun _ h => absurd rfl h⟩, Q hr rfl (.inl rfl)⟩
    · exact ⟨execFrame_refl _ _, P⟩
  | reservedF =>
    rcases operate_cases s none _ with ⟨hr, e⟩ | ⟨hr, e⟩ <;> rw [exec, execReservedF, e] at h <;> simp [State.refuse] at h <;> subst h
    · exact ⟨F2 _, Q hr rfl (.inr (.inr rfl))⟩
    · exact ⟨execFrame_refl _ _, P⟩
  | lineIn b =>
    simp [exec, execLineIn, State.event] at h; subst h
    exact ⟨F0 _ _ _, .lineIn b rfl rfl rfl⟩
  | rxIsr =>
    rcases event_cases s s.rxEnabled Block.rxHandler with ⟨hr, e⟩ | ⟨hr, e⟩ <;> rw [exec, execRxIsr, e] at h <;> simp at h <;> subst h
    · exact ⟨F0 _ _ _, .rx rfl hr rfl rfl⟩
    · exact ⟨execFrame_refl _ _, P⟩
  | txIsr =>
    rcases event_cases s s.txEnabled Block.txHandler with ⟨hr, e⟩ | ⟨hr, e⟩ <;> rw [exec, execTxIsr, e] at h <;> simp at h <;> subst h
    · exact ⟨F0 _ _ _, .tx rfl hr rfl rfl⟩
    · exact ⟨execFrame_refl _ _, P⟩
  | lineOut =>
    rcases event_cases s s.outEnabled Block.lineTakes with ⟨hr, e⟩ | ⟨hr, e⟩ <;> rw [exec, execLineOut, e] at h <;> simp at h <;> subst h
    · exact ⟨F0 _ _ _, .lout rfl hr rfl rfl⟩
    · exact ⟨execFrame_refl _ _, P⟩
  | pSof => exact parserStep_effect rfl (fun p hp hk => by simp [Block.parse, hp, hk]) h
  | pSkip b => exact parserStep_effect rfl (fun p hp hk => by simp [Block.parse, hp, hk]) h
  | pLink b => exact parserStep_effect rfl (fun p hp hk => by simp [Block.parse, hp, hk]) h
  | pFlags b => exact parserStep_effect rfl (fun p hp hk => by simp [Block.parse, hp, hk]) h
  | pLen0 => exact parserStep_effect rfl (fun p hp hk => by simp [Block.parse, hp, hk]) h
  | pLenN b => exact parserStep_effect rfl (fun p hp hk => by simp [Block.parse, hp, hk]) h
  | pData b => exact parserStep_effect rfl (fun p hp hk => by simp [Block.parse, hp, hk]) h
  | muxframe l f pl t' =>
    simp [exec, execMuxframe] at h; subst h
    exact ⟨F0 _ _ _, .quiet rfl (.inl rfl)⟩
  | eSof =>
    rcases stagePut_cases s .sof sofByte (State.goStage .link) with ⟨hr, hs, hf, e⟩ | e <;> rw [exec, execESof, e] at h <;> simp at h <;> subst h
    · exact ⟨F0 _ _ _, .stage _ _ _ hr hf (.inl ⟨rfl, hs, rfl, rfl, rfl⟩) rfl rfl⟩
    · exact ⟨execFrame_refl _ _, P⟩
  | eLink =>
    rcases stagePut_cases s .link s.blk.elink (State.goStage .flags) with ⟨hr, hs, hf, e⟩ | e <;> rw [exec, execELink, e] at h <;> simp at h <;> subst h
    · exact ⟨F0 _ _ _, .stage _ _ _ hr hf (.inr (.inl ⟨rfl, hs, rfl, rfl, rfl⟩)) rfl rfl⟩
    · exact ⟨execFrame_refl _ _, P⟩
  | eFlags =>
    rcases stagePut_cases s .flags 0#8 (State.goStage .len) with ⟨hr, hs, hf, e⟩ | e <;> rw [exec, execEFlags, e] at h <;> simp at h <;> subst h
    · exact ⟨F0 _ _ _, .stage _ _ _ hr hf (.inr (.inr (.inl ⟨rfl, hs, rfl, rfl, rfl⟩))) rfl rfl⟩
    · exact ⟨execFrame_refl _ _, P⟩
  | eLen =>
    rcases stagePut_cases s .len s.blk.elen (State.goStage (if s.blk.elen = 0#8 then .trl else .pay)) with ⟨hr, hs, hf, e⟩ | e <;> rw [exec, execELen, e] at h <;> simp at h <;> subst h
    · exact ⟨F0 _ _ _, .stage _ _ _ hr hf (.inr (.inr (.inr (.inl ⟨rfl, hs, rfl, rfl, rfl⟩)))) rfl rfl⟩
    · exact ⟨execFrame_refl _ _, P⟩
  | ePay =>
    rcases stagePut_cases s .pay (s.blk.epaySlot s.blk.eidx.toNat) State.nextPayload with ⟨hr, hs, hf, e⟩ | e <;> rw [exec, execEPay, e] at h <;> simp at h <;> subst h
    · exact ⟨F0 _ _ _, .stage _ _ _ hr hf (.inr (.inr (.inr (.inr ⟨rfl, hs, rfl, rfl, rfl⟩)))) rfl rfl⟩
    · exact ⟨execFrame_refl _ _, P⟩
  | eTrl =>
    rcases stagePut_cases s .trl (trailerOf s.blk.elink) (fun s => (s.goStage .idle).done) with ⟨hr, hs, hf, e⟩ | e <;> rw [exec, execETrl, e] at h <;> simp at h <;> subst h
    · exact ⟨F0 _ _ _, .trl hr hf rfl hs rfl rfl⟩
    · exact ⟨execFrame_refl _ _, P⟩

/-! ### Roles -/

@[simp] theorem classify_instr_role (k : ByteClass) (c : Byte) : (k.instr c).role = .byteClass := by cases k <;> rfl

/-- A stage before the trailer has the role of a stage. -/
theorem StageMove.role {i : Instr} {b : Block} {v : Byte} {st : Stage} {e : Byte} (h : StageMove i b v st e) :
    i.role = .stage := by
  rcases h with ⟨rfl, _⟩ | ⟨rfl, _⟩ | ⟨rfl, _⟩ | ⟨rfl, _⟩ | ⟨rfl, _⟩ <;> rfl

/-- Only an operation on a port and the last stage of an ENCODE move FGST (R35, R41). -/
theorem exec_fgst {i : Instr} {s t : State} (h : exec i s = .next t) (hp : i.role ≠ .port) (hl : i ≠ .eTrl) :
    t.fgst = s.fgst := by
  have ev : ∀ {en : Bool} {f : Block → Block}, s.event en f = .next t → t.fgst = s.fgst := by
    intro en f e
    rcases event_cases s en f with ⟨_, e'⟩ | ⟨_, e'⟩ <;> rw [e', Host.Outcome.next.injEq] at e <;> subst e <;> rfl
  have ps : ∀ {k : ByteClass} {c : Byte} {f : Block → Parser → Block}, s.parserStep k c f = .next t → t.fgst = s.fgst := by
    intro k c f e
    rcases parserStep_cases s k c f with ⟨_, _, _, e'⟩ | e' <;> rw [e', Host.Outcome.next.injEq] at e <;> subst e <;> rfl
  have sp : ∀ {st : Stage} {v : Byte} {f : State → State}, s.stagePut st v f = .next t →
      (∀ u, (f u).fgst = u.fgst) → t.fgst = s.fgst := by
    intro st v f e hf
    rcases stagePut_cases s st v f with ⟨_, _, _, e'⟩ | e' <;> rw [e', Host.Outcome.next.injEq] at e <;> subst e
    · exact hf _
    · rfl
  cases i <;> simp [Instr.role] at hp <;> simp only [exec] at h
  case lineIn b => exact ev h
  case rxIsr => exact ev h
  case txIsr => exact ev h
  case lineOut => exact ev h
  case muxframe l f pl tr => simp [execMuxframe] at h; subst h; rfl
  case eTrl => exact absurd rfl hl
  case eSof => exact sp h (fun _ => rfl)
  case eLink => exact sp h (fun _ => rfl)
  case eFlags => exact sp h (fun _ => rfl)
  case eLen => exact sp h (fun _ => rfl)
  case ePay => exact sp h (fun _ => rfl)
  all_goals exact ps h

end Sys2Proof.Machine
end

