-- ==== Sys2Proof/Laws/Fetch.lean ====
section
/-! SUPPORT. Choosing a block, taking a turn, fetching: what each can answer, and that none of them changes a block. -/

namespace Sys2Proof.Machine

/-- Selecting a block changes no block, and the block selected is the one numbered. -/
theorem select_spec {s t : State} {k : Nat} (h : s.select k = some t) :
    t.blocks = s.blocks ∧ t.portNo = k ∧ s.blocks[k]? = some t.blk ∧
    t = { s with below := t.below, blk := t.blk, above := t.above } := by
  unfold State.select at h
  split at h
  · exact absurd h (by simp)
  · rename_i b rest hd
    have hlt : k < s.blocks.length := by
      by_contra hk
      rw [List.drop_eq_nil_of_le (by omega)] at hd
      exact absurd hd (by simp)
    simp only [Option.some.injEq] at h
    subst h
    refine ⟨?_, by simp [State.portNo]; omega, ?_, rfl⟩
    · have := List.take_append_drop k s.blocks
      rw [hd] at this
      exact this
    · rw [List.drop_eq_getElem_cons hlt] at hd
      simp only [List.cons.injEq] at hd
      rw [List.getElem?_eq_getElem hlt, hd.1]

theorem select_none_iff {s : State} {k : Nat} : s.select k = none ↔ s.blocks.length ≤ k := by
  unfold State.select
  split <;> rename_i h
  · simpa using h
  · have : ¬ s.blocks.length ≤ k := fun hk => by rw [List.drop_eq_nil_of_le hk] at h; exact absurd h (by simp)
    simp [this]

theorem select_isSome {s : State} {k : Nat} (h : k < s.blocks.length) : ∃ t, s.select k = some t := by
  cases e : s.select k with
  | none => exact absurd (select_none_iff.1 e) (by omega)
  | some t => exact ⟨t, rfl⟩

@[simp] theorem select_portNo (s : State) : s.select s.portNo = some s := by
  unfold State.select State.portNo State.blocks
  rw [List.drop_left, List.take_left]

/-- Taking a turn changes the script or the counter of free turns, and nothing else. -/
theorem nextTurn_spec (s : State) :
    (∃ t ts, s.script = t :: ts ∧ s.nextTurn = (t, { s with script := ts })) ∨
    (s.script = [] ∧ s.nextTurn = (.agent (Config.freeTurn s.tick), { s with tick := s.tick + 1 })) := by
  unfold State.nextTurn
  cases s.script with
  | nil => exact .inr ⟨rfl, rfl⟩
  | cons t ts => exact .inl ⟨t, ts, rfl, rfl⟩

/-- What an agent's turn at a block comes to. -/
theorem fetchAt_cases (s : State) (k : Nat) (presents : State → Encoded) :
    s.fetchAt k presents = .pass s ∨
    ∃ t i, s.select k = some t ∧ decode (presents t) = .ok i ∧ s.fetchAt k presents = .run i t := by
  unfold State.fetchAt
  cases hs : s.select k with
  | none => exact .inl rfl
  | some t =>
    cases hd : decode (presents t) with
    | error e => exact .inl (by simp [hd])
    | ok i => exact .inr ⟨t, i, rfl, hd, by simp [hd]⟩

/-- Everything a step can do when it answers a next state: an instruction runs, or the turn passes. -/
theorem step_cases {s t : State} (h : step s = .next t) :
    (∃ i u, s.fetch = .run i u ∧ exec i u = .next t) ∨ s.fetch = .pass t := by
  unfold step at h
  split at h
  · rename_i i u e; exact .inl ⟨i, u, e, h⟩
  · rename_i u e; simp only [Host.Outcome.next.injEq] at h; subst h; exact .inr e
  · exact absurd h (by simp)
  · exact absurd h (by simp)

/-! ### What the fetch leaves alone -/

/-- Two states with the same blocks in port order, the same FGST and the same GIE. -/
def SameSystem (a b : State) : Prop := b.blocks = a.blocks ∧ b.fgst = a.fgst ∧ b.gie = a.gie

theorem SameSystem.refl (a : State) : SameSystem a a := ⟨rfl, rfl, rfl⟩

theorem SameSystem.select {a b c : State} {k : Nat} (h : SameSystem a b) (hs : b.select k = some c) : SameSystem a c := by
  obtain ⟨g1, _, _, g4⟩ := select_spec hs
  exact ⟨g1.trans h.1, by rw [g4]; exact h.2.1, by rw [g4]; exact h.2.2⟩

/-- Whatever a turn comes to, the state it runs or passes in has the system of the state it started from. -/
def Fetched.Keeps (a : State) : Fetched → Prop
  | .run _ u => SameSystem a u
  | .pass u => SameSystem a u
  | .stop _ => True
  | .reject _ => True

theorem fetchAt_keeps (a : State) (k : Nat) (f : State → Encoded) : (a.fetchAt k f).Keeps a := by
  rcases fetchAt_cases a k f with e | ⟨t, j, e1, e2, e3⟩
  · rw [e]; exact SameSystem.refl a
  · rw [e3]; exact (SameSystem.refl a).select e1

theorem fetchTurn_keeps (a : State) (t : Turn) : (a.fetchTurn t).Keeps a := by
  unfold State.fetchTurn
  split
  · unfold State.fetchForeground
    split
    · unfold State.fetchCommand
      split
      · exact SameSystem.refl a
      · rename_i c cs _
        split
        · trivial
        · rename_i s' hs
          have : SameSystem a s' := SameSystem.select (b := { a with program := cs }) ⟨rfl, rfl, rfl⟩ hs
          split
          · exact this
          · trivial
    · split
      · exact SameSystem.refl a
      · rename_i hs; exact (SameSystem.refl a).select hs
    · exact fetchAt_keeps _ _ _
  · exact fetchAt_keeps _ _ _
  · exact fetchAt_keeps _ _ _
  · exact fetchAt_keeps _ _ _
  · exact fetchAt_keeps _ _ _
  · unfold State.fetchWire
    split
    · exact SameSystem.refl a
    · rename_i s' hs
      split
      · exact (SameSystem.refl a).select hs
      · exact ⟨rfl, rfl, rfl⟩

/-- The fetch changes the schedule, the program and which block is at hand, and nothing else of the system. -/
theorem fetch_keeps (s : State) : s.fetch.Keeps s := by
  have n : SameSystem s s.nextTurn.2 := by
    rcases nextTurn_spec s with ⟨t, ts, _, e⟩ | ⟨_, e⟩ <;> rw [e] <;> exact ⟨rfl, rfl, rfl⟩
  have := fetchTurn_keeps s.nextTurn.2 s.nextTurn.1
  show (s.nextTurn.2.fetchTurn s.nextTurn.1).Keeps s
  revert this
  cases s.nextTurn.2.fetchTurn s.nextTurn.1 <;> intro h
  · exact ⟨h.1.trans n.1, h.2.1.trans n.2.1, h.2.2.trans n.2.2⟩
  · exact ⟨h.1.trans n.1, h.2.1.trans n.2.1, h.2.2.trans n.2.2⟩
  · trivial
  · trivial

/-! ### What the fetch runs -/

/-- Only the parser's decode table gives a byte class (R94). -/
theorem decode_role {e : Encoded} {i : Instr} (h : decode e = .ok i) (hn : ∀ ps b, e ≠ .parserByte ps b) :
    i.role ≠ .byteClass := by
  cases e with
  | command w b =>
    simp only [decode, decodeCommand] at h
    split at h
    · simp at h
    · split at h
      · simp only [Except.ok.injEq] at h; subst h; decide
      · split at h
        · simp only [Except.ok.injEq] at h; subst h
          unfold commandInstr
          split <;> simp [Instr.role]
        · simp at h
  | lineByte b => simp only [decode, Except.ok.injEq] at h; subst h; simp [Instr.role]
  | rxVector v => simp only [decode] at h; split at h <;> simp at h; subst h; decide
  | txVector v => simp only [decode] at h; split at h <;> simp at h; subst h; decide
  | outVector v => simp only [decode] at h; split at h <;> simp at h; subst h; decide
  | parserByte p b => exact absurd rfl (hn p b)
  | wire bs =>
    simp only [decode, decodeWire] at h
    split at h
    · split at h
      · simp at h
      · split at h <;> simp at h
        subst h; simp [Instr.role]
    · simp at h
  | stage c =>
    simp only [decode, decodeStage] at h
    split at h <;> simp at h <;> subst h <;> decide

/-- What a turn runs, if it runs something, is no byte class. -/
def Fetched.NoByteClass : Fetched → Prop
  | .run i _ => i.role ≠ .byteClass
  | .pass _ => True
  | .stop _ => True
  | .reject _ => True

theorem fetchAt_noByteClass (a : State) (k : Nat) (f : State → Encoded) (hf : ∀ u ps b, f u ≠ .parserByte ps b) :
    (a.fetchAt k f).NoByteClass := by
  rcases fetchAt_cases a k f with e | ⟨t, j, _, hd, e⟩ <;> rw [e]
  · trivial
  · exact decode_role hd (hf t)

/-- PARSE is never a step of its own: no turn runs a byte class (R185). -/
theorem fetch_noByteClass (s : State) : s.fetch.NoByteClass := by
  unfold State.fetch State.fetchTurn
  split
  · unfold State.fetchForeground
    split
    · unfold State.fetchCommand
      split
      · trivial
      · split
        · trivial
        · split
          · rename_i h; exact decode_role h (by simp)
          · trivial
    · rename_i op _
      split
      · trivial
      · cases op <;> simp [Fetched.NoByteClass, HeldOp.instr, Instr.role]
    · exact fetchAt_noByteClass _ _ _ (by simp)
  · exact fetchAt_noByteClass _ _ _ (by simp)
  · exact fetchAt_noByteClass _ _ _ (by simp)
  · exact fetchAt_noByteClass _ _ _ (by simp)
  · exact fetchAt_noByteClass _ _ _ (by simp)
  · unfold State.fetchWire
    split
    · trivial
    · split
      · rename_i h; exact decode_role h (by simp)
      · trivial

/-- The turns that deliver bytes, each with the turn of the receive handler after it. -/
theorem deliveryTurns_eq (k : Nat) (bs : List Byte) :
    deliveryTurns k bs = bs.flatMap fun b => [.agent (.lin k b), .agent (.rxh k)] := by
  induction bs with
  | nil => rfl
  | cons b bs ih => simp [deliveryTurns, ih]

/-- A line's, a handler's or a frame's instruction is what its turn runs; the foreground's is its held operation or its stage. -/
theorem fetchTurn_busy {s u : State} {t : Turn} {i : Instr} (hne : s.fgst ≠ .idle) (h : s.fetchTurn t = .run i u) :
    (∃ k op, s.fgst = .hold k op ∧ s.select k = some u ∧ i = op.instr) ∨
    (∃ k, s.fgst = .encode k ∧ s.select k = some u ∧ decode (.stage u.blk.estage.code) = .ok i) ∨
    i = .rxIsr ∨ i = .txIsr ∨ i = .lineOut ∨ (∃ k b, t = .agent (.lin k b) ∧ s.select k = some u ∧ i = .lineIn b) ∨
    ∃ k bytes, t = .wire k bytes ∧ s.select k = some u ∧ decode (.wire bytes) = .ok i := by
  have at_ : ∀ {k : Nat} {f : State → Encoded}, s.fetchAt k f = .run i u → s.select k = some u ∧ decode (f u) = .ok i := by
    intro k f e
    rcases fetchAt_cases s k f with e' | ⟨v, j, h1, h2, e'⟩ <;> rw [e'] at e
    · exact absurd e (by simp)
    · simp only [Fetched.run.injEq] at e
      obtain ⟨rfl, rfl⟩ := e
      exact ⟨h1, h2⟩
  unfold State.fetchTurn at h
  split at h
  · unfold State.fetchForeground at h
    split at h
    · rename_i hh; exact absurd hh hne
    · rename_i k op hh
      split at h
      · exact absurd h (by simp)
      · rename_i hs
        simp only [Fetched.run.injEq] at h
        obtain ⟨rfl, rfl⟩ := h
        exact .inl ⟨k, op, hh, hs, rfl⟩
    · rename_i k hh
      exact .inr (.inl ⟨k, hh, at_ h⟩)
  · have e := (at_ h).2
    simp only [decode] at e; split at e <;> simp at e; exact .inr (.inr (.inl e.symm))
  · have e := (at_ h).2
    simp only [decode] at e; split at e <;> simp at e; exact .inr (.inr (.inr (.inl e.symm)))
  · rename_i k b
    obtain ⟨hs, e⟩ := at_ h
    simp only [decode, Except.ok.injEq] at e
    exact .inr (.inr (.inr (.inr (.inr (.inl ⟨k, b, rfl, hs, e.symm⟩)))))
  · have e := (at_ h).2
    simp only [decode] at e; split at e <;> simp at e; exact .inr (.inr (.inr (.inr (.inl e.symm))))
  · rename_i k bytes
    unfold State.fetchWire at h
    split at h
    · exact absurd h (by simp)
    · rename_i hs
      split at h
      · rename_i hd
        simp only [Fetched.run.injEq] at h
        obtain ⟨rfl, rfl⟩ := h
        exact .inr (.inr (.inr (.inr (.inr (.inr ⟨k, bytes, rfl, hs, hd⟩)))))
      · exact absurd h (by simp)

end Sys2Proof.Machine
end

