-- ==== Sys2Proof/Laws/Final.lean ====
section
/-! SUPPORT. The end of a run (70_reset_and_hazards.md R282): from a final state every turn passes, for ever. -/

namespace Sys2Proof.Machine

/-- No handler is enabled on a quiet block, and the line has nothing to take. -/
theorem quiet_disabled {s : State} (h : s.blk.Quiet s.gie) :
    s.rxEnabled = false ∧ s.txEnabled = false ∧ s.outEnabled = false := by
  obtain ⟨h1, h2, h3⟩ := h
  refine ⟨?_, ?_, by simp [State.outEnabled, h2]⟩
  · rcases h1 with h | h | h <;> simp [State.rxEnabled, h]
  · rcases h3 with ⟨_, h⟩ | h <;> simp [State.txEnabled, h]

/-- Where nothing is enabled at any block, a turn that brings no byte passes. -/
theorem settled_turn_passes {s : State} (h : s.Settled) {t : Turn} (ht : Turn.delivers s.blocks.length t = false) :
    s.fetchTurn t = .pass s := by
  obtain ⟨hf, hp, _, hb⟩ := h
  have dis : ∀ {k u}, s.select k = some u → u.rxEnabled = false ∧ u.txEnabled = false ∧ u.outEnabled = false := by
    intro k u hu
    obtain ⟨_, _, h3, h4⟩ := select_spec hu
    have := (hb u.blk (List.mem_of_getElem? h3)).2
    rw [show s.gie = u.gie by rw [h4]] at this
    exact quiet_disabled this
  cases t with
  | wire k bytes =>
    simp only [Turn.delivers, Bool.and_eq_false_iff, decide_eq_false_iff_not, Bool.not_eq_false', List.isEmpty_iff] at ht
    show s.fetchWire k bytes = .pass s
    unfold State.fetchWire
    rcases ht with hk | rfl
    · rw [select_none_iff.2 (Nat.le_of_not_lt hk)]
    · cases s.select k <;> simp [decode, decodeWire, deliveryTurns]
  | agent a =>
    cases a with
    | fg => simp [State.fetchTurn, State.fetchForeground, State.fetchCommand, hf, hp]
    | lin k b =>
      have hk : s.select k = none := select_none_iff.2 (by simpa [Turn.delivers] using ht)
      simp [State.fetchTurn, State.fetchAt, hk]
    | rxh k =>
      rcases fetchAt_cases s k (fun s => .rxVector s.rxVector) with e | ⟨u, i, hu, hd, _⟩
      · exact e
      · have := mt (rxVector_enabled u).1 (by simp [(dis hu).1])
        simp [decode, this] at hd
    | txh k =>
      rcases fetchAt_cases s k (fun s => .txVector s.txVector) with e | ⟨u, i, hu, hd, _⟩
      · exact e
      · have := mt (txVector_enabled u).1 (by simp [(dis hu).2.1])
        simp [decode, this] at hd
    | lout k =>
      rcases fetchAt_cases s k (fun s => .outVector s.outVector) with e | ⟨u, i, hu, hd, _⟩
      · exact e
      · have := mt (outVector_enabled u).1 (by simp [(dis hu).2.2])
        simp [decode, this] at hd

/-- The run is over: the step from a final state passes a turn, and the state after it is final too. -/
theorem final_step {s : State} (h : s.Final) :
    ∃ t, step s = .next t ∧ t.Final ∧ t = { s with script := t.script, tick := t.tick } := by
  obtain ⟨hs, h1, h2⟩ := h
  rcases nextTurn_spec s with ⟨t, ts, hscr, e⟩ | ⟨hscr, e⟩
  · have hp : s.fetch = .pass { s with script := ts } := by
      unfold State.fetch
      rw [e]
      exact settled_turn_passes (s := { s with script := ts }) hs (h1 t (by simp [hscr]))
    exact ⟨{ s with script := ts }, by simp [step, hp], ⟨hs, fun t ht => h1 t (by simp [hscr, ht]), h2⟩, rfl⟩
  · have hp : s.fetch = .pass { s with tick := s.tick + 1 } := by
      unfold State.fetch
      rw [e]
      exact settled_turn_passes (s := { s with tick := s.tick + 1 }) hs (h2 s.tick (Nat.le_refl _))
    exact ⟨{ s with tick := s.tick + 1 }, by simp [step, hp], ⟨hs, h1, fun n hn => h2 n (by simp at hn; omega)⟩, rfl⟩

/-- What a run from a final state reaches is final, with the blocks, GIE, FGST and the histories as they were (R282). -/
theorem final_reaches {s t : State} (h : s.Final) (hr : Reaches s t) :
    t.Final ∧ t = { s with script := t.script, tick := t.tick } := by
  induction hr with
  | here => exact ⟨h, rfl⟩
  | next _ hu ih =>
    obtain ⟨v, hv, hf, e⟩ := final_step ih.1
    rw [hu, Host.Outcome.next.injEq] at hv
    subst hv
    exact ⟨hf, by rw [e, ih.2]⟩

end Sys2Proof.Machine
end

