-- ==== Sys2Proof/Laws/Parse.lean ====
section
/-! SUPPORT. Everything PARSE of one byte can do, said once (42_frame_parser.md R180 to R185). -/

namespace Sys2Proof.Machine

/-- The parser state in which a byte class occurs (R94). -/
def ByteClass.state : ByteClass → ParserState
  | .sof => .waitSOF
  | .skip => .waitSOF
  | .link => .waitLink
  | .flags => .waitFlags
  | .len0 => .waitLength
  | .lenN => .waitLength
  | .data => .payload

/-- The class of a byte tells the state it was taken in. -/
theorem classify_state (ps : ParserState) (c : Byte) : ByteClass.state (classify ps c) = ps := by
  cases ps <;> simp only [classify] <;> (try split) <;> rfl

/-- What PARSE of one byte can do to a block with a parser: only the parser, ERR and the event log change; at most one event,
DqDrop or FrmErr; DQ.tail stays; an orderly parser stays orderly and DQ only gains. -/
structure Parsed (b : Block) (p : Parser) (b' : Block) (p' : Parser) : Prop where
  eq : b' = { b with parser := some p', err := b'.err, evlog := b'.evlog }
  ev : (b'.err = b.err ∧ b'.evlog = b.evlog) ∨
    ∃ e : Event, (e.code = 1 ∨ e.code = 3) ∧ b'.err = b.err ||| BitVec.ofNat 8 (2 ^ e.code) ∧ b'.evlog = b.evlog ++ [e]
  tail : p'.dq.tail = p.dq.tail
  ok : p.Ok → p'.Ok ∧ p.dq.live <+: p'.dq.live

/-- Everything PARSE of one byte can do (R180 to R185). -/
theorem parse_spec (b : Block) (c : Byte) (p : Parser) (hp : b.parser = some p) : ∃ p', Parsed b p (b.parse c) p' := by
  have h0 : ∀ p : Parser, p.pstate ≠ .payload → p.Ok → p.prem = 0#8 := fun p h ho => by
    by_contra hh; exact h (ho.2.1.2 hh)
  rcases parse_cases b c with ⟨hn, _⟩ | ⟨p1, hp1, h⟩
  · rw [hp] at hn; simp at hn
  · rw [hp] at hp1; simp at hp1; subst hp1
    rcases h with ⟨hk, h⟩ | ⟨hk, h⟩ | ⟨hk, h⟩ | ⟨hk, h⟩ | ⟨hk, h⟩ | ⟨hk, h⟩ | ⟨hk, h⟩ <;> rw [h]
    · have hs : p.pstate = .waitSOF := by rw [← classify_state p.pstate c, hk]; rfl
      refine ⟨{ p with ptrailv := false, pstate := .waitLink }, ?_, ?_, rfl, fun ho =>
        ⟨⟨ho.1, by simp [h0 p (by simp [hs]) ho], ho.2.2⟩, List.prefix_rfl⟩⟩ <;> unfold Block.parseSof <;>
        rcases trailerCheck_cases b p sofByte with ⟨_, e⟩ | ⟨_, e⟩ <;> rw [e]
      · rfl
      · rfl
      · exact .inr ⟨_, .inr rfl, rfl, rfl⟩
      · exact .inl ⟨rfl, rfl⟩
    · have hs : p.pstate = .waitSOF := by rw [← classify_state p.pstate c, hk]; rfl
      refine ⟨{ p with ptrailv := false, pstate := .waitSOF }, ?_, ?_, rfl, fun ho =>
        ⟨⟨ho.1, by simp [h0 p (by simp [hs]) ho], ho.2.2⟩, List.prefix_rfl⟩⟩ <;> unfold Block.parseSkip <;>
        rcases trailerCheck_cases b p c with ⟨_, e⟩ | ⟨_, e⟩ <;> rw [e]
      · rfl
      · rfl
      · exact .inr ⟨_, .inr rfl, rfl, rfl⟩
      · exact .inl ⟨rfl, rfl⟩
    · have hs : p.pstate = .waitLink := by rw [← classify_state p.pstate c, hk]; rfl
      exact ⟨_, rfl, .inl ⟨rfl, rfl⟩, rfl, fun ho => ⟨⟨ho.1, by simp [h0 p (by simp [hs]) ho], by simp⟩, List.prefix_rfl⟩⟩
    · have hs : p.pstate = .waitFlags := by rw [← classify_state p.pstate c, hk]; rfl
      exact ⟨_, rfl, .inl ⟨rfl, rfl⟩, rfl, fun ho => ⟨⟨ho.1, by simp [h0 p (by simp [hs]) ho], ho.2.2⟩, List.prefix_rfl⟩⟩
    · have hs : p.pstate = .waitLength := by rw [← classify_state p.pstate c, hk]; rfl
      exact ⟨_, rfl, .inl ⟨rfl, rfl⟩, rfl, fun ho => ⟨⟨ho.1, by simp [Parser.frameOver, h0 p (by simp [hs]) ho], ho.2.2⟩, List.prefix_rfl⟩⟩
    · have hs : p.pstate = .waitLength := by rw [← classify_state p.pstate c, hk]; rfl
      have hc : c ≠ 0#8 := by rintro rfl; rw [hs] at hk; exact absurd hk (by decide)
      exact ⟨_, rfl, .inl ⟨rfl, rfl⟩, rfl, fun ho => ⟨⟨ho.1, by simp [hc], ho.2.2⟩, List.prefix_rfl⟩⟩
    · have hs : p.pstate = .payload := by rw [← classify_state p.pstate c, hk]; rfl
      obtain ⟨b', q, hq, h⟩ := parseData_cases c b p
      have hqt : q.tail = p.dq.tail := by rcases hq with ⟨_, _, rfl⟩ | ⟨_, _, rfl⟩ <;> rfl
      have hqo : p.dq.Ok → q.Ok ∧ p.dq.live <+: q.live := fun ho => by
        rcases hq with ⟨hf, _, rfl⟩ | ⟨_, _, rfl⟩
        · exact ⟨Queue.store_ok _ _ ho, by rw [Queue.live_store _ _ ho hf]; exact List.prefix_append _ _⟩
        · exact ⟨ho, List.prefix_rfl⟩
      have hb : b' = { b with err := b'.err, evlog := b'.evlog } := by rcases hq with ⟨_, rfl, _⟩ | ⟨_, rfl, _⟩ <;> rfl
      have he : (b'.err = b.err ∧ b'.evlog = b.evlog) ∨
          ∃ e : Event, (e.code = 1 ∨ e.code = 3) ∧ b'.err = b.err ||| BitVec.ofNat 8 (2 ^ e.code) ∧ b'.evlog = b.evlog ++ [e] := by
        rcases hq with ⟨_, rfl, _⟩ | ⟨_, rfl, _⟩
        · exact .inl ⟨rfl, rfl⟩
        · exact .inr ⟨_, .inl rfl, rfl, rfl⟩
      rcases h with ⟨h1, e⟩ | ⟨h1, e⟩ <;> rw [e]
      · exact ⟨{ p with dq := q, prem := 0#8 }.frameOver, by rw [hb]; rfl, he, hqt, fun ho =>
          ⟨⟨(hqo ho.1).1, by simp [Parser.frameOver], ho.2.2⟩, (hqo ho.1).2⟩⟩
      · refine ⟨{ p with dq := q, prem := p.prem - 1#8 }, by rw [hb]; rfl, he, hqt, fun ho =>
          ⟨⟨(hqo ho.1).1, ?_, ho.2.2⟩, (hqo ho.1).2⟩⟩
        simp only [hs, true_iff]
        intro e; apply h1
        have := congrArg (· + 1#8) e; simpa using this

/-! ### The receive handler -/

/-- What PARSE, the drain loop and the receive handler leave alone: all but the parser, ERR, the event log, RXQ and RXC. The
parser stays where there is one, and with it DQ.tail. -/
structure HandlerFrame (b b' : Block) : Prop where
  eq : b' = { b with parser := b'.parser, err := b'.err, evlog := b'.evlog, rxq := b'.rxq, rxc := b'.rxc }
  tail : b'.parser.map (fun p => p.dq.tail) = b.parser.map (fun p => p.dq.tail)

theorem HandlerFrame.refl (b : Block) : HandlerFrame b b := ⟨rfl, rfl⟩

theorem HandlerFrame.trans {a b c : Block} (h : HandlerFrame a b) (g : HandlerFrame b c) : HandlerFrame a c :=
  ⟨by rw [g.eq, h.eq], g.tail.trans h.tail⟩

/-- PARSE leaves RXQ and RXC alone too. -/
theorem parse_frame (b : Block) (c : Byte) :
    HandlerFrame b (b.parse c) ∧ (b.parse c).rxq = b.rxq ∧ (b.parse c).rxc = b.rxc := by
  cases hp : b.parser with
  | none =>
    have : b.parse c = b := by simp [Block.parse, hp]
    rw [this]; exact ⟨HandlerFrame.refl b, rfl, rfl⟩
  | some p =>
    obtain ⟨p', h⟩ := parse_spec b c p hp
    have hq : (b.parse c).parser = some p' := by rw [h.eq]
    refine ⟨⟨?_, by simp [hq, hp, h.tail]⟩, by rw [h.eq], by rw [h.eq]⟩
    conv_lhs => rw [h.eq]
    rw [hq, h.eq]

/-- The drain loop moves RXQ.tail and nothing else of RXQ. -/
theorem drain_frame (fuel : Nat) : ∀ b : Block,
    HandlerFrame b (b.drain fuel) ∧ (b.drain fuel).rxc = b.rxc ∧ (b.drain fuel).rxq = { b.rxq with tail := (b.drain fuel).rxq.tail } := by
  induction fuel with
  | zero => intro b; exact ⟨HandlerFrame.refl b, rfl, rfl⟩
  | succ n ih =>
    intro b
    unfold Block.drain
    split
    · exact ⟨HandlerFrame.refl b, rfl, rfl⟩
    · obtain ⟨g, gq, gc⟩ := parse_frame { b with rxq := b.rxq.pop } b.rxq.front
      obtain ⟨h, hc, hq⟩ := ih (({ b with rxq := b.rxq.pop } : Block).parse b.rxq.front)
      have g0 : HandlerFrame b { b with rxq := b.rxq.pop } := ⟨rfl, rfl⟩
      refine ⟨(g0.trans g).trans h, by rw [hc, gc], ?_⟩
      conv_lhs => rw [hq, gq]
      rfl

/-- The receive handler clears RXC, moves RXQ.tail only where there is a parser, and keeps the frame (R125, R41). -/
theorem rxHandler_frame (b : Block) :
    HandlerFrame b b.rxHandler ∧ b.rxHandler.rxc = false ∧ (b.parser.isSome = false → b.rxHandler.rxq.tail = b.rxq.tail) := by
  have h0 : HandlerFrame b b.rxPush ∧ b.rxPush.rxc = false ∧ b.rxPush.rxq.tail = b.rxq.tail := by
    rcases rxPush_cases b with ⟨_, e⟩ | ⟨_, e⟩ <;> rw [e] <;> exact ⟨⟨rfl, rfl⟩, rfl, rfl⟩
  unfold Block.rxHandler
  split
  · rename_i hp
    obtain ⟨g, h, _⟩ := drain_frame b.rxPush.rxq.occ b.rxPush
    exact ⟨h0.1.trans g, h.trans h0.2.1, fun hn => by simp [hn] at hp⟩
  · exact ⟨h0.1, h0.2.1, fun _ => h0.2.2⟩

end Sys2Proof.Machine
end

