-- ==== Sys2Proof/Laws/PerInstr.lean ====
section
/-! SUPPORT. What is said of each instruction as syntax, one lemma a constructor: the encoding of a well-formed instruction can
be formed (30_encoding.md R100, R102, R90). -/

namespace Sys2Proof

/-- Bits that can be presented: a command word has the width of its format and no bit above it, a frame has 5 + n bytes. -/
def Encoded.formed : Encoded → Prop
  | .command width bits => width = formatWidth bits ∧ bits < 2 ^ width
  | .wire bytes => ∃ n : Nat, n ≤ 255 ∧ bytes[3]? = some (BitVec.ofNat 8 n) ∧ bytes.length = 5 + n
  | .stage code => (stageOf code).isSome = true
  | .parserByte code _ => (parserStateOf code).isSome = true
  | .lineByte _ => True
  | .rxVector _ => True
  | .txVector _ => True
  | .outVector _ => True

theorem packBytes_lt (bs : List Byte) : packBytes bs < 256 ^ bs.length := by
  induction bs with
  | nil => simp [packBytes]
  | cons b bs ih =>
    have hb := b.isLt
    simp only [packBytes, List.length_cons, Nat.pow_succ]
    omega

end Sys2Proof

namespace Sys2Proof.Laws.EncodingFormed

/-- The encoding of the instruction, if it is well formed, can be formed. -/
def Statement (i : Instr) : Prop := i.wellFormed = true → (Sys2Proof.encode i).formed

theorem init (baud : Baud) : Statement (.init baud) := by
  intro _
  have := baud.isLt
  refine ⟨?_, by omega⟩
  simp [formatWidth]

theorem put (b : Byte) : Statement (.put b) := by
  intro _
  have := b.isLt
  refine ⟨?_, by omega⟩
  have e : (1 + 16 * b.toNat) % 16 = 1 := by omega
  simp [formatWidth]

theorem get : Statement .get := fun _ => ⟨rfl, by decide⟩
theorem avail : Statement .avail := fun _ => ⟨rfl, by decide⟩

theorem encode (link : Byte) (payload : List Byte) : Statement (.encode link payload) := by
  intro h
  have hn : payload.length ≤ 255 := by simpa [Instr.wellFormed, payloadFits] using h
  have hl := link.isLt
  have hp := packBytes_lt payload
  have e : (4 + 16 * link.toNat + 4096 * payload.length + 1048576 * packBytes payload) % 16 = 4 := by omega
  have f : fieldN (4 + 16 * link.toNat + 4096 * payload.length + 1048576 * packBytes payload) = payload.length := by
    unfold fieldN; omega
  refine ⟨by simp [formatWidth, e, f], ?_⟩
  have : 2 ^ (20 + 8 * payload.length) = 1048576 * 256 ^ payload.length := by
    rw [Nat.pow_add, Nat.pow_mul]
  rw [this]
  omega

theorem dqClear : Statement .dqClear := fun _ => ⟨rfl, by decide⟩
theorem dqAvail : Statement .dqAvail := fun _ => ⟨rfl, by decide⟩
theorem dqGet : Statement .dqGet := fun _ => ⟨rfl, by decide⟩

theorem dqPeek (i : Byte) : Statement (.dqPeek i) := by
  intro _
  have := i.isLt
  refine ⟨?_, by omega⟩
  have e : (8 + 16 * i.toNat) % 16 = 8 := by omega
  simp [formatWidth]

theorem rdErr : Statement .rdErr := fun _ => ⟨rfl, by decide⟩
theorem rdPstate : Statement .rdPstate := fun _ => ⟨rfl, by decide⟩
theorem rdPlink : Statement .rdPlink := fun _ => ⟨rfl, by decide⟩
theorem rdCtl : Statement .rdCtl := fun _ => ⟨rfl, by decide⟩
theorem irqOff : Statement .irqOff := fun _ => ⟨rfl, by decide⟩
theorem irqOn : Statement .irqOn := fun _ => ⟨rfl, by decide⟩
theorem reservedF : Statement .reservedF := fun _ => ⟨rfl, by decide⟩
theorem lineIn (b : Byte) : Statement (.lineIn b) := fun _ => trivial
theorem rxIsr : Statement .rxIsr := fun _ => trivial
theorem txIsr : Statement .txIsr := fun _ => trivial
theorem lineOut : Statement .lineOut := fun _ => trivial
theorem pSof : Statement .pSof := fun _ => rfl
theorem pSkip (b : Byte) : Statement (.pSkip b) := fun _ => rfl
theorem pLink (b : Byte) : Statement (.pLink b) := fun _ => rfl
theorem pFlags (b : Byte) : Statement (.pFlags b) := fun _ => rfl
theorem pLen0 : Statement .pLen0 := fun _ => rfl
theorem pLenN (b : Byte) : Statement (.pLenN b) := fun _ => rfl
theorem pData (b : Byte) : Statement (.pData b) := fun _ => rfl

theorem muxframe (link flags : Byte) (payload : List Byte) (trailer : Byte) :
    Statement (.muxframe link flags payload trailer) := by
  intro h
  have hn : payload.length ≤ 255 := by simpa [Instr.wellFormed, payloadFits] using h
  exact ⟨payload.length, hn, rfl, by simp [wireBytes]; omega⟩

theorem eSof : Statement .eSof := fun _ => rfl
theorem eLink : Statement .eLink := fun _ => rfl
theorem eFlags : Statement .eFlags := fun _ => rfl
theorem eLen : Statement .eLen := fun _ => rfl
theorem ePay : Statement .ePay := fun _ => rfl
theorem eTrl : Statement .eTrl := fun _ => rfl

end Sys2Proof.Laws.EncodingFormed
end

