-- ==== Sys2Proof/Laws/Run.lean ====
section
/-! SUPPORT. Runs of several steps of a machine: one step more, and two runs one after the other. -/

namespace Sys2Proof.Machine

/-- A run of one step more is the run of the rest from the state after the first. -/
theorem run_succ {M : Host.Core} {s t : M.State} (h : M.step s = .next t) (n : Nat) : M.run (n + 1) s = M.run n t := by
  simp only [Host.Core.run, h]

/-- A run that goes on is the run of the rest from the state it has reached. -/
theorem run_add {M : Host.Core} (m n : Nat) : ∀ {s t : M.State}, M.run m s = .next t → M.run (m + n) s = M.run n t := by
  induction m with
  | zero =>
    intro s t h
    simp only [Host.Core.run, Host.Outcome.next.injEq] at h
    rw [Nat.zero_add, h]
  | succ m ih =>
    intro s t h
    rw [show m + 1 + n = (m + n) + 1 by omega]
    cases hs : M.step s with
    | next u => simp only [Host.Core.run, hs] at h ⊢; exact ih h
    | fault r => simp only [Host.Core.run, hs] at h; cases h
    | refused r => simp only [Host.Core.run, hs] at h; cases h

end Sys2Proof.Machine
end

