-- ==== Sys2Proof/Tests/Slice0.lean ====
section
/-! SUPPORT. Tests: ill-formed terms, words written out from 30_encoding.md, single steps from the vectors V1 to V39 of
95_test_vectors.md, and for every statement of the certificate that has hypotheses, states and operands that meet them. -/

namespace Sys2Proof.Tests

open Sys2Proof
open Sys2Proof.Machine

/-! ### Helpers -/

/-- The state an instruction leaves, if it answers a next state. -/
def after (i : Instr) (s : State) : Option State :=
  match exec i s with
  | .next t => some t
  | .fault _ => none
  | .refused _ => none

/-- The state one step leaves, if it answers a next state. -/
def stepped (s : State) : Option State :=
  match step s with
  | .next t => some t
  | .fault _ => none
  | .refused _ => none

/-- One block with a parser, after power-on. -/
def lab : State := State.powerOn Config.moduleChannel []

/-- One block without a parser, after power-on. -/
def bare : State := State.powerOn Config.console []

/-- A queue with given indices whose slots below the length of the list are written. -/
def queueOf (cap head tail : Nat) (bytes : List Byte) : Queue :=
  { port := 0, name := .txq, cap := cap, buf := bytes.zipIdx.map fun x => (x.2, x.1),
    head := BitVec.ofNat 8 head, tail := BitVec.ofNat 8 tail }

/-- `lab` with another transmit queue. -/
def withTx (q : Queue) : State := { lab with blk := { lab.blk with txq := q, txie := true } }

/-- `bare` with another receive queue. -/
def withRx (q : Queue) : State := { bare with blk := { bare.blk with rxq := q } }

/-- A parser in a state, with a de-framed queue of three free slots (V31). -/
def parserIn (ps : ParserState) (prem : Byte) : Parser :=
  { dq := queueOf 4 0 0 [], pstate := ps, prem := prem, plink := 0x01#8, plinkv := true, ptrail := 0xFE#8, ptrailv := false }

/-- `lab` with another parser. -/
def withParser (p : Parser) : State := { lab with blk := { lab.blk with parser := some p } }

/-- `lab` in an encoder stage of ENCODE 0x01, [0x41, 0x42], with a given transmit queue (V16). -/
def encoding (st : Stage) (eidx : Byte) (q : Queue) : State :=
  { lab with
    fgst := .encode 0
    blk := { lab.blk with
      txq := q, txie := true, estage := st, elink := 0x01#8, elen := 0x02#8, eidx := eidx, epay := [(0, 0x41#8), (1, 0x42#8)] } }

/-- A transmit queue of capacity 2 that is full, and one that is empty. -/
def full2 : Queue := queueOf 2 1 0 [0x41#8]
def empty2 : Queue := queueOf 2 0 0 []

/-! ### WellFormed refuses each kind of ill-formed term (I17, R94) -/

theorem test_wf_encode_payload_256 : (Instr.encode 0x01#8 (List.replicate 256 0#8)).wellFormed = false := by
  simp only [Instr.wellFormed, payloadFits, List.length_replicate]; decide
theorem test_wf_muxframe_payload_256 : (Instr.muxframe 0x01#8 0x00#8 (List.replicate 256 0#8) 0xFE#8).wellFormed = false := by
  simp only [Instr.wellFormed, payloadFits, List.length_replicate]; decide
theorem test_wf_skip_of_sof : (Instr.pSkip 0xBF#8).wellFormed = false := by decide
theorem test_wf_lenN_of_zero : (Instr.pLenN 0x00#8).wellFormed = false := by decide
theorem test_wf_encode_payload_255 : (Instr.encode 0x01#8 (List.replicate 255 0#8)).wellFormed = true := by
  simp only [Instr.wellFormed, payloadFits, List.length_replicate]; decide

/-! ### Decoding, from words written out of the tables: op in bits 3 to 0, a in bits 11 to 4 (R100, R101) -/

/-- baud 9600 = 0x2580 in bits 35 to 4. -/
theorem test_decode_init : decode (.command 36 0b00000000000000000010010110000000_0000) = .ok (.init 9600#32) := by rfl
theorem test_decode_put : decode (.command 12 0b01000001_0001) = .ok (.put 0x41#8) := by rfl
theorem test_decode_get : decode (.command 4 0b0010) = .ok .get := by rfl
theorem test_decode_avail : decode (.command 4 0b0011) = .ok .avail := by rfl
/-- payload[1] = 0x42, payload[0] = 0x41, n = 2, link = 0x01, op = 4. -/
theorem test_decode_encode :
    decode (.command 36 0b01000010_01000001_00000010_00000001_0100) = .ok (.encode 0x01#8 [0x41#8, 0x42#8]) := by rfl
theorem test_decode_dqClear : decode (.command 4 0b0101) = .ok .dqClear := by rfl
theorem test_decode_dqAvail : decode (.command 4 0b0110) = .ok .dqAvail := by rfl
theorem test_decode_dqGet : decode (.command 4 0b0111) = .ok .dqGet := by rfl
theorem test_decode_dqPeek : decode (.command 12 0b00000101_1000) = .ok (.dqPeek 0x05#8) := by rfl
theorem test_decode_rdErr : decode (.command 4 0b1001) = .ok .rdErr := by rfl
theorem test_decode_rdPstate : decode (.command 4 0b1010) = .ok .rdPstate := by rfl
theorem test_decode_rdPlink : decode (.command 4 0b1011) = .ok .rdPlink := by rfl
theorem test_decode_rdCtl : decode (.command 4 0b1100) = .ok .rdCtl := by rfl
theorem test_decode_irqOff : decode (.command 4 0b1101) = .ok .irqOff := by rfl
theorem test_decode_irqOn : decode (.command 4 0b1110) = .ok .irqOn := by rfl
theorem test_decode_reservedF : decode (.command 4 0b1111) = .ok .reservedF := by rfl
/-- The pattern bbbbbbbb and the flag vectors of R103. -/
theorem test_decode_lineIn : decode (.lineByte 0b10100001#8) = .ok (.lineIn 0xA1#8) := by rfl
theorem test_decode_rxIsr : decode (.rxVector 0b111#3) = .ok .rxIsr := by rfl
theorem test_decode_txIsr : decode (.txVector 0b111#3) = .ok .txIsr := by rfl
theorem test_decode_lineOut : decode (.outVector 0b0#1) = .ok .lineOut := by rfl
/-- The rows of R94: PSTATE, then the byte. -/
theorem test_decode_pSof : decode (.parserByte 0b000#3 0b10111111#8) = .ok .pSof := by rfl
theorem test_decode_pSkip : decode (.parserByte 0b000#3 0b11111110#8) = .ok (.pSkip 0xFE#8) := by rfl
theorem test_decode_pLink : decode (.parserByte 0b001#3 0b00000001#8) = .ok (.pLink 0x01#8) := by rfl
theorem test_decode_pFlags : decode (.parserByte 0b010#3 0b01111111#8) = .ok (.pFlags 0x7F#8) := by rfl
theorem test_decode_pLen0 : decode (.parserByte 0b011#3 0b00000000#8) = .ok .pLen0 := by rfl
theorem test_decode_pLenN : decode (.parserByte 0b011#3 0b10111111#8) = .ok (.pLenN 0xBF#8) := by rfl
theorem test_decode_pData : decode (.parserByte 0b100#3 0b10111111#8) = .ok (.pData 0xBF#8) := by rfl
/-- S2: BF 01 00 02 41 42 FE. -/
theorem test_decode_muxframe : decode (.wire [0xBF#8, 0x01#8, 0x00#8, 0x02#8, 0x41#8, 0x42#8, 0xFE#8])
    = .ok (.muxframe 0x01#8 0x00#8 [0x41#8, 0x42#8] 0xFE#8) := by rfl
/-- The codes of ESTAGE (R34). -/
theorem test_decode_eSof : decode (.stage 0b001#3) = .ok .eSof := by rfl
theorem test_decode_eLink : decode (.stage 0b010#3) = .ok .eLink := by rfl
theorem test_decode_eFlags : decode (.stage 0b011#3) = .ok .eFlags := by rfl
theorem test_decode_eLen : decode (.stage 0b100#3) = .ok .eLen := by rfl
theorem test_decode_ePay : decode (.stage 0b101#3) = .ok .ePay := by rfl
theorem test_decode_eTrl : decode (.stage 0b110#3) = .ok .eTrl := by rfl

/-- Bits that are no instruction are rejected by name (R102, R103, R30, R34, R90). -/
theorem test_decode_rejects :
    decode (.command 12 0b0010) = .error .widthNotOfFormat ∧ decode (.command 4 0b010001) = .error .bitsBeyondWidth ∧
    decode (.rxVector 0b110#3) = .error .vectorNotEnabled ∧ decode (.outVector 0b1#1) = .error .vectorNotEnabled ∧
    decode (.parserByte 5#3 0#8) = .error .parserStateNeverHeld ∧ decode (.stage 0#3) = .error .encoderIdle ∧
    decode (.stage 7#3) = .error .stageNeverHeld ∧ decode (.wire [0xBF#8, 0#8, 0#8]) = .error .frameHeaderShort ∧
    decode (.wire [0xBE#8, 0#8, 0#8, 0#8, 0xFF#8]) = .error .frameNotSof ∧
    decode (.wire [0xBF#8, 0#8, 0#8, 1#8, 0xFF#8]) = .error .frameLengthWrong := ⟨rfl, rfl, rfl, rfl, rfl, rfl, rfl, rfl, rfl, rfl⟩

/-- Words as spec/opcode_table.json numbers them: PUT 0x41, IRQ_ON, the frame header BF 01 00 00, the byte 0x41, the byte 0xBF. -/
theorem test_table_words :
    decodeTableWord 12 0x411 = some (.put 0x41#8) ∧ decodeTableWord 8 0xE = some .irqOn ∧
    decodeTableWord 32 0xBF010000 = some (.muxframe 0x01#8 0x00#8 [] 0x00#8) ∧
    decodeTableWord 8 0x41 = some (.lineIn 0x41#8) ∧ decodeTableWord 8 0xBF = some .pSof := by decide

/-- step runs the word placed for it: IRQ_ON sets GIE, 0xBF takes the parser of the module channel to WaitLink. -/
theorem test_step_runs_irqOn : (stepped (State.reset.withFetchWord 8 0xE)).map State.gie = some true := by decide
theorem test_step_runs_pSof : (stepped (State.reset.withFetchWord 8 0xBF)).map (fun t => t.blk.parser.map Parser.pstate)
    = some (some .waitLink) := by decide

/-! ### The queue primitives (V1 to V9) -/

theorem test_occ : (queueOf 64 5 62 []).occ = 7 ∧ (queueOf 40 0 39 []).occ = 1 ∧ (queueOf 40 38 39 []).occ = 39 ∧
    (queueOf 40 39 0 []).occ = 39 ∧ (queueOf 40 17 17 []).occ = 0 := by decide
theorem test_full : (queueOf 40 38 39 []).full = true ∧ (queueOf 40 39 0 []).full = true ∧ (queueOf 40 17 17 []).full = false := by
  decide
/-- V3: the index wraps; V4: a full queue drops the byte. -/
theorem test_push : ((queueOf 40 39 5 []).push 0x7E#8).2 = true ∧ ((queueOf 40 39 5 []).push 0x7E#8).1.head = 0#8 ∧
    ((queueOf 40 39 5 []).push 0x7E#8).1.buf = [(39, 0x7E#8)] ∧
    (queueOf 40 4 5 []).push 0x99#8 = (queueOf 40 4 5 [], false) := by decide
/-- V5: the vacated slot keeps its byte; V8: flush writes no slot. -/
theorem test_pop_flush : (queueOf 40 3 39 []).pop.tail = 0#8 ∧ (queueOf 2 1 0 [0x11#8]).front = 0x11#8 ∧
    (queueOf 2 1 0 [0x11#8]).pop.buf = [(0, 0x11#8)] ∧ (queueOf 64 9 3 []).flush = queueOf 64 9 9 [] := by decide
/-- V9. -/
theorem test_trailer : trailerOf 0x00#8 = 0xFF#8 ∧ trailerOf 0x01#8 = 0xFE#8 ∧ trailerOf 0x40#8 = 0xBF#8 ∧
    trailerOf 0xBF#8 = 0x40#8 ∧ trailerOf 0xFF#8 = 0x00#8 := by decide

/-! ### Command operations -/

/-- The dirty state of V10, as far as INIT reads or spares it. -/
def dirty : State :=
  { lab with blk := { lab.blk with
    rxq := queueOf 64 9 3 [], txq := queueOf 40 12 10 [], rdr := 0x55#8, rxc := true, tdr := 0x77#8, txrdy := false,
    rxie := true, txie := true, err := 0x03#8 } }

/-- V10. -/
theorem test_init : (after (.init 9600#32) dirty).map (fun t =>
      ([t.blk.rxq.head, t.blk.rxq.tail, t.blk.txq.head, t.blk.txq.tail], t.blk.baud, [t.blk.rxc, t.blk.rxie, t.blk.txie]))
    = some ([0#8, 0#8, 0#8, 0#8], 9600#32, [false, true, false]) := by decide
theorem test_init_spares : (after (.init 9600#32) dirty).map (fun t => (t.blk.rdr, t.blk.tdr, t.blk.txrdy, t.blk.err))
    = some (0x55#8, 0x77#8, false, 0x03#8) := by decide
/-- V11, first line. -/
theorem test_put : (after (.put 0x41#8) lab).map (fun t => (t.blk.txq.head, t.blk.txq.tail, t.blk.txq.buf, t.blk.txie))
    = some (1#8, 0#8, [(0, 0x41#8)], true) := by decide
/-- V12: the 40th PUT holds. -/
theorem test_put_holds : (after (.put 0x27#8) (withTx (queueOf 40 39 0 []))).map (fun t => (t.fgst, t.blk.txq.head))
    = some (.hold 0 (.put 0x27#8), 39#8) := by decide
/-- V13. -/
theorem test_get : (after .get (withRx (queueOf 64 1 0 [0x31#8]))).map (fun t => (t.results, t.blk.rxq.tail))
    = some ([.bits8 0x31#8], 1#8) := by decide
/-- V16x. -/
theorem test_get_refused : (after .get lab).map (fun t => (t.refusals, t.results)) = some ([.getOnParserInstance], []) := by decide
/-- V14, V1a. -/
theorem test_avail : (after .avail (withRx (queueOf 64 5 62 []))).map State.results = some [.bits8 7#8] := by decide
/-- V16, the issue step. -/
theorem test_encode : (after (.encode 0x01#8 [0x41#8, 0x42#8]) lab).map (fun t =>
      (t.fgst, t.blk.estage, [t.blk.elink, t.blk.elen, t.blk.eidx, t.blk.txq.head], t.blk.epay))
    = some (.encode 0, .sof, [0x01#8, 0x02#8, 0#8, 0#8], [(0, 0x41#8), (1, 0x42#8)]) := by decide
/-- V21. -/
theorem test_dqClear : (after .dqClear (withParser { parserIn .payload 2#8 with dq := queueOf 256 9 3 [] })).map
    (fun t => t.blk.parser.map fun p => (p.dq.head, p.dq.tail, p.prem)) = some (some (9#8, 9#8, 2#8)) := by decide
theorem test_dqClear_refused : (after .dqClear bare).map State.refusals = some [.noParser] := by decide
theorem test_dqAvail : (after .dqAvail (withParser { parserIn .waitSOF 0#8 with dq := queueOf 256 9 3 [] })).map State.results
    = some [.bits8 6#8] := by decide
theorem test_dqGet : (after .dqGet (withParser { parserIn .waitSOF 0#8 with dq := queueOf 4 2 0 [0x41#8, 0x42#8] })).map State.results
    = some [.bits8 0x41#8] := by decide
theorem test_dqGet_holds : (after .dqGet lab).map State.fgst = some (.hold 0 .dqGet) := by decide
theorem test_dqPeek : (after (.dqPeek 1#8) (withParser { parserIn .waitSOF 0#8 with dq := queueOf 4 2 0 [0x41#8, 0x42#8] })).map
    State.results = some [.bits8 0x42#8] := by decide
theorem test_dqPeek_range : (after (.dqPeek 2#8) (withParser { parserIn .waitSOF 0#8 with dq := queueOf 4 2 0 [0x41#8, 0x42#8] })).map
    State.refusals = some [.peekRange] := by decide
theorem test_rdErr : (after .rdErr dirty).map State.results = some [.bits8 0x03#8] := by decide
/-- PSTATE = 4 and PREM = 5: the 11 bits 100 00000101 (R39). -/
theorem test_rdPstate : (after .rdPstate (withParser (parserIn .payload 5#8))).map State.results
    = some [.bits11 0b10000000101#11] := by decide
/-- PLINKV = 1 and PLINK = 0x01: the 9 bits 1 00000001 (R39). -/
theorem test_rdPlink : (after .rdPlink (withParser (parserIn .waitSOF 0#8))).map State.results
    = some [.bits9 0b100000001#9] := by decide
/-- After power-on only TXRDY (bit 3) and HAS_PARSER (bit 5) are set (R45, R39). -/
theorem test_rdCtl : (after .rdCtl lab).map State.results = some [.bits8 0b00101000#8] := by decide
theorem test_irqOn : (after .irqOn lab).map State.gie = some true := by decide
theorem test_irqOff : (after .irqOff { lab with gie := true }).map State.gie = some false := by decide
theorem test_reservedF : (after .reservedF lab).map State.refusals = some [.badOp] := by decide

/-! ### Events -/

/-- V15. -/
theorem test_lineIn : (after (.lineIn 0xA1#8) lab).map (fun t => (t.blk.rdr, t.blk.rxc)) = some (0xA1#8, true) := by decide
theorem test_lineIn_overrun : (after (.lineIn 0xA2#8) { lab with blk := { lab.blk with rdr := 0xA1#8, rxc := true } }).map
    (fun t => (t.blk.rdr, t.blk.err, t.blk.evlog)) = some (0xA1#8, 0x04#8, [.lineOvr 0xA2#8]) := by decide

/-- A byte waits in RDR and the receive interrupt is enabled. -/
def waiting (s : State) (b : Byte) : State := { s with gie := true, blk := { s.blk with rxie := true, rdr := b, rxc := true } }

/-- V14, byte 3F. -/
theorem test_rxIsr_drops : (after .rxIsr (waiting (withRx (queueOf 64 63 0 [])) 0x3F#8)).map
    (fun t => (t.blk.rxq.head, t.blk.rxc, t.blk.err, t.blk.evlog)) = some (63#8, false, 0x01#8, [.rxqDrop 0x3F#8]) := by decide
/-- V22, first row, through the receive handler. -/
theorem test_rxIsr_parses : (after .rxIsr (waiting lab 0xBF#8)).map
    (fun t => (t.blk.parser.map Parser.pstate, t.blk.rxq.head, t.blk.rxq.tail, t.blk.rxc))
    = some (some .waitLink, 1#8, 1#8, false) := by decide
/-- V11, TX_ISR with a byte and TX_ISR on the empty queue. -/
theorem test_txIsr : (after .txIsr { withTx full2 with gie := true }).map
    (fun t => (t.blk.txq.tail, t.blk.txie, t.blk.txrdy, t.blk.tdr)) = some (1#8, true, false, 0x41#8) := by decide
theorem test_txIsr_empty : (after .txIsr { withTx empty2 with gie := true }).map (fun t => (t.blk.txie, t.blk.txrdy))
    = some (false, true) := by decide
/-- V11, LINE_OUT. -/
theorem test_lineOut : (after .lineOut dirty).map (fun t => (t.blk.wireOut, t.blk.txrdy)) = some ([0x77#8], true) := by decide

/-! ### The parser -/

/-- V29: 0xBF where the trailer FE is expected is an error and a start of frame. -/
theorem test_pSof : (after .pSof (withParser { parserIn .waitSOF 0#8 with ptrailv := true })).map
    (fun t => (t.blk.parser.map Parser.pstate, t.blk.evlog)) = some (some .waitLink, [.frmErr 0xBF#8]) := by decide
/-- V22, last row: the expected trailer; V26: 0D where none is expected. -/
theorem test_pSkip : (after (.pSkip 0xFE#8) (withParser { parserIn .waitSOF 0#8 with ptrailv := true })).map
    (fun t => (t.blk.parser.map Parser.ptrailv, t.blk.err)) = some (some false, 0x00#8) := by decide
theorem test_pSkip_error : (after (.pSkip 0x0D#8) lab).map (fun t => (t.blk.err, t.blk.evlog))
    = some (0x08#8, [.frmErr 0x0D#8]) := by decide
/-- V30: 0xBF as a link id. -/
theorem test_pLink : (after (.pLink 0xBF#8) (withParser (parserIn .waitLink 0#8))).map
    (fun t => t.blk.parser.map fun p => (p.pstate, p.plink, p.plinkv)) = some (some (.waitFlags, 0xBF#8, true)) := by decide
/-- V27: the flags are ignored. -/
theorem test_pFlags : (after (.pFlags 0x7F#8) (withParser (parserIn .waitFlags 0#8))).map (fun t => t.blk.parser)
    = some (some (parserIn .waitLength 0#8)) := by decide
/-- V25: an empty frame. -/
theorem test_pLen0 : (after .pLen0 (withParser (parserIn .waitLength 0#8))).map
    (fun t => t.blk.parser.map fun p => (p.pstate, p.ptrail, p.ptrailv)) = some (some (.waitSOF, 0xFE#8, true)) := by decide
/-- V22, fourth row. -/
theorem test_pLenN : (after (.pLenN 0x02#8) (withParser (parserIn .waitLength 0#8))).map
    (fun t => t.blk.parser.map fun p => (p.pstate, p.prem)) = some (some (.payload, 2#8)) := by decide
/-- V22, sixth row; V31, the byte A4. -/
theorem test_pData : (after (.pData 0x42#8) (withParser (parserIn .payload 1#8))).map
    (fun t => t.blk.parser.map fun p => ([p.prem, p.ptrail], p.ptrailv, p.dq.buf.read 0))
    = some (some ([0#8, 0xFE#8], true, some 0x42#8)) := by decide
theorem test_pData_drops : (after (.pData 0xA4#8) (withParser { parserIn .payload 2#8 with dq := queueOf 4 3 0 [] })).map
    (fun t => (t.blk.parser.map Parser.prem, t.blk.evlog)) = some (some 1#8, [.dqDrop 0xA4#8]) := by decide
/-- R90: an empty frame on link 0x05 comes in as five bytes (V25). -/
theorem test_muxframe : (after (.muxframe 0x05#8 0x00#8 [] 0xFA#8) lab).map (fun t => t.script.length) = some 10 := by decide

/-! ### The encoder (V16, V17) -/

theorem test_eSof : (after .eSof (encoding .sof 0#8 empty2)).map (fun t => (t.blk.txq.buf, t.blk.estage))
    = some ([(0, 0xBF#8)], .link) := by decide
theorem test_eLink : (after .eLink (encoding .link 0#8 empty2)).map (fun t => (t.blk.txq.buf, t.blk.estage))
    = some ([(0, 0x01#8)], .flags) := by decide
theorem test_eFlags : (after .eFlags (encoding .flags 0#8 empty2)).map (fun t => (t.blk.txq.buf, t.blk.estage))
    = some ([(0, 0x00#8)], .len) := by decide
theorem test_eLen : (after .eLen (encoding .len 0#8 empty2)).map (fun t => (t.blk.txq.buf, t.blk.estage))
    = some ([(0, 0x02#8)], .pay) := by decide
theorem test_ePay : (after .ePay (encoding .pay 0#8 empty2)).map (fun t => (t.blk.txq.buf, t.blk.estage, t.blk.eidx))
    = some ([(0, 0x41#8)], .pay, 1#8) := by decide
theorem test_ePay_last : (after .ePay (encoding .pay 1#8 empty2)).map (fun t => (t.blk.txq.buf, t.blk.estage, t.blk.eidx))
    = some ([(0, 0x42#8)], .trl, 2#8) := by decide
theorem test_eTrl : (after .eTrl (encoding .trl 2#8 empty2)).map (fun t => (t.blk.txq.buf, t.blk.estage, t.fgst))
    = some ([(0, 0xFE#8)], .idle, .idle) := by decide
/-- V20: E_TRL holds on the full queue. -/
theorem test_eTrl_holds : (after .eTrl (encoding .trl 2#8 full2)).map (fun t => (t.blk.txq, t.blk.estage))
    = some (full2, .trl) := by decide

/-! ### Witnesses: states and operands that meet the hypotheses of the statements, at the boundaries of their clauses -/

theorem witness_DecodeOfEncodeIsTheInstruction :
    (Instr.muxframe 0x40#8 0xFF#8 [0xBF#8] 0x00#8).wellFormed = true ∧ (Instr.pLenN 0x01#8).wellFormed = true := by decide

theorem witness_CommandWordIsDeterminedByItsInstruction :
    decode (.command 20 0b00000000_11111111_0100) = .ok (.encode 0xFF#8 []) ∧ Instr.encode 0xFF#8 [] ≠ .reservedF := ⟨rfl, by decide⟩

theorem witness_DecodedInstructionIsWellFormed : decode (.parserByte 0#3 0x00#8) = .ok (.pSkip 0x00#8) := rfl

/-- V2 and V3: the last slot, full and with room. -/
theorem witness_PushStoresAtOldHeadOrDrops :
    (queueOf 40 39 0 []).Ok ∧ (39 + 1) % 40 = (queueOf 40 39 0 []).tail.toNat ∧
    (queueOf 40 39 5 []).Ok ∧ (39 + 1) % 40 ≠ (queueOf 40 39 5 []).tail.toNat := by decide

/-- V5: tail wraps. -/
theorem witness_PopReadsAtTailAndAdvances :
    (queueOf 40 3 39 []).Ok ∧ (queueOf 40 3 39 []).head ≠ (queueOf 40 3 39 []).tail := by decide

/-- The smallest queue and the largest. -/
theorem witness_QueueIsFirstInFirstOut : empty2.Ok ∧ (queueOf 256 255 0 []).Ok := by decide

theorem witness_InitResetsBothQueuesAndTheLine : dirty.fgst = .idle := rfl

theorem witness_PutEnqueuesOrHolds :
    lab.fgst = .idle ∧ lab.blk.txq.full = false ∧
    ({ withTx full2 with fgst := .hold 0 (.put 0x42#8) } : State).fgst = .hold (withTx full2).portNo (.put 0x42#8) ∧
    (withTx full2).blk.txq.full = true := by decide

theorem witness_GetDequeuesOrHolds :
    bare.fgst = .idle ∧ bare.blk.parser = none ∧ bare.blk.rxq.head = bare.blk.rxq.tail ∧
    (withRx full2).blk.parser = none ∧ (withRx full2).blk.rxq.head ≠ (withRx full2).blk.rxq.tail ∧
    ({ withRx full2 with fgst := .hold 0 .get } : State).fgst = .hold (withRx full2).portNo .get := by decide

/-- A parser in WaitSOF whose de-framed queue holds one byte and is full. -/
def fullDq : Parser := { parserIn .waitSOF 0#8 with dq := full2 }

theorem witness_DqGetDequeuesOrHolds :
    (withParser fullDq).fgst = .idle ∧ (withParser fullDq).blk.parser = some fullDq ∧ fullDq.dq.head ≠ fullDq.dq.tail ∧
    (withParser (parserIn .waitSOF 0#8)).blk.parser = some (parserIn .waitSOF 0#8) ∧
    (parserIn .waitSOF 0#8).dq.head = (parserIn .waitSOF 0#8).dq.tail := by decide

theorem witness_DqClearMovesTailToHead : (withParser fullDq).fgst = .idle ∧ (withParser fullDq).blk.parser = some fullDq := by decide

/-- The last byte that can be peeked at. -/
theorem witness_QueueReadsReturnAndChangeNothing :
    (withParser fullDq).fgst = .idle ∧ (withParser fullDq).blk.parser = some fullDq ∧ (0#8).toNat < fullDq.dq.occ := by decide

theorem witness_StatusReadsReturnAndChangeNothing :
    (withParser fullDq).fgst = .idle ∧ (withParser fullDq).blk.parser = some fullDq := by decide

theorem witness_RdCtlReturnsTheFlagsBitByBit : dirty.fgst = .idle := rfl

theorem witness_IrqOffAndOnWriteGie : lab.fgst = .idle := rfl

/-- The first offset that is refused is the occupancy. -/
theorem witness_RefusedOperationOnlyMarksTheRun :
    bare.fgst = .idle ∧ bare.blk.parser = none ∧ lab.fgst = .idle ∧ lab.blk.parser.isSome = true ∧
    (withParser fullDq).blk.parser = some fullDq ∧ fullDq.dq.occ ≤ (1#8).toNat := by decide

/-- An encoding foreground and an ENCODE; a holding one and another PUT; a holding one and a stage. -/
theorem witness_BusyForegroundIssuesNothing :
    ((encoding .sof 0#8 empty2).fgst ≠ .idle ∧ (Instr.encode 0#8 []).wellFormed = true ∧ (Instr.encode 0#8 []).role = .port ∧
      ∀ op, (encoding .sof 0#8 empty2).fgst = .hold (encoding .sof 0#8 empty2).portNo op → Instr.encode 0#8 [] ≠ op.instr) ∧
    (∀ op, FgState.hold 0 (.put 0x41#8) = .hold 0 op → Instr.put 0x42#8 ≠ op.instr) ∧
    ({ lab with fgst := .hold 0 (.put 0x41#8) } : State).portNo = 0 ∧
    ({ lab with fgst := .hold 0 (.put 0x41#8) } : State).fgst ≠ .encode 0 ∧ Instr.eSof.role = .stage :=
  ⟨⟨by decide, by decide, by decide, by intro op h; simp [encoding] at h⟩, by intro op h; cases h; decide, rfl, by simp, rfl⟩

theorem witness_LineInFillsRdrOrOverruns : lab.blk.rxc = false ∧ dirty.blk.rxc = true := by decide

theorem witness_RxIsrStoresOrDrops :
    (waiting bare 0x31#8).gie = true ∧ (waiting bare 0x31#8).blk.rxie = true ∧ (waiting bare 0x31#8).blk.rxc = true ∧
    (waiting bare 0x31#8).blk.parser = none ∧ (waiting bare 0x31#8).blk.rxq.full = false ∧
    (waiting (withRx full2) 0x31#8).blk.parser = none ∧ (waiting (withRx full2) 0x31#8).blk.rxq.full = true := by decide

theorem witness_RxIsrParsesTheByteOnce :
    (waiting lab 0xBF#8).gie = true ∧ (waiting lab 0xBF#8).blk.rxie = true ∧ (waiting lab 0xBF#8).blk.rxc = true ∧
    (waiting lab 0xBF#8).blk.parser = some (Parser.powerOn 0 Config.moduleChannel) ∧ (waiting lab 0xBF#8).blk.rxq.Ok ∧
    (waiting lab 0xBF#8).blk.rxq.head = (waiting lab 0xBF#8).blk.rxq.tail ∧
    decode (.parserByte (Parser.powerOn 0 Config.moduleChannel).pstate.code (waiting lab 0xBF#8).blk.rdr) = .ok .pSof :=
  ⟨rfl, rfl, rfl, rfl, by decide, rfl, rfl⟩

/-- With the transmit interrupt enabled. -/
def sending (q : Queue) : State := { withTx q with gie := true }

theorem witness_TxIsrLoadsTdrOrDisables :
    (sending full2).gie = true ∧ (sending full2).blk.txie = true ∧ (sending full2).blk.txrdy = true ∧
    (sending full2).blk.txq.head ≠ (sending full2).blk.txq.tail ∧
    (sending empty2).blk.txq.head = (sending empty2).blk.txq.tail := by decide

theorem witness_LineOutTakesTdr : dirty.blk.txrdy = false := rfl

theorem witness_DisabledEventChangesNothing : lab.gie = false ∧ lab.blk.rxie = false ∧ lab.blk.txie = false ∧ lab.blk.txrdy = true := by
  decide

theorem witness_EncodeIssueLatchesTheFrame : lab.fgst = .idle ∧ ([0x41#8, 0x42#8] : List Byte).length ≤ 255 := by decide

theorem witness_HeaderAndTrailerStagesPushTheirByte :
    (encoding .sof 0#8 empty2).fgst = .encode (encoding .sof 0#8 empty2).portNo ∧ empty2.full = false ∧
    ∀ st ∈ [Stage.sof, .link, .flags, .len, .trl],
      (encoding st 0#8 empty2).blk.estage = st ∧ (encoding st 0#8 empty2).blk.txq = empty2 := by decide

/-- The first payload byte of two, and the last. -/
theorem witness_PayloadStagePushesTheNextByte :
    (encoding .pay 0#8 empty2).fgst = .encode (encoding .pay 0#8 empty2).portNo ∧ (encoding .pay 0#8 empty2).blk.estage = .pay ∧
    (encoding .pay 0#8 empty2).blk.txq.full = false ∧ (encoding .pay 1#8 full2).blk.txq.full = true ∧
    (encoding .pay 0#8 empty2).blk.eidx < (encoding .pay 0#8 empty2).blk.elen ∧
    (encoding .pay 1#8 empty2).blk.eidx < (encoding .pay 1#8 empty2).blk.elen := by decide

theorem witness_StagesHoldWhileTxqIsFull :
    (encoding .trl 2#8 full2).fgst = .encode (encoding .trl 2#8 full2).portNo ∧ (encoding .trl 2#8 full2).blk.txq.full = true := by
  decide

/-- The largest frame that fits: 33 payload bytes leave one slot of TX_CAP = 40 free and 34 none (V20). -/
theorem witness_EncodeQueuesExactlyTheFrame :
    lab.fgst = .idle ∧ lab.blk.txq.Ok ∧ lab.blk.txq.occ + (5 + (List.replicate 34 0x00#8).length) + 1 ≤ lab.blk.txq.cap ∧
    (List.replicate 34 0x00#8).length ≤ 255 ∧
    (encode (.encode 0x01#8 (List.replicate 34 0x00#8)) = .command 292 (4 + 16 * 1 + 4096 * 34)) ∧
    (∃ s : State, s.fgst = .idle ∧ s.blk = lab.blk ∧ s.program = [⟨s.portNo, 292, 4 + 16 * 1 + 4096 * 34⟩] ∧
      s.script = List.replicate (6 + 34) (.agent .fg) ++ []) :=
  ⟨rfl, by decide, by decide, by decide, by decide,
    { lab with program := [⟨0, 292, 4 + 16 * 1 + 4096 * 34⟩], script := List.replicate (6 + 34) (.agent .fg) ++ [] },
    rfl, rfl, rfl, rfl⟩

/-- A trailer expected, none expected, the expected trailer 0xBF of link 0x40. -/
theorem witness_WaitSofTakesOnlyTheStartByte :
    (withParser (parserIn .waitSOF 0#8)).blk.parser = some (parserIn .waitSOF 0#8) ∧ (parserIn .waitSOF 0#8).pstate = .waitSOF ∧
    ({ parserIn .waitSOF 0#8 with ptrailv := true, ptrail := 0xBF#8 } : Parser).pstate = .waitSOF ∧ (0xFE#8 : Byte) ≠ 0xBF#8 := by
  decide

theorem witness_HeaderBytesStoreTheLinkAndSkipTheFlags :
    (withParser (parserIn .waitLink 0#8)).blk.parser = some (parserIn .waitLink 0#8) ∧ (parserIn .waitLink 0#8).pstate = .waitLink ∧
    (withParser (parserIn .waitFlags 0#8)).blk.parser = some (parserIn .waitFlags 0#8) ∧
    (parserIn .waitFlags 0#8).pstate = .waitFlags := by decide

theorem witness_LengthByteStartsThePayloadOrEndsTheFrame :
    (withParser (parserIn .waitLength 0#8)).blk.parser = some (parserIn .waitLength 0#8) ∧
    (parserIn .waitLength 0#8).pstate = .waitLength ∧ (0x01#8 : Byte) ≠ 0#8 := by decide

/-- The last byte of a payload and one before it, with room in DQ and without. -/
theorem witness_PayloadByteIsCountedStoredOrDropped :
    (withParser (parserIn .payload 1#8)).blk.parser = some (parserIn .payload 1#8) ∧ (parserIn .payload 1#8).pstate = .payload ∧
    (parserIn .payload 1#8).dq.full = false ∧ (parserIn .payload 2#8).pstate = .payload ∧
    ({ parserIn .payload 2#8 with dq := full2 } : Parser).dq.full = true := by decide

/-- Two frames, one of them empty, that fill DQ to its last slot. -/
theorem witness_WellFormedStreamIsDeframed :
    lab.blk.parser = some (Parser.powerOn 0 Config.moduleChannel) ∧ (parserIn .waitSOF 0#8).Ok ∧
    (parserIn .waitSOF 0#8).pstate = .waitSOF ∧ (parserIn .waitSOF 0#8).ptrailv = false ∧
    (withParser (parserIn .waitSOF 0#8)).blk.parser = some (parserIn .waitSOF 0#8) ∧
    (∀ f ∈ [WireFrame.mk 0x01#8 0x7F#8 [0xBF#8, 0x42#8, 0x43#8], ⟨0x05#8, 0x00#8, []⟩],
      f.link ≠ 0x40#8 ∧ f.payload.length ≤ 255) ∧
    (parserIn .waitSOF 0#8).dq.occ +
      ([WireFrame.mk 0x01#8 0x7F#8 [0xBF#8, 0x42#8, 0x43#8], ⟨0x05#8, 0x00#8, []⟩].flatMap WireFrame.payload).length + 1
        ≤ (parserIn .waitSOF 0#8).dq.cap := by decide

/-- V24, the first frame. -/
theorem witness_LinkFortyLeavesTheParserInWaitLink :
    (withParser (parserIn .waitSOF 0#8)).blk.parser = some (parserIn .waitSOF 0#8) ∧ (parserIn .waitSOF 0#8).Ok ∧
    (parserIn .waitSOF 0#8).pstate = .waitSOF ∧ (parserIn .waitSOF 0#8).ptrailv = false ∧
    (WireFrame.mk 0x40#8 0x00#8 [0xAA#8]).link = 0x40#8 ∧ (WireFrame.mk 0x40#8 0x00#8 [0xAA#8]).payload.length ≤ 255 ∧
    (parserIn .waitSOF 0#8).dq.occ + (WireFrame.mk 0x40#8 0x00#8 [0xAA#8]).payload.length + 1 ≤ (parserIn .waitSOF 0#8).dq.cap := by
  decide

/-- The parser that is farthest from WaitSOF. -/
theorem witness_ParserReturnsToWaitSofInBoundedBytes :
    (withParser (parserIn .waitLink 0#8)).blk.parser = some (parserIn .waitLink 0#8) ∧ (parserIn .waitLink 0#8).Ok ∧
    (List.replicate 258 0xFF#8).length = 258 :=
  ⟨by decide, by decide, List.length_replicate⟩

/-- Two systems that differ in ERR, the event log and the shadow, and an instruction both answer. -/
theorem witness_ObservationNeverFeedsBack :
    Instr.pSof ≠ .rdErr ∧ (withParser (parserIn .waitSOF 0#8)).lessShadow =
      ({ withParser { parserIn .waitSOF 0#8 with ptrailv := true } with
        blk := { lab.blk with err := 0x08#8, evlog := [.frmErr 0#8], parser := some { parserIn .waitSOF 0#8 with ptrailv := true } } } :
        State).lessShadow ∧
    ∃ t, exec .pSof (withParser (parserIn .waitSOF 0#8)) = .next t := ⟨by decide, by decide, _, rfl⟩

/-- A block of `waiting lab` with no byte in RDR, a frame on the line (S2). -/
def receiving : State :=
  { lab with
    gie := true
    blk := { lab.blk with rxie := true, parser := some (parserIn .waitSOF 0#8) }
    script := [.wire 0 (frameBytes 0x01#8 [0x41#8, 0x42#8, 0x43#8])] }

theorem witness_EncodedFrameIsReceivedAsItsPayload :
    receiving.gie = true ∧ receiving.blk.rxie = true ∧ receiving.blk.rxc = false ∧
    receiving.blk.parser = some (parserIn .waitSOF 0#8) ∧ receiving.blk.rxq.Ok ∧
    receiving.blk.rxq.head = receiving.blk.rxq.tail ∧ (parserIn .waitSOF 0#8).Ok ∧ (parserIn .waitSOF 0#8).pstate = .waitSOF ∧
    (parserIn .waitSOF 0#8).ptrailv = false ∧ (0x01#8 : Byte) ≠ 0x40#8 ∧ ([0x41#8, 0x42#8, 0x43#8] : List Byte).length ≤ 255 ∧
    (parserIn .waitSOF 0#8).dq.occ + ([0x41#8, 0x42#8, 0x43#8] : List Byte).length + 1 ≤ (parserIn .waitSOF 0#8).dq.cap ∧
    receiving.script = [.wire receiving.portNo (frameBytes 0x01#8 [0x41#8, 0x42#8, 0x43#8])] := by decide

/-- The reset system with a command for port 1, the last. -/
def issuing : State := { State.reset with program := [⟨1, 4, 0x6⟩], script := [.agent .fg] }

theorem witness_StepRunsTheDecodedCommand :
    issuing.script = [.agent .fg] ∧ issuing.fgst = .idle ∧ issuing.program = [⟨1, 4, 0x6⟩] ∧
    decode (.command 4 0x6) = .ok .dqAvail ∧
    ∃ u, ({ issuing with script := [], program := [] } : State).select 1 = some u := ⟨rfl, rfl, rfl, rfl, _, rfl⟩

theorem witness_StepRunsTheEnabledEvent :
    (∃ u, ({ State.reset with script := [] } : State).select 1 = some u) ∧
    ({ State.reset with script := [.agent (.rxh 1)] } : State).script = [.agent (.rxh 1)] ∧
    decode (.wire [0xBF#8, 0x05#8, 0x00#8, 0x00#8, 0xFA#8]) = .ok (.muxframe 0x05#8 0x00#8 [] 0xFA#8) := ⟨⟨_, rfl⟩, rfl, rfl⟩

theorem witness_StepRetriesTheHeldOperationOrStage :
    (∃ u, ({ State.reset with fgst := .hold 1 .dqGet, script := [] } : State).select 1 = some u) ∧
    (∃ u, (encoding .trl 2#8 full2).select 0 = some u ∧ decode (.stage u.blk.estage.code) = .ok .eTrl) :=
  ⟨⟨_, rfl⟩, _, rfl, rfl⟩

theorem witness_SelectingABlockChangesNoBlock : ∃ u, State.reset.select 1 = some u := ⟨_, rfl⟩

/-- A held PUT on a full queue, with interrupts on or off. -/
def holding (gie : Bool) : State := { withTx full2 with gie := gie, fgst := .hold 0 (.put 0x42#8), script := [.agent (.txh 0)] }

theorem witness_EveryStepKeepsTheInvariants : (holding true).Ok ∧ ∃ t, step (holding true) = .next t := ⟨by decide, _, rfl⟩

/-- Every capacity at its least, and at its greatest (R5, R6). -/
theorem witness_InvariantsHoldAfterReset :
    (BlockParams.mk 64 2 2 true).Legal ∧ ∀ p ∈ [BlockParams.mk 256 256 256 false], p.Legal := by decide

theorem witness_ErrorsAndHistoriesOnlyGrow : ∃ t, exec (.lineIn 0x01#8) dirty = .next t := ⟨_, rfl⟩

theorem witness_AtMostOneEventPerStep :
    (waiting lab 0x0D#8).Ok ∧ ∃ t, exec .rxIsr (waiting lab 0x0D#8) = .next t := ⟨by decide, _, rfl⟩

theorem witness_OnlyIrqOffAndOnWriteGie : Instr.rdCtl ≠ .irqOff ∧ Instr.rdCtl ≠ .irqOn ∧ ∃ t, exec .rdCtl lab = .next t :=
  ⟨by decide, by decide, _, rfl⟩

theorem witness_OtherBlocksAreUntouched : (0 : Nat) ≠ issuing.portNo + 1 ∧ ∃ t, exec .irqOn issuing = .next t := ⟨by decide, _, rfl⟩

/-- TX_ISR meets every premise but those on TXQ.tail and TDR, and on the changes of TXRDY (to 0) and TXIE; E_TRL changes ESTAGE, TXIE
and FGST. -/
theorem witness_EachRegisterHasItsWriters :
    (∀ baud, Instr.txIsr ≠ .init baud) ∧ (∀ b, Instr.txIsr ≠ .put b) ∧ Instr.txIsr.role ≠ .stage ∧ Instr.txIsr.role ≠ .byteClass ∧
    Instr.txIsr ≠ .dqGet ∧ (∀ b, Instr.txIsr ≠ .lineIn b) ∧ (∀ l pl, Instr.txIsr ≠ .encode l pl) ∧
    (∃ t, exec .txIsr (sending full2) = .next t ∧ t.blk.txrdy ≠ (sending full2).blk.txrdy) ∧
    ∃ t, exec .eTrl (encoding .trl 2#8 empty2) = .next t ∧ t.fgst ≠ (encoding .trl 2#8 empty2).fgst ∧
      t.blk.estage ≠ (encoding .trl 2#8 empty2).blk.estage :=
  ⟨by simp, by simp, by decide, by decide, by simp, by simp, by simp, ⟨_, rfl, by decide⟩, _, rfl, by decide, by decide⟩

/-- The other premises of a change: LINE_IN sets RXC, a line overrun changes ERR, GET moves RXQ.tail. -/
theorem witness_EachRegisterHasItsWriters_line :
    (∃ t, exec (.lineIn 0x41#8) lab = .next t ∧ t.blk.rxc ≠ lab.blk.rxc) ∧
    (∃ t, exec (.lineIn 0x41#8) dirty = .next t ∧ t.blk.err ≠ dirty.blk.err) ∧
    (∃ t, exec .get (withRx full2) = .next t ∧ t.blk.rxq.tail ≠ (withRx full2).blk.rxq.tail) ∧
    ∃ t, exec (.put 0x41#8) lab = .next t ∧ t.blk.txie ≠ lab.blk.txie :=
  ⟨⟨_, rfl, by decide⟩, ⟨_, rfl, by decide⟩, ⟨_, rfl, by decide⟩, _, rfl, by decide⟩

theorem witness_OnlyTheOldHeadSlotIsStored :
    (withTx empty2).Ok ∧ ∃ t, exec (.put 0x41#8) (withTx empty2) = .next t ∧ t.blk.txq.buf ≠ (withTx empty2).blk.txq.buf :=
  ⟨by decide, _, rfl, by decide⟩

theorem witness_TransmitStreamGrowsOnlyByPushedBytes :
    (encoding .pay 1#8 empty2).Ok ∧ (∀ baud, Instr.ePay ≠ .init baud) ∧ ∃ t, exec .ePay (encoding .pay 1#8 empty2) = .next t :=
  ⟨by decide, by simp, _, rfl⟩

theorem witness_DqCountOnlyGrowsUntilConsumed :
    (withParser (parserIn .payload 1#8)).Ok ∧ (∃ t, exec (.pData 0x41#8) (withParser (parserIn .payload 1#8)) = .next t) ∧
    Instr.pData 0x41#8 ≠ .dqGet ∧ Instr.pData 0x41#8 ≠ .dqClear ∧
    (withParser (parserIn .payload 1#8)).blk.parser = some (parserIn .payload 1#8) := ⟨by decide, ⟨_, rfl⟩, by simp, by simp, rfl⟩

/-- R282: a turn that is left over and passes does not keep a run from being over; only the free turns are open (log entry 1). -/
theorem test_final_reset (h : ∀ n, Turn.delivers 2 (.agent (Config.freeTurn n)) = false) :
    ({ State.reset with script := [.agent (.txh 0), .agent .fg] } : State).Final :=
  ⟨by decide, by decide, fun n _ => h n⟩

/-- R282: a byte still to be delivered, a holding foreground, a marked run: the run is not over. -/
theorem test_final_not :
    ¬ ({ State.reset with script := [.agent (.lin 0 0x41#8)] } : State).Final ∧
    ¬ ({ State.reset with fgst := .hold 0 .get } : State).Final ∧
    ¬ ({ State.reset with refusals := [.badOp] } : State).Final :=
  ⟨fun h => absurd h.2.1 (by decide), fun h => absurd h.1 (by decide), fun h => absurd h.1 (by decide)⟩

theorem witness_HandlerStateIsStableWithGieOff :
    ({ lab with script := [.agent (.lin 0 0x41#8)] } : State).gie = false ∧
    ∃ t, step ({ lab with script := [.agent (.lin 0 0x41#8)] } : State) = .next t := ⟨rfl, _, rfl⟩

/-- A held PUT, and E_TRL (V20). -/
theorem witness_WaitingForRoomWithGieOffHangs :
    (holding false).gie = false ∧ (holding false).fgst = .hold 0 (.put 0x42#8) ∧
    (∃ u, (holding false).select 0 = some u ∧ u.blk.txq.full = true) ∧
    (encoding .trl 2#8 full2).gie = false ∧ (encoding .trl 2#8 full2).fgst = .encode 0 ∧
    ∃ u, (encoding .trl 2#8 full2).select 0 = some u ∧ u.blk.txq.full = true :=
  ⟨rfl, rfl, ⟨_, rfl, by decide⟩, rfl, rfl, _, rfl, by decide⟩

/-- GET and DQ_GET before any INIT, with GIE = 0 and with GIE = 1 (R262); no byte waits in RDR. -/
theorem witness_WaitingForDataThatCannotComeHangs :
    (∃ u, ({ bare with fgst := .hold 0 .get } : State).select 0 = some u ∧ u.blk.rxie = false ∧ u.blk.rxc = false ∧
      u.blk.parser = none ∧ u.blk.rxq.head = u.blk.rxq.tail) ∧
    (∃ u, ({ withParser (parserIn .waitSOF 0#8) with gie := true, fgst := .hold 0 .dqGet } : State).select 0 = some u ∧
      u.blk.rxie = false ∧ u.blk.rxc = false ∧ u.blk.parser = some (parserIn .waitSOF 0#8)) ∧
    bare.gie = false ∧ (parserIn .waitSOF 0#8).dq.head = (parserIn .waitSOF 0#8).dq.tail :=
  ⟨⟨_, rfl, rfl, rfl, rfl, rfl⟩, ⟨_, rfl, rfl, rfl, rfl⟩, rfl, rfl⟩

/-- R237: a hang is what no possible step can lift, whatever the schedule at hand; with GIE = 1 the TX_ISR that could come next
lifts the held PUT. -/
theorem test_not_hung (ts : List Turn) : ¬ ({ holding true with script := ts } : State).Hung := by
  intro h
  obtain ⟨t, u, h1, h2, h3⟩ : ∃ t u, step { holding true with script := [.agent (.txh 0)] } = .next t ∧
      step { t with script := [.agent .fg] } = .next u ∧ u.fgst = .idle := ⟨_, _, rfl, rfl, rfl⟩
  have e := congrArg Prod.fst (h.2 u (.next (.agent .fg) (.next (.agent (.txh 0)) .here trivial h1) trivial h2))
  exact absurd (h3.symm.trans e) (by simp [State.progress, holding])

/-- R95, R124: bytes that form no frame, and noise, are delivered like any others. -/
theorem test_wire_noise :
    (stepped { lab with script := [.wire 0 [0xBF#8, 0x41#8]] }).map State.script =
      some [.agent (.lin 0 0xBF#8), .agent (.rxh 0), .agent (.lin 0 0x41#8), .agent (.rxh 0)] ∧
    (stepped { lab with script := [.wire 9 [0x41#8]] }).map State.script = some [] := by decide

theorem witness_HeldPutIsLiftedByOneTxIsr :
    (holding true).Ok ∧ (holding true).fgst = .hold (holding true).portNo (.put 0x42#8) ∧ (holding true).blk.txq.full = true ∧
    (holding true).gie = true ∧ (holding true).blk.txrdy = true := ⟨by decide, rfl, by decide, rfl, rfl⟩

/-! A weakly fair run with a held PUT: its script sends both bytes; after it no step of a handler or of the line out is ever
enabled, whatever the free turns are. -/

/-- The run of a machine that never stops. -/
def follow (s : State) : Nat → State
  | 0 => s
  | n + 1 => (stepped (follow s n)).getD (follow s n)

def fairStart : State :=
  { holding true with
    script := [.agent (.txh 0), .agent .fg, .agent (.lout 0), .agent (.txh 0), .agent (.lout 0), .agent (.txh 0)] }

/-- One block, nothing to issue, nothing to send, the receive interrupt off. -/
abbrev Spent (s : State) : Prop :=
  s.below = [] ∧ s.above = [] ∧ s.program = [] ∧ s.script = [] ∧ s.fgst = .idle ∧ s.blk.txie = false ∧ s.blk.txrdy = true ∧
  s.blk.rxie = false

theorem spent_select {s u : State} {k : Nat} (h : Spent s) (hs : s.select k = some u) : u = s := by
  obtain ⟨h1, h2, h3, h4⟩ := select_spec hs
  have hb : s.blocks = [s.blk] := by simp [State.blocks, h.1, h.2.1]
  cases k with
  | zero =>
    have e : s.portNo = 0 := by simp [State.portNo, h.1]
    rw [← e, select_portNo] at hs
    simpa using hs.symm
  | succ k => rw [hb] at h3; simp at h3

theorem spent_enables {s : State} (h : Spent s) (a : Agent) (ha : isHardware a = true) : s.enables a = false := by
  have key : ∀ k (f : State → Bool), f s = false → (s.select k).any f = false := by
    intro k f hf
    cases hs : s.select k with
    | none => rfl
    | some u => rw [spent_select h hs]; simpa using hf
  cases a with
  | fg => simp [isHardware] at ha
  | rxh k => exact key k _ (by simp [State.rxEnabled, h.2.2.2.2.2.2.2])
  | txh k => exact key k _ (by simp [State.txEnabled, h.2.2.2.2.2.1])
  | lin k b => simp [isHardware] at ha
  | lout k => exact key k _ (by simp [State.outEnabled, h.2.2.2.2.2.2.1])

theorem spent_step {s : State} (h : Spent s) : ∃ t, step s = .next t ∧ Spent t := by
  obtain ⟨h1, h2, h3, h4, h5, h6, h7, h8⟩ := h
  have pass : ∀ k f, (∀ u : State, u.blk = s.blk → ∃ e, decode (f u) = .error e) →
      ({ s with tick := s.tick + 1 } : State).fetchAt k f = .pass { s with tick := s.tick + 1 } := by
    intro k f hf
    rcases fetchAt_cases ({ s with tick := s.tick + 1 } : State) k f with e | ⟨u, i, e1, e2, _⟩
    · exact e
    · have hu := spent_select (s := { s with tick := s.tick + 1 }) ⟨h1, h2, h3, h4, h5, h6, h7, h8⟩ e1
      obtain ⟨e, he⟩ := hf u (by rw [hu])
      rw [he] at e2
      cases e2
  have turn : s.nextTurn = (.agent (Config.freeTurn s.tick), { s with tick := s.tick + 1 }) := by simp [State.nextTurn, h4]
  unfold step State.fetch
  rw [turn]
  cases Config.freeTurn s.tick with
  | fg =>
    exact ⟨{ s with tick := s.tick + 1 }, by simp [State.fetchTurn, State.fetchForeground, h5, State.fetchCommand, h3],
      h1, h2, h3, h4, h5, h6, h7, h8⟩
  | rxh k =>
    refine ⟨{ s with tick := s.tick + 1 }, ?_, h1, h2, h3, h4, h5, h6, h7, h8⟩
    simp only [State.fetchTurn]
    rw [pass k _ fun u hu => ⟨.vectorNotEnabled, by
      simp only [decode, State.rxVector, hu, h8]
      cases u.gie <;> cases s.blk.rxc <;> rfl⟩]
  | txh k =>
    refine ⟨{ s with tick := s.tick + 1 }, ?_, h1, h2, h3, h4, h5, h6, h7, h8⟩
    simp only [State.fetchTurn]
    rw [pass k _ fun u hu => ⟨.vectorNotEnabled, by
      simp only [decode, State.txVector, hu, h6]
      cases u.gie <;> cases s.blk.txrdy <;> rfl⟩]
  | lout k =>
    refine ⟨{ s with tick := s.tick + 1 }, ?_, h1, h2, h3, h4, h5, h6, h7, h8⟩
    simp only [State.fetchTurn]
    rw [pass k _ fun u hu => ⟨.vectorNotEnabled, by simp only [decode, State.outVector, hu, h7]; rfl⟩]
  | lin k b =>
    simp only [State.fetchTurn, State.fetchAt]
    cases hs : ({ s with tick := s.tick + 1 } : State).select k with
    | none => exact ⟨_, rfl, h1, h2, h3, h4, h5, h6, h7, h8⟩
    | some u =>
      have hu := spent_select (s := { s with tick := s.tick + 1 }) ⟨h1, h2, h3, h4, h5, h6, h7, h8⟩ hs
      subst hu
      refine ⟨_, rfl, h1, h2, h3, h4, h5, ?_⟩
      rcases lineDelivers_cases b s.blk with ⟨_, e⟩ | ⟨_, e⟩ <;> simp only [setBlk_blk, e] <;> exact ⟨h6, h7, h8⟩

theorem fair_spent : ∀ n, Spent (follow fairStart (6 + n))
  | 0 => by decide
  | n + 1 => by
    obtain ⟨t, h1, h2⟩ := spent_step (fair_spent n)
    have e : follow fairStart (6 + (n + 1)) = t := by
      show (stepped (follow fairStart (6 + n))).getD (follow fairStart (6 + n)) = t
      simp [stepped, h1]
    rw [e]
    exact h2

theorem fair_isRun : IsRun (follow fairStart)
  | 0 => rfl
  | 1 => rfl
  | 2 => rfl
  | 3 => rfl
  | 4 => rfl
  | 5 => rfl
  | n + 6 => by
    obtain ⟨t, h1, _⟩ := spent_step (fair_spent n)
    rw [Nat.add_comm 6 n] at h1
    have e : follow fairStart (n + 6 + 1) = t := by
      show (stepped (follow fairStart (n + 6))).getD (follow fairStart (n + 6)) = t
      simp [stepped, h1]
    rw [e]
    exact h1

theorem witness_FairRunMakesRoomForAHeldPut :
    IsRun (follow fairStart) ∧ WeaklyFair (follow fairStart) ∧ (follow fairStart 0).Ok ∧ (follow fairStart 0).gie = true ∧
    (follow fairStart 0).fgst = .hold 0 (.put 0x42#8) := by
  refine ⟨fair_isRun, fun a ha n hn => ?_, by decide, rfl, rfl⟩
  have h1 := hn (6 + n) (by omega)
  rw [spent_enables (fair_spent n) a ha] at h1
  exact absurd h1 (by simp)

end Sys2Proof.Tests
end

section
/-! What a turn of the script comes to: the fetch of a scripted turn, the foreground's fetch when it is idle, and the step that
runs what was fetched. -/

namespace Sys2Proof.Machine

/-- With a turn at the head of the script, that turn is the one fetched, in the state without it (log entry 1). -/
theorem fetch_of_script {s : State} {t : Turn} {ts : List Turn} (h : s.script = t :: ts) :
    s.fetch = ({ s with script := ts } : State).fetchTurn t := by
  simp only [State.fetch, State.nextTurn, h]

/-- A turn that comes to an instruction is that instruction's step (R9, R70). -/
theorem step_of_fetch_run {s u : State} {i : Instr} (h : s.fetch = .run i u) : step s = exec i u := by
  simp only [step, h]

/-- The idle foreground's turn is its next command (R100). -/
theorem fetchTurn_fg_of_idle {s : State} (h : s.fgst = .idle) : s.fetchTurn (.agent .fg) = s.fetchCommand := by
  simp only [State.fetchTurn, State.fetchForeground, h]

/-- A command word on the port of a block that exists comes to the instruction it decodes to, at that block (R100). -/
theorem fetchCommand_of_decode {s u : State} {c : Command} {cs : List Command} {i : Instr} (hprog : s.program = c :: cs)
    (hsel : ({ s with program := cs } : State).select c.port = some u) (hdec : decode (.command c.width c.bits) = .ok i) :
    s.fetchCommand = .run i u := by
  simp only [State.fetchCommand, hprog, hsel, hdec]

/-- Settles O41: the scripted turn is the foreground's, the idle foreground presents its next word, and the word's instruction
is the step. -/
theorem stepRunsTheDecodedCommand : Obligations.StepRunsTheDecodedCommand := by
  intro s u ts c cs i hscript hidle hprog hdec hsel
  apply step_of_fetch_run
  calc s.fetch
    _ = ({ s with script := ts } : State).fetchTurn (.agent .fg) := fetch_of_script hscript
    _ = ({ s with script := ts } : State).fetchCommand := fetchTurn_fg_of_idle hidle
    _ = .run i u := fetchCommand_of_decode hprog hsel hdec

end Sys2Proof.Machine
end

section
/-! Observation never feeds back (10_state.md R32, R33; 60_exceptions.md R232). Taking the shadow, the error flags and the event
log away commutes with every operation but RD_ERR: what a state answers, less observation, is what the state less observation
answers, less observation. The operations of this kind are called blind; blindness is proved once for each shared operation. -/

namespace Sys2Proof.Machine

/-! ### What taking observation away leaves -/

@[simp] theorem Parser.lessShadow_dq (p : Parser) : p.lessShadow.dq = p.dq := rfl
@[simp] theorem Parser.lessShadow_pstate (p : Parser) : p.lessShadow.pstate = p.pstate := rfl
@[simp] theorem Parser.lessShadow_prem (p : Parser) : p.lessShadow.prem = p.prem := rfl

@[simp] theorem Block.lessShadow_rxq (b : Block) : b.lessShadow.rxq = b.rxq := rfl
@[simp] theorem Block.lessShadow_txq (b : Block) : b.lessShadow.txq = b.txq := rfl
@[simp] theorem Block.lessShadow_rxc (b : Block) : b.lessShadow.rxc = b.rxc := rfl
@[simp] theorem Block.lessShadow_txrdy (b : Block) : b.lessShadow.txrdy = b.txrdy := rfl
@[simp] theorem Block.lessShadow_rxie (b : Block) : b.lessShadow.rxie = b.rxie := rfl
@[simp] theorem Block.lessShadow_txie (b : Block) : b.lessShadow.txie = b.txie := rfl
@[simp] theorem Block.lessShadow_estage (b : Block) : b.lessShadow.estage = b.estage := rfl
@[simp] theorem Block.lessShadow_parser (b : Block) : b.lessShadow.parser = b.parser.map Parser.lessShadow := rfl

@[simp] theorem State.lessShadow_blk (s : State) : s.lessShadow.blk = s.blk.lessShadow := rfl
@[simp] theorem State.lessShadow_gie (s : State) : s.lessShadow.gie = s.gie := rfl
@[simp] theorem State.lessShadow_fgst (s : State) : s.lessShadow.fgst = s.fgst := rfl
@[simp] theorem State.lessShadow_portNo (s : State) : s.lessShadow.portNo = s.portNo := by
  simp [State.portNo, State.lessShadow]

@[simp] theorem Block.lessShadow_idem (b : Block) : b.lessShadow.lessShadow = b.lessShadow := by
  have hp : Parser.lessShadow ∘ Parser.lessShadow = Parser.lessShadow := rfl
  simp [Block.lessShadow, hp]

@[simp] theorem State.lessShadow_idem (s : State) : s.lessShadow.lessShadow = s.lessShadow := by
  have hb : Block.lessShadow ∘ Block.lessShadow = Block.lessShadow := funext Block.lessShadow_idem
  simp [State.lessShadow, hb]

/-! ### The updates of the records -/

@[simp] theorem Block.raise_lessShadow (b : Block) (e : Event) : (b.raise e).lessShadow = b.lessShadow := rfl
@[simp] theorem Block.setParser_lessShadow (b : Block) (p : Parser) :
    (b.setParser p).lessShadow = b.lessShadow.setParser p.lessShadow := rfl
@[simp] theorem Block.txPut_lessShadow (b : Block) (v : Byte) : (b.txPut v).lessShadow = b.lessShadow.txPut v := rfl
@[simp] theorem Block.trailerCheck_lessShadow (b : Block) (p : Parser) (c : Byte) :
    (b.trailerCheck p c).lessShadow = b.lessShadow := by
  rcases trailerCheck_cases b p c with ⟨_, e⟩ | ⟨_, e⟩ <;> simp [e]

theorem State.setBlk_lessShadow (s : State) (b : Block) : (s.setBlk b).lessShadow = s.lessShadow.setBlk b.lessShadow := rfl
theorem State.answer_lessShadow (s : State) (r : PortResult) : (s.answer r).lessShadow = s.lessShadow.answer r := rfl

/-- A block put in the place of the one at hand: only the block counts, less observation. -/
theorem State.setBlk_lessShadow_congr (s : State) {b b' : Block} (h : b.lessShadow = b'.lessShadow) :
    (s.setBlk b).lessShadow = (s.lessShadow.setBlk b').lessShadow := by
  rw [State.setBlk_lessShadow, State.setBlk_lessShadow, State.lessShadow_idem, h]

/-- What a meaning answers, less observation. -/
def Answer.lessShadow : Answer → Answer
  | .next s => .next s.lessShadow
  | .fault f => .fault f
  | .refused r => .refused r

@[simp] theorem Answer.lessShadow_next (s : State) : Answer.lessShadow (.next s) = .next s.lessShadow := rfl

/-! ### Blind operations -/

/-- An operation on a block into whose effect, less observation, observation does not enter. -/
def Block.Blind (f : Block → Block) : Prop := ∀ b, (f b).lessShadow = (f b.lessShadow).lessShadow

/-- The same of a rule of PARSE. -/
def Parser.Blind (f : Block → Parser → Block) : Prop :=
  ∀ b p, (f b p).lessShadow = (f b.lessShadow p.lessShadow).lessShadow

/-- The same of a meaning. -/
def State.Blind (body : State → Answer) : Prop := ∀ s, (body s).lessShadow = (body s.lessShadow).lessShadow

/-- An operation that commutes with taking observation away is blind. -/
theorem Block.Blind.of_commutes {f : Block → Block} (h : ∀ b, (f b).lessShadow = f b.lessShadow) : Block.Blind f :=
  fun b => by rw [h b, h b.lessShadow, Block.lessShadow_idem]

/-- A meaning that always answers a next state, and commutes with taking observation away, is blind. -/
theorem State.Blind.of_commutes {u : State → State} (h : ∀ s, (u s).lessShadow = u s.lessShadow) :
    State.Blind fun s => .next (u s) :=
  fun s => by rw [Answer.lessShadow_next, Answer.lessShadow_next, h s, h s.lessShadow, State.lessShadow_idem]

/-- A blind meaning answers two states that differ only in observation alike, up to it. -/
theorem State.Blind.answers_alike {body : State → Answer} (h : State.Blind body) {s s' t : State}
    (hs : s.lessShadow = s'.lessShadow) (ht : body s = .next t) :
    ∃ t', body s' = .next t' ∧ t.lessShadow = t'.lessShadow := by
  have e : (body s').lessShadow = .next t.lessShadow := by
    calc (body s').lessShadow
      _ = (body s'.lessShadow).lessShadow := h s'
      _ = (body s).lessShadow := by rw [← hs, ← h s]
      _ = .next t.lessShadow := by rw [ht, Answer.lessShadow_next]
  cases hb : body s' with
  | next t' =>
    rw [hb, Answer.lessShadow_next, Host.Outcome.next.injEq] at e
    exact ⟨t', rfl, e.symm⟩
  | fault f => rw [hb] at e; cases e
  | refused r => rw [hb] at e; cases e

/-! ### PARSE and the receive handler -/

theorem parseSof_blind : Parser.Blind Block.parseSof := fun b p => by simp [Block.parseSof]; rfl

theorem parseSkip_blind (c : Byte) : Parser.Blind (Block.parseSkip c) := fun b p => by simp [Block.parseSkip]; rfl

theorem parseLink_blind (c : Byte) : Parser.Blind (Block.parseLink c) := fun b p => by simp [Block.parseLink]; rfl

theorem parseFlags_blind : Parser.Blind Block.parseFlags := fun b p => by simp [Block.parseFlags]; rfl

theorem parseLen0_blind : Parser.Blind Block.parseLen0 := fun b p => by simp [Block.parseLen0]; rfl

theorem parseLenN_blind (c : Byte) : Parser.Blind (Block.parseLenN c) := fun b p => by simp [Block.parseLenN]; rfl

/-- A payload byte: whether it is stored and whether it is the last one depends on DQ and PREM alone (R184). -/
theorem parseData_blind (c : Byte) : Parser.Blind (Block.parseData c) := fun b p => by
  cases hf : p.dq.full <;> by_cases h1 : p.prem = 1#8 <;> simp [Block.parseData, hf, h1] <;> rfl

/-- PSTATE and the byte select the rule, and each rule is blind (R185). -/
theorem parse_blind (b : Block) (c : Byte) : (b.parse c).lessShadow = (b.lessShadow.parse c).lessShadow := by
  simp only [Block.parse, Block.lessShadow_parser]
  cases b.parser with
  | none => exact (Block.lessShadow_idem b).symm
  | some p =>
    simp only [Option.map_some, Parser.lessShadow_pstate]
    cases classify p.pstate c with
    | sof => exact parseSof_blind b p
    | skip => exact parseSkip_blind c b p
    | link => exact parseLink_blind c b p
    | flags => exact parseFlags_blind b p
    | len0 => exact parseLen0_blind b p
    | lenN => exact parseLenN_blind c b p
    | data => exact parseData_blind c b p

/-- The loop goes round as often, over the same bytes: RXQ is no observation (R125). -/
theorem drain_blind (fuel : Nat) : ∀ b : Block, (b.drain fuel).lessShadow = (b.lessShadow.drain fuel).lessShadow := by
  induction fuel with
  | zero => exact fun b => (Block.lessShadow_idem b).symm
  | succ n ih =>
    intro b
    by_cases he : b.rxq.empty
    · simp [Block.drain, he]
    · have hpop : ({ b with rxq := b.rxq.pop } : Block).lessShadow = { b.lessShadow with rxq := b.lessShadow.rxq.pop } := rfl
      simp only [Block.drain, he, Block.lessShadow_rxq, Bool.false_eq_true, if_false]
      rw [ih, parse_blind, hpop, ← ih]
      rfl

theorem rxPush_blind : Block.Blind Block.rxPush := by
  intro b
  have room := Block.Blind.of_commutes (f := fun b => { b with rxc := false, rxq := b.rxq.store b.rdr }) fun _ => rfl
  have drop := Block.Blind.of_commutes (f := fun b => { b with rxc := false }) fun _ => rfl
  rcases rxPush_cases b with ⟨hf, e⟩ | ⟨hf, e⟩ <;> rcases rxPush_cases b.lessShadow with ⟨hf', e'⟩ | ⟨hf', e'⟩
  · rw [e, e']; exact room b
  · exact absurd hf' (by simp [hf])
  · exact absurd hf' (by simp [hf])
  · rw [e, e', Block.raise_lessShadow, Block.raise_lessShadow]; exact drop b

theorem rxPush_lessShadow_rxq (b : Block) : b.lessShadow.rxPush.rxq = b.rxPush.rxq :=
  (congrArg Block.rxq (rxPush_blind b)).symm

theorem rxHandler_blind : Block.Blind Block.rxHandler := by
  intro b
  simp only [Block.rxHandler, Block.lessShadow_parser, Option.isSome_map, rxPush_lessShadow_rxq]
  split
  · rw [drain_blind, rxPush_blind, ← drain_blind]
  · exact rxPush_blind b

/-! ### The other events -/

theorem lineDelivers_blind (c : Byte) : Block.Blind (Block.lineDelivers c) := by
  intro b
  have waits := Block.Blind.of_commutes (f := fun b => { b with rdr := c, rxc := true }) fun _ => rfl
  rcases lineDelivers_cases c b with ⟨hc, e⟩ | ⟨hc, e⟩ <;>
    rcases lineDelivers_cases c b.lessShadow with ⟨hc', e'⟩ | ⟨hc', e'⟩
  · rw [e, e']; exact waits b
  · exact absurd hc' (by simp [hc])
  · exact absurd hc' (by simp [hc])
  · simp [e, e']

theorem txHandler_blind : Block.Blind Block.txHandler := by
  refine Block.Blind.of_commutes fun b => ?_
  unfold Block.txHandler
  cases he : b.txq.empty <;> simp [he] <;> rfl

theorem lineTakes_blind : Block.Blind Block.lineTakes := Block.Blind.of_commutes fun _ => rfl

/-! ### The shared operations of the meanings -/

theorem operate_blind {body : State → Answer} (h : State.Blind body) (op : Option HeldOp) :
    State.Blind fun s => s.operate op body := by
  intro s
  have hr : s.lessShadow.fgReady op = s.fgReady op := by simp [State.fgReady]
  simp only [State.operate, hr]
  split
  · exact h s
  · simp

theorem hold_blind (op : HeldOp) : State.Blind fun s => s.hold op := by
  refine State.Blind.of_commutes fun s => ?_
  rw [State.lessShadow_portNo]
  rfl

theorem refuse_blind (r : RefuseReason) : State.Blind fun s => s.refuse r := State.Blind.of_commutes fun _ => rfl

/-- A choice between blind meanings is blind if observation does not enter it. -/
theorem ite_blind {c : State → Bool} {f g : State → Answer} (hc : ∀ s, c s.lessShadow = c s) (hf : State.Blind f)
    (hg : State.Blind g) : State.Blind fun s => if c s then f s else g s := by
  intro s
  simp only [hc]
  split
  · exact hf s
  · exact hg s

theorem withParser_blind {body : State → Parser → Answer}
    (h : ∀ s p, (body s p).lessShadow = (body s.lessShadow p.lessShadow).lessShadow) :
    State.Blind fun s => s.withParser (body s) := by
  intro s
  show (s.withParser (body s)).lessShadow = (s.lessShadow.withParser (body s.lessShadow)).lessShadow
  rcases withParser_cases s (body s) with ⟨hp, e⟩ | ⟨p, hp, e⟩
  · have hp' : s.lessShadow.blk.parser = none := by simp [hp]
    rw [e, withParser_none hp']
    exact refuse_blind .noParser s
  · have hp' : s.lessShadow.blk.parser = some p.lessShadow := by simp [hp]
    rw [e, withParser_some hp']
    exact h s p

/-- The premise of `withParser_blind` where the operation always completes. -/
theorem next_blind {u : State → Parser → State} (h : ∀ s p, (u s p).lessShadow = u s.lessShadow p.lessShadow) (s : State)
    (p : Parser) : Answer.lessShadow (.next (u s p)) = Answer.lessShadow (.next (u s.lessShadow p.lessShadow)) := by
  rw [Answer.lessShadow_next, Answer.lessShadow_next, ← h, State.lessShadow_idem]

theorem event_blind {enabled : State → Bool} {f : Block → Block} (he : ∀ s, enabled s.lessShadow = enabled s)
    (hf : Block.Blind f) : State.Blind fun s => s.event (enabled s) f :=
  ite_blind he (fun s => congrArg Host.Outcome.next (State.setBlk_lessShadow_congr s (hf s.blk)))
    (State.Blind.of_commutes fun _ => rfl)

theorem parserStep_blind {f : Block → Parser → Block} (hf : Parser.Blind f) (k : ByteClass) (c : Byte) :
    State.Blind fun s => s.parserStep k c f := by
  intro s
  cases hp : s.blk.parser with
  | none => simp [State.parserStep, hp]
  | some p =>
    have := State.setBlk_lessShadow_congr s (hf s.blk p)
    by_cases hk : classify p.pstate c = k <;> simp [State.parserStep, hp, hk, this]

/-- A stage step pushes what the encoder's registers say; observation enters neither into the byte nor into what follows. -/
theorem stagePut_blind (st : Stage) {v : State → Byte} {after : State → State → State} (hv : ∀ s, v s.lessShadow = v s)
    (ha : ∀ s u, (after s u).lessShadow = after s.lessShadow u.lessShadow) :
    State.Blind fun s => s.stagePut st (v s) (after s) := by
  intro s
  have hpush : (after s (s.setBlk (s.blk.txPut (v s)))).lessShadow =
      (after s.lessShadow (s.lessShadow.setBlk (s.blk.lessShadow.txPut (v s)))).lessShadow := by
    rw [ha, ha, State.lessShadow_idem, State.setBlk_lessShadow_congr s (b' := s.blk.lessShadow.txPut (v s)) (by simp)]
  by_cases h1 : s.fgst = .encode s.portNo ∧ s.blk.estage = st <;> cases hf : s.blk.txq.full <;>
    simp [State.stagePut, h1, hf, hv, hpush]

/-! ### Every instruction but RD_ERR -/

theorem exec_blind (i : Instr) (hi : i ≠ .rdErr) : State.Blind (exec i) := by
  cases i with
  | init baud => exact operate_blind (.of_commutes fun _ => by rfl) none
  | put b => exact operate_blind (ite_blind (fun _ => by rfl) (hold_blind _) (.of_commutes fun _ => by rfl)) _
  | get =>
    exact operate_blind (ite_blind (fun _ => by simp) (refuse_blind _)
      (ite_blind (fun _ => by rfl) (hold_blind _) (.of_commutes fun _ => by rfl))) _
  | avail => exact operate_blind (.of_commutes fun _ => by rfl) none
  | encode l pl =>
    refine ite_blind (c := fun _ => payloadFits pl) (fun _ => rfl) (operate_blind (.of_commutes fun s => ?_) none) (fun _ => rfl)
    rw [State.lessShadow_portNo]
    rfl
  | dqClear => exact operate_blind (withParser_blind (next_blind fun _ _ => by rfl)) none
  | dqAvail => exact operate_blind (withParser_blind (next_blind fun _ _ => by rfl)) none
  | dqGet =>
    refine operate_blind (withParser_blind fun s p => ?_) _
    cases he : p.dq.empty
    · simpa [he] using next_blind
        (u := fun s p => (s.setBlk (s.blk.setParser { p with dq := p.dq.pop })).answer (.bits8 p.dq.front)) (fun _ _ => rfl) s p
    · simpa [he] using hold_blind .dqGet s
  | dqPeek k =>
    refine operate_blind (withParser_blind fun s p => ?_) _
    by_cases hk : p.dq.occ ≤ k.toNat
    · simpa [hk] using refuse_blind .peekRange s
    · simpa [hk] using next_blind (u := fun s p => s.answer (.bits8 (p.dq.peek k.toNat))) (fun _ _ => rfl) s p
  | rdErr => exact absurd rfl hi
  | rdPstate => exact operate_blind (withParser_blind (next_blind fun _ _ => by rfl)) none
  | rdPlink => exact operate_blind (withParser_blind (next_blind fun _ _ => by rfl)) none
  | rdCtl =>
    refine operate_blind (.of_commutes fun s => ?_) none
    simp [State.answer_lessShadow, State.ctlByte]
  | irqOff => exact operate_blind (.of_commutes fun _ => by rfl) none
  | irqOn => exact operate_blind (.of_commutes fun _ => by rfl) none
  | reservedF => exact operate_blind (refuse_blind _) none
  | lineIn b => exact event_blind (enabled := fun _ => true) (fun _ => rfl) (lineDelivers_blind b)
  | rxIsr => exact event_blind (fun _ => rfl) rxHandler_blind
  | txIsr => exact event_blind (fun _ => rfl) txHandler_blind
  | lineOut => exact event_blind (fun _ => rfl) lineTakes_blind
  | pSof => exact parserStep_blind parseSof_blind _ _
  | pSkip b => exact parserStep_blind (parseSkip_blind b) _ _
  | pLink b => exact parserStep_blind (parseLink_blind b) _ _
  | pFlags b => exact parserStep_blind parseFlags_blind _ _
  | pLen0 => exact parserStep_blind parseLen0_blind _ _
  | pLenN b => exact parserStep_blind (parseLenN_blind b) _ _
  | pData b => exact parserStep_blind (parseData_blind b) _ _
  | muxframe l f pl tr =>
    refine State.Blind.of_commutes fun s => ?_
    rw [State.lessShadow_portNo]
    rfl
  | eSof => exact stagePut_blind _ (fun _ => by rfl) fun _ _ => by rfl
  | eLink => exact stagePut_blind _ (fun _ => by rfl) fun _ _ => by rfl
  | eFlags => exact stagePut_blind _ (fun _ => by rfl) fun _ _ => by rfl
  | eLen => exact stagePut_blind _ (fun _ => by rfl) fun _ _ => by rfl
  | ePay => exact stagePut_blind _ (fun _ => by rfl) fun _ _ => by rfl
  | eTrl =>
    exact stagePut_blind _ (v := fun s => trailerOf s.blk.elink) (after := fun _ u => (u.goStage .idle).done) (fun _ => rfl)
      fun _ _ => rfl

/-- Settles O38: every instruction but RD_ERR is blind. -/
theorem observationNeverFeedsBack : Obligations.ObservationNeverFeedsBack :=
  fun i _ _ _ hi hs ht => (exec_blind i hi).answers_alike hs ht

end Sys2Proof.Machine
end

section
/-! What only grows (10_state.md R33, R44; 60_exceptions.md R236), who writes GIE (R28), and what a busy foreground cannot take
(R35, R71). -/

namespace Sys2Proof.Machine

/-! ### Errors and histories of a block -/

/-- From one block to the other no bit of ERR is cleared, and nothing is taken from the event log or from what has been sent. -/
structure Block.Grows (b b' : Block) : Prop where
  err : b'.err &&& b.err = b.err
  evlog : b.evlog <+: b'.evlog
  wireOut : b.wireOut <+: b'.wireOut

theorem Block.Grows.of_eq {b b' : Block} (he : b'.err = b.err) (hl : b'.evlog = b.evlog) (hw : b'.wireOut = b.wireOut) :
    b.Grows b' :=
  ⟨by simp [he], by simp [hl], by simp [hw]⟩

theorem Block.Grows.refl (b : Block) : b.Grows b := .of_eq rfl rfl rfl

theorem Block.Grows.trans {a b c : Block} (h : a.Grows b) (g : b.Grows c) : a.Grows c where
  err := by rw [← h.err, ← BitVec.and_assoc, g.err]
  evlog := h.evlog.trans g.evlog
  wireOut := h.wireOut.trans g.wireOut

/-- ERR with one more bit. -/
theorem or_and_self_left (x y : BitVec 8) : (x ||| y) &&& x = x := by
  ext i
  simp
  grind

theorem raise_grows (b : Block) (e : Event) : b.Grows (b.raise e) where
  err := or_and_self_left _ _
  evlog := List.prefix_append _ _
  wireOut := List.prefix_rfl

theorem parse_grows (b : Block) (c : Byte) : b.Grows (b.parse c) := by
  cases hp : b.parser with
  | none => simpa [Block.parse, hp] using Block.Grows.refl b
  | some p =>
    obtain ⟨p', h⟩ := parse_spec b c p hp
    have hw : (b.parse c).wireOut = b.wireOut := by rw [h.eq]
    rcases h.ev with ⟨he, hl⟩ | ⟨e, _, he, hl⟩
    · exact .of_eq he hl hw
    · exact ⟨by rw [he]; exact or_and_self_left _ _, by rw [hl]; exact List.prefix_append _ _, by rw [hw]⟩

theorem drain_grows (fuel : Nat) : ∀ b : Block, b.Grows (b.drain fuel) := by
  induction fuel with
  | zero => exact Block.Grows.refl
  | succ n ih =>
    intro b
    unfold Block.drain
    split
    · exact .refl b
    · have pop : b.Grows { b with rxq := b.rxq.pop } := .of_eq rfl rfl rfl
      exact (pop.trans (parse_grows _ _)).trans (ih _)

theorem rxPush_grows (b : Block) : b.Grows b.rxPush := by
  rcases rxPush_cases b with ⟨_, e⟩ | ⟨_, e⟩ <;> rw [e]
  · exact .of_eq rfl rfl rfl
  · have clear : b.Grows { b with rxc := false } := .of_eq rfl rfl rfl
    exact clear.trans (raise_grows _ _)

theorem rxHandler_grows (b : Block) : b.Grows b.rxHandler := by
  unfold Block.rxHandler
  split
  · exact (rxPush_grows b).trans (drain_grows _ _)
  · exact rxPush_grows b

theorem txHandler_grows (b : Block) : b.Grows b.txHandler := by
  rcases txHandler_cases b with ⟨_, e⟩ | ⟨_, e⟩ <;> rw [e] <;> exact .of_eq rfl rfl rfl

theorem lineDelivers_grows (c : Byte) (b : Block) : b.Grows (b.lineDelivers c) := by
  rcases lineDelivers_cases c b with ⟨_, e⟩ | ⟨_, e⟩ <;> rw [e]
  · exact .of_eq rfl rfl rfl
  · exact raise_grows _ _

theorem lineTakes_grows (b : Block) : b.Grows b.lineTakes := ⟨by simp [Block.lineTakes], List.prefix_rfl, List.prefix_append _ _⟩

/-- Whatever an instruction does to its block, its errors and histories grow. -/
theorem ExecEffect.grows {i : Instr} {s t : State} (h : ExecEffect i s t) : s.blk.Grows t.blk := by
  cases h with
  | quiet hb => rw [hb]; exact .refl _
  | lineIn b _ _ hb => rw [hb]; exact lineDelivers_grows b _
  | rx _ _ _ hb => rw [hb]; exact rxHandler_grows _
  | tx _ _ _ hb => rw [hb]; exact txHandler_grows _
  | lout _ _ _ hb => rw [hb]; exact lineTakes_grows _
  | parse c p _ _ _ hb => rw [hb]; exact parse_grows _ _
  | _ => rename_i hb; rw [hb]; exact .of_eq rfl rfl rfl

/-- Settles O48: the block's part grows with the effect, the rest with the frame. -/
theorem errorsAndHistoriesOnlyGrow : Obligations.ErrorsAndHistoriesOnlyGrow := by
  intro i s t h
  obtain ⟨frame, effect⟩ := exec_cases h
  exact ⟨effect.grows.err, effect.grows.evlog, effect.grows.wireOut, frame.refusals, frame.results⟩

/-- Settles O50: GIE is in the frame of every other instruction. -/
theorem onlyIrqOffAndOnWriteGie : Obligations.OnlyIrqOffAndOnWriteGie :=
  fun _ _ _ h hoff hon => (exec_cases h).1.gie hoff hon

/-! ### A busy foreground -/

/-- An operation that cannot be held is not taken while the foreground is busy. -/
theorem operate_none_of_busy {s : State} (h : s.fgst ≠ .idle) (body : State → Answer) : s.operate none body = .next s :=
  operate_busy (by rwa [← Bool.not_eq_true, fgReady_none]) body

/-- An operation is not taken while the foreground is busy with anything but this operation on this port. -/
theorem operate_some_of_busy {s : State} {op : HeldOp} (h : s.fgst ≠ .idle) (hop : s.fgst ≠ .hold s.portNo op)
    (body : State → Answer) : s.operate (some op) body = .next s :=
  operate_busy (by rw [← Bool.not_eq_true, fgReady_some]; exact not_or_intro h hop) body

/-- A stage is not taken outside an ENCODE on this port. -/
theorem stagePut_of_not_encoding {s : State} (h : s.fgst ≠ .encode s.portNo) (st : Stage) (v : Byte) (after : State → State) :
    s.stagePut st v after = .next s := by
  simp [State.stagePut, h]

/-- An operation on a port that is not the held one changes nothing while the foreground is busy. -/
theorem exec_port_of_busy {i : Instr} {s : State} (hbusy : s.fgst ≠ .idle) (hwf : i.wellFormed = true) (hrole : i.role = .port)
    (hheld : ∀ op, s.fgst = .hold s.portNo op → i ≠ op.instr) : exec i s = .next s := by
  cases i with
  | put b => simp only [exec, execPut, operate_some_of_busy hbusy fun e => hheld (.put b) e rfl]
  | get => simp only [exec, execGet, operate_some_of_busy hbusy fun e => hheld .get e rfl]
  | dqGet => simp only [exec, execDqGet, operate_some_of_busy hbusy fun e => hheld .dqGet e rfl]
  | encode l pl =>
    have hfits : payloadFits pl = true := hwf
    simpa [exec, execEncode, hfits] using operate_none_of_busy hbusy _
  | init _ | avail | dqClear | dqAvail | dqPeek _ | rdErr | rdPstate | rdPlink | rdCtl | irqOff | irqOn | reservedF =>
    simp only [exec, execInit, execAvail, execDqClear, execDqAvail, execDqPeek, execRdErr, execRdPstate, execRdPlink,
      execRdCtl, execIrqOff, execIrqOn, execReservedF, operate_none_of_busy hbusy]
  | _ => simp [Instr.role] at hrole

/-- A stage changes nothing where the foreground is not in an ENCODE on this port. -/
theorem exec_stage_of_not_encoding {i : Instr} {s : State} (hrole : i.role = .stage) (henc : s.fgst ≠ .encode s.portNo) :
    exec i s = .next s := by
  cases i with
  | eSof | eLink | eFlags | eLen | ePay | eTrl =>
    simp only [exec, execESof, execELink, execEFlags, execELen, execEPay, execETrl, stagePut_of_not_encoding henc]
  | _ => simp [Instr.role] at hrole

/-- Settles O19: neither another operation of a port nor a stage of no ENCODE is taken. -/
theorem busyForegroundIssuesNothing : Obligations.BusyForegroundIssuesNothing := by
  rintro i s hbusy hwf (⟨hrole, hheld⟩ | ⟨hrole, henc⟩)
  · exact exec_port_of_busy hbusy hwf hrole hheld
  · exact exec_stage_of_not_encoding hrole henc

end Sys2Proof.Machine
end

section
/-! The machine right after power-on reset (10_state.md R45): every block is a block after power-on, with parameters that were
given. -/

namespace Sys2Proof.Machine

theorem mem_powerOnBlocks {b : Block} {ps : List BlockParams} :
    ∀ {k : Nat}, b ∈ powerOnBlocks k ps → ∃ j, ∃ p ∈ ps, b = Block.powerOn j p := by
  induction ps with
  | nil => intro k h; cases h
  | cons p ps ih =>
    intro k h
    rcases List.mem_cons.1 h with e | h
    · exact ⟨k, p, List.mem_cons_self, e⟩
    · obtain ⟨j, q, hq, e⟩ := ih h
      exact ⟨j, q, List.mem_cons_of_mem p hq, e⟩

/-- The blocks after power-on are those of all the parameters, from port 0 on. -/
theorem powerOn_blocks (first : BlockParams) (rest : List BlockParams) :
    (State.powerOn first rest).blocks = powerOnBlocks 0 (first :: rest) := rfl

theorem mem_powerOn {first : BlockParams} {rest : List BlockParams} {b : Block} (h : b ∈ (State.powerOn first rest).blocks) :
    ∃ j, ∃ p ∈ first :: rest, b = Block.powerOn j p := by
  rw [powerOn_blocks] at h
  exact mem_powerOnBlocks h

/-- If a block after power-on has a parser, it is the parser after power-on. -/
theorem parser_of_powerOn {j : Nat} {p : BlockParams} {q : Parser} (h : (Block.powerOn j p).parser = some q) :
    q = Parser.powerOn j p := by
  simp only [Block.powerOn, Option.ite_none_right_eq_some, Option.some.injEq] at h
  exact h.2.symm

theorem Parser.powerOn_ok (j : Nat) {p : BlockParams} (h : 2 ≤ p.dqCap ∧ p.dqCap ≤ 256) : (Parser.powerOn j p).Ok :=
  ⟨Queue.powerOn_ok j .dq p.dqCap h, by simp [Parser.powerOn], fun _ => rfl⟩

theorem Block.powerOn_ok (j : Nat) {p : BlockParams} (h : p.Legal) : (Block.powerOn j p).Ok := by
  obtain ⟨⟨hrx, hrx'⟩, htx, hdq⟩ := h
  refine ⟨Queue.powerOn_ok j .rxq p.rxCap ⟨by omega, hrx'⟩, Queue.powerOn_ok j .txq p.txCap htx, ?_,
    ⟨by simp [Block.powerOn], fun _ => rfl, rfl, rfl⟩, by simp [Block.ErrOk, Block.powerOn], absurd rfl, fun _ => rfl⟩
  intro q hq
  rw [parser_of_powerOn hq]
  exact Parser.powerOn_ok j hdq

theorem State.powerOn_ok {first : BlockParams} {rest : List BlockParams} (h : ∀ p ∈ first :: rest, p.Legal) :
    (State.powerOn first rest).Ok := by
  refine ⟨fun b hb => ?_, fun k hk => ?_, by simp [State.powerOn, FgState.port?]⟩
  · obtain ⟨j, p, hp, rfl⟩ := mem_powerOn hb
    exact Block.powerOn_ok j (h p hp)
  · obtain ⟨j, p, _, e⟩ := mem_powerOn (List.getElem_mem hk)
    have idle : (State.powerOn first rest).blocks[k].estage = .idle := by rw [e]; rfl
    exact iff_of_false (absurd idle) (by simp [State.powerOn])

/-- Settles O46: each block is in order, none encodes, and the foreground is idle. -/
theorem invariantsHoldAfterReset : Obligations.InvariantsHoldAfterReset :=
  ⟨fun _ _ hfirst hrest => State.powerOn_ok (List.forall_mem_cons.2 ⟨hfirst, hrest⟩), State.powerOn_ok (by decide)⟩

/-- Settles O47: every block is a block after power-on, and its parser, if any, a parser after power-on. -/
theorem resetValuesAreThoseOfTheTable : Obligations.ResetValuesAreThoseOfTheTable := by
  intro first rest
  refine ⟨rfl, rfl, fun b hb => ?_⟩
  obtain ⟨j, p, _, rfl⟩ := mem_powerOn hb
  refine ⟨rfl, rfl, rfl, rfl, rfl, rfl, rfl, rfl, rfl, rfl, rfl, rfl, fun q hq => ?_⟩
  rw [parser_of_powerOn hq]
  exact ⟨rfl, rfl, rfl, rfl, rfl, rfl, rfl⟩

end Sys2Proof.Machine
end

section
/-! The invariants of 10_state.md R42 are kept: by every operation on a block, then by every instruction, then by every step. -/

namespace Sys2Proof.Machine

/-! ### ERR -/

/-- Raising an event sets a bit that ERR may have: RxqDrop only without a parser, DqDrop and FrmErr only with one (R33, R210). -/
theorem Block.ErrOk.of_raised {b b' : Block} (h : b.ErrOk) {e : Event} (he : b'.err = b.err ||| BitVec.ofNat 8 (2 ^ e.code))
    (hp : b'.parser.isSome = b.parser.isSome) (h0 : e.code = 0 → b.parser.isSome = false)
    (h13 : e.code = 1 ∨ e.code = 3 → b.parser.isSome = true) : b'.ErrOk := by
  have distrib : ∀ x y m : BitVec 8, (x ||| y) &&& m = x &&& m ||| y &&& m := by intros; ext; simp; grind
  obtain ⟨hhigh, hwith, hwithout⟩ := h
  unfold Block.ErrOk
  rw [he, hp, distrib, distrib, distrib, hhigh]
  cases e with
  | rxqDrop v =>
    have none := h0 rfl
    exact ⟨by simp [Event.code], by simp [none], fun _ => by simp [hwithout none, Event.code]⟩
  | dqDrop v =>
    have some := h13 (.inl rfl)
    exact ⟨by simp [Event.code], fun _ => by simp [hwith some, Event.code], by simp [some]⟩
  | lineOvr v =>
    exact ⟨by simp [Event.code], fun h => by simp [hwith h, Event.code], fun h => by simp [hwithout h, Event.code]⟩
  | frmErr v =>
    have some := h13 (.inr rfl)
    exact ⟨by simp [Event.code], fun _ => by simp [hwith some, Event.code], by simp [some]⟩

/-! ### Operations on a block -/

theorem initialise_ok {b : Block} (h : b.Ok) (baud : Baud) : (b.initialise baud).Ok := by
  obtain ⟨hrx, htx, hp, henc, herr, _, _⟩ := h
  exact ⟨b.rxq.zero_ok hrx, b.txq.zero_ok htx, hp, henc, herr, absurd rfl, fun _ => rfl⟩

theorem txPut_ok {b : Block} (h : b.Ok) (v : Byte) : (b.txPut v).Ok := by
  obtain ⟨hrx, htx, hp, henc, herr, _, hempty⟩ := h
  exact ⟨hrx, b.txq.push_ok v htx, hp, henc, herr, fun _ => rfl, hempty⟩

/-- The foreground pops RXQ only where there is no parser. -/
theorem rxPop_ok {b : Block} (h : b.Ok) (hn : b.parser = none) : ({ b with rxq := b.rxq.pop } : Block).Ok := by
  obtain ⟨hrx, htx, hp, henc, herr, htxie, _⟩ := h
  exact ⟨b.rxq.pop_ok hrx, htx, hp, henc, herr, htxie, by simp [hn]⟩

/-- A parser in order put in the place of another. -/
theorem setParser_ok {b : Block} {p p' : Parser} (h : b.Ok) (hp : b.parser = some p) (hp' : p'.Ok) : (b.setParser p').Ok := by
  obtain ⟨hrx, htx, _, henc, ⟨hhigh, hwith, _⟩, htxie, hempty⟩ := h
  have isSome : b.parser.isSome = true := by simp [hp]
  exact ⟨hrx, htx, by simpa using hp', henc, ⟨hhigh, fun _ => hwith isSome, by simp⟩, htxie, fun _ => hempty isSome⟩

theorem Block.Ok.parser {b : Block} {p : Parser} (h : b.Ok) (hp : b.parser = some p) : p.Ok := h.2.2.1 p hp

theorem dqPop_ok {b : Block} {p : Parser} (h : b.Ok) (hp : b.parser = some p) :
    (b.setParser { p with dq := p.dq.pop }).Ok :=
  setParser_ok h hp ⟨p.dq.pop_ok (h.parser hp).1, (h.parser hp).2⟩

theorem dqFlush_ok {b : Block} {p : Parser} (h : b.Ok) (hp : b.parser = some p) :
    (b.setParser { p with dq := p.dq.flush }).Ok :=
  setParser_ok h hp ⟨p.dq.flush_ok (h.parser hp).1, (h.parser hp).2⟩

theorem lineDelivers_ok {b : Block} (h : b.Ok) (c : Byte) : (b.lineDelivers c).Ok := by
  obtain ⟨hrx, htx, hp, henc, herr, htxie, hempty⟩ := h
  rcases lineDelivers_cases c b with ⟨_, e⟩ | ⟨_, e⟩ <;> rw [e]
  · exact ⟨hrx, htx, hp, henc, herr, htxie, hempty⟩
  · exact ⟨hrx, htx, hp, henc, herr.of_raised (e := .lineOvr c) rfl rfl (by simp [Event.code]) (by simp [Event.code]), htxie, hempty⟩

/-- PARSE keeps the parser in order, and raises only what a block with a parser may raise (R180, R184). -/
theorem parse_ok {b : Block} (h : b.Ok) (c : Byte) : (b.parse c).Ok := by
  cases hp : b.parser with
  | none => simpa [Block.parse, hp] using h
  | some p =>
    obtain ⟨p', heq, hev, _, hok⟩ := parse_spec b c p hp
    have hpo : p'.Ok := (hok (h.parser hp)).1
    obtain ⟨hrx, htx, _, henc, herr, htxie, hempty⟩ := h
    have hpar : (b.parse c).parser = some p' := by rw [heq]
    have herr' : (b.parse c).ErrOk := by
      rcases hev with ⟨he, _⟩ | ⟨e, hcode, he, _⟩
      · unfold Block.ErrOk
        rw [he, hpar]
        simpa [Block.ErrOk, hp] using herr
      · exact herr.of_raised he (by simp [hp, hpar]) (by omega) (by simp [hp])
    refine ⟨?_, ?_, by simpa [hpar] using hpo, ?_, herr', ?_, ?_⟩
    · rw [heq]; exact hrx
    · rw [heq]; exact htx
    · rw [heq]; exact henc
    · rw [heq]; exact htxie
    · rw [heq]; exact fun _ => hempty (by simp [hp])

/-- A queue in order that is empty has room. -/
theorem Queue.room_of_empty {q : Queue} (h : q.Ok) (he : q.head = q.tail) : q.full = false := by
  have occ0 := (q.occ_eq_zero_iff h).2 he
  rw [← Bool.not_eq_true, q.full_iff_occ h]
  omega

/-- With a parser and RXQ empty, the byte in RDR passes through RXQ and is parsed, once (R125, R42 item 7). -/
theorem rxHandler_of_empty {b : Block} (hp : b.parser.isSome = true) (hq : b.rxq.Ok) (he : b.rxq.head = b.rxq.tail) :
    b.rxHandler = ({ b with rxc := false, rxq := (b.rxq.store b.rdr).pop } : Block).parse b.rdr := by
  have hroom := Queue.room_of_empty hq he
  have hpush : b.rxPush = { b with rxc := false, rxq := b.rxq.store b.rdr } := by simp [Block.rxPush, hroom]
  have hocc : (b.rxq.store b.rdr).occ = 1 := by
    rw [Queue.store_occ _ _ hq hroom, (b.rxq.occ_eq_zero_iff hq).2 he]
  have hne : (b.rxq.store b.rdr).empty = false := by
    rw [← Bool.not_eq_true, Queue.empty_iff, ← Queue.occ_eq_zero_iff _ (b.rxq.store_ok b.rdr hq), hocc]
    decide
  have hfront : (b.rxq.store b.rdr).front = b.rdr := by
    rw [Queue.front, store_tail, Queue.store_slot, ← he, if_pos rfl]
  simp [Block.rxHandler, hp, hpush, hocc, Block.drain, hne, hfront]

theorem rxHandler_ok {b : Block} (h : b.Ok) : b.rxHandler.Ok := by
  obtain ⟨hrx, htx, hp, henc, herr, htxie, hempty⟩ := h
  cases hs : b.parser.isSome with
  | true =>
    rw [rxHandler_of_empty hs hrx (hempty hs)]
    have passed : ((b.rxq.store b.rdr).pop).head = ((b.rxq.store b.rdr).pop).tail := by simp [hempty hs, Queue.after]
    have ok : ({ b with rxc := false, rxq := (b.rxq.store b.rdr).pop } : Block).Ok :=
      ⟨Queue.pop_ok _ (b.rxq.store_ok b.rdr hrx), htx, hp, henc, herr, htxie, fun _ => passed⟩
    exact parse_ok ok b.rdr
  | false =>
    have hn : b.rxHandler = b.rxPush := by simp [Block.rxHandler, hs]
    rw [hn]
    rcases rxPush_cases b with ⟨_, e⟩ | ⟨_, e⟩ <;> rw [e]
    · exact ⟨b.rxq.store_ok b.rdr hrx, htx, hp, henc, herr, htxie, by simp [hs]⟩
    · exact ⟨hrx, htx, hp, henc, herr.of_raised (e := .rxqDrop b.rdr) rfl rfl (fun _ => hs) (by simp [Event.code]), htxie, hempty⟩

theorem txHandler_ok {b : Block} (h : b.Ok) : b.txHandler.Ok := by
  obtain ⟨hrx, htx, hp, henc, herr, htxie, hempty⟩ := h
  rcases txHandler_cases b with ⟨he, e⟩ | ⟨he, e⟩ <;> rw [e]
  · exact ⟨hrx, htx, hp, henc, herr, absurd (b.txq.empty_iff.1 he), hempty⟩
  · have hne : b.txq.head ≠ b.txq.tail := by rw [Ne, ← Queue.empty_iff, he]; decide
    exact ⟨hrx, b.txq.pop_ok htx, hp, henc, herr, fun _ => htxie hne, hempty⟩

theorem lineTakes_ok {b : Block} (h : b.Ok) : b.lineTakes.Ok := h

theorem latchFrame_ok {b : Block} (h : b.Ok) (link : Byte) {payload : List Byte} (hl : payload.length ≤ 255) :
    (b.latchFrame link payload).Ok := by
  obtain ⟨hrx, htx, hp, ⟨_, _, hwf, hin⟩, herr, htxie, hempty⟩ := h
  refine ⟨hrx, htx, hp, ⟨by simp [Block.latchFrame], fun _ => rfl, ?_, ?_⟩, herr, htxie, hempty⟩
  · exact latchPayload_wf payload b.epay 0 hwf
  · exact latchPayload_within payload b.epay 0 255 (by omega) hin

/-- The encoder's registers after a stage before the trailer (R161 to R165): EIDX stays 0 up to the payload, and a stage leads
to the payload only with a byte left. -/
theorem StageMove.encoderOk {i : Instr} {b : Block} {v : Byte} {st : Stage} {eidx : Byte} (h : StageMove i b v st eidx)
    (ho : b.EncoderOk) : ({ b with estage := st, eidx := eidx } : Block).EncoderOk := by
  obtain ⟨hpay, hhead, hwf, hin⟩ := ho
  rcases h with ⟨_, hs, _, rfl, rfl⟩ | ⟨_, hs, _, rfl, rfl⟩ | ⟨_, hs, _, rfl, rfl⟩ | ⟨_, hs, _, rfl, rfl⟩ | ⟨_, hs, _, rfl, rfl⟩
  · exact ⟨by simp, fun _ => hhead (by simp [hs]), hwf, hin⟩
  · exact ⟨by simp, fun _ => hhead (by simp [hs]), hwf, hin⟩
  · exact ⟨by simp, fun _ => hhead (by simp [hs]), hwf, hin⟩
  · have zero : b.eidx = 0#8 := hhead (by simp [hs])
    refine ⟨fun hst => ?_, fun _ => zero, hwf, hin⟩
    have hlen : b.elen ≠ 0#8 := by rintro e; simp [e] at hst
    simp only [zero]
    bv_omega
  · have before : b.eidx < b.elen := hpay hs
    refine ⟨fun hst => ?_, fun hst => ?_, hwf, hin⟩
    · have more : b.eidx + 1#8 ≠ b.elen := by rintro e; simp [e] at hst
      simp only
      bv_omega
    · dsimp only at hst; split at hst <;> simp at hst

/-- What an instruction does to its block keeps the block in order. -/
theorem ExecEffect.block_ok {i : Instr} {s t : State} (h : ExecEffect i s t) (ho : s.blk.Ok) : t.blk.Ok := by
  cases h with
  | quiet hb => rw [hb]; exact ho
  | init baud _ _ hb => rw [hb]; exact initialise_ok ho baud
  | put v _ _ _ hb => rw [hb]; exact txPut_ok ho v
  | get _ hn _ _ hb => rw [hb]; exact rxPop_ok ho hn
  | dqGet p _ hp _ _ hb => rw [hb]; exact dqPop_ok ho hp
  | dqClear p _ hp _ hb => rw [hb]; exact dqFlush_ok ho hp
  | lineIn c _ _ hb => rw [hb]; exact lineDelivers_ok ho c
  | rx _ _ _ hb => rw [hb]; exact rxHandler_ok ho
  | tx _ _ _ hb => rw [hb]; exact txHandler_ok ho
  | lout _ _ _ hb => rw [hb]; exact lineTakes_ok ho
  | parse c p _ _ _ hb => rw [hb]; exact parse_ok ho c
  | encode l pl _ hl _ _ hb => rw [hb]; exact latchFrame_ok ho l hl
  | stage v st i' _ _ hm _ hb =>
    obtain ⟨hrx, htx, hp, _, herr, htxie, hempty⟩ := txPut_ok ho v
    rw [hb]
    exact ⟨hrx, htx, hp, hm.encoderOk ho.2.2.2.1, herr, htxie, hempty⟩
  | trl _ _ _ _ _ hb =>
    obtain ⟨hrx, htx, hp, ⟨_, _, hwf, hin⟩, herr, htxie, hempty⟩ := txPut_ok ho (trailerOf s.blk.elink)
    rw [hb]
    exact ⟨hrx, htx, hp, ⟨by simp, by simp, hwf, hin⟩, herr, htxie, hempty⟩

/-! ### FGST and ESTAGE -/

/-- How an instruction moves FGST and the ESTAGE of its block together (R42 item 5): FGST encodes on the block at hand exactly
where ESTAGE is not 0, it encodes on another as before, and it is busy on no new port but this one. -/
structure FgstFollows (s t : State) : Prop where
  own : t.blk.estage ≠ .idle ↔ t.fgst = .encode s.portNo
  other : ∀ k, k ≠ s.portNo → (t.fgst = .encode k ↔ s.fgst = .encode k)
  port : ∀ k ∈ t.fgst.port?, k ∈ s.fgst.port? ∨ k = s.portNo

/-- Where ESTAGE and FGST stay, they agree as before. -/
theorem FgstFollows.of_eq {s t : State} (h : s.blk.estage ≠ .idle ↔ s.fgst = .encode s.portNo)
    (he : t.blk.estage = s.blk.estage) (hf : t.fgst = s.fgst) : FgstFollows s t :=
  ⟨by rw [he, hf]; exact h, fun _ _ => by rw [hf], fun _ hk => .inl (hf ▸ hk)⟩

/-- Where ESTAGE stays and no ENCODE begins or ends, they agree as before. -/
theorem FgstFollows.of_move {s t : State} (h : s.blk.estage ≠ .idle ↔ s.fgst = .encode s.portNo)
    (he : t.blk.estage = s.blk.estage) (hm : FgMove s t) : FgstFollows s t := by
  rcases hm with hf | ⟨hs, hf⟩
  · exact .of_eq h he hf
  · have ht : ∀ k, t.fgst ≠ .encode k := by rcases hf with e | ⟨op, e⟩ <;> simp [e]
    refine ⟨?_, fun k _ => iff_of_false (ht k) (hs k), ?_⟩
    · rw [he, h]; exact iff_of_false (hs _) (ht _)
    · rcases hf with e | ⟨op, e⟩ <;> simp [e, FgState.port?]

theorem rxHandler_estage (b : Block) : b.rxHandler.estage = b.estage := by rw [(rxHandler_frame b).1.eq]

theorem parse_estage (b : Block) (c : Byte) : (b.parse c).estage = b.estage := by rw [(parse_frame b c).1.eq]

theorem txHandler_estage (b : Block) : b.txHandler.estage = b.estage := by
  rcases txHandler_cases b with ⟨_, e⟩ | ⟨_, e⟩ <;> rw [e]

theorem lineDelivers_estage (c : Byte) (b : Block) : (b.lineDelivers c).estage = b.estage := by
  rcases lineDelivers_cases c b with ⟨_, e⟩ | ⟨_, e⟩ <;> simp [e]

/-- No stage before the trailer leads back to ESTAGE 0. -/
theorem StageMove.ne_idle {i : Instr} {b : Block} {v : Byte} {st : Stage} {eidx : Byte} (h : StageMove i b v st eidx) :
    st ≠ .idle := by
  rcases h with ⟨_, _, _, rfl, _⟩ | ⟨_, _, _, rfl, _⟩ | ⟨_, _, _, rfl, _⟩ | ⟨_, _, _, rfl, _⟩ | ⟨_, _, _, rfl, _⟩
  · decide
  · decide
  · decide
  · split <;> decide
  · split <;> decide

theorem ExecEffect.fgst_follows {i : Instr} {s t : State} (h : ExecEffect i s t)
    (ho : s.blk.estage ≠ .idle ↔ s.fgst = .encode s.portNo) : FgstFollows s t := by
  cases h with
  | quiet hb hm => exact .of_move ho (by rw [hb]) hm
  | init _ _ hm hb => exact .of_move ho (by rw [hb]; rfl) hm
  | put _ _ _ hm hb => exact .of_move ho (by rw [hb]; rfl) hm
  | get _ _ _ hm hb => exact .of_move ho (by rw [hb]) hm
  | dqGet _ _ _ _ hm hb => exact .of_move ho (by rw [hb]; rfl) hm
  | dqClear _ _ _ hm hb => exact .of_move ho (by rw [hb]; rfl) hm
  | lineIn c _ hf hb => exact .of_eq ho (by rw [hb, lineDelivers_estage]) hf
  | rx _ _ hf hb => exact .of_eq ho (by rw [hb, rxHandler_estage]) hf
  | tx _ _ hf hb => exact .of_eq ho (by rw [hb, txHandler_estage]) hf
  | lout _ _ hf hb => exact .of_eq ho (by rw [hb]; rfl) hf
  | parse c p _ _ hf hb => exact .of_eq ho (by rw [hb, parse_estage]) hf
  | encode l pl _ _ hs hf hb =>
    refine ⟨by simp [hb, hf, Block.latchFrame], fun k hk => ?_, by simp [hf, FgState.port?]⟩
    simp [hf, hs, Ne.symm hk]
  | stage v st i' hs _ hm hf hb =>
    exact ⟨by simp [hb, hf, hs, hm.ne_idle], fun k _ => by rw [hf], fun k hk => .inl (hf ▸ hk)⟩
  | trl hs _ _ _ hf hb =>
    refine ⟨by simp [hb, hf], fun k hk => ?_, by simp [hf, FgState.port?]⟩
    simp [hf, hs, Ne.symm hk]

/-! ### Instructions and steps -/

/-- The blocks after an instruction: the one at hand has been replaced (R250). -/
theorem ExecFrame.blocks {i : Instr} {s t : State} (h : ExecFrame i s t) : t.blocks = s.blocks.set s.portNo t.blk := by
  simp [State.blocks, State.portNo, h.below, h.above]

theorem portNo_lt (s : State) : s.portNo < s.blocks.length := by simp [State.portNo, State.blocks]

theorem getElem_portNo (s : State) : s.blocks[s.portNo]'(portNo_lt s) = s.blk := by simp [State.portNo, State.blocks]

theorem blk_mem_blocks (s : State) : s.blk ∈ s.blocks := by simp [State.blocks]

/-- Every instruction keeps the invariants. -/
theorem exec_keeps_ok {i : Instr} {s t : State} (ho : s.Ok) (h : exec i s = .next t) : t.Ok := by
  obtain ⟨frame, effect⟩ := exec_cases h
  obtain ⟨hblocks, hfgst, hport⟩ := ho
  have hown := hfgst s.portNo (portNo_lt s)
  rw [getElem_portNo] at hown
  have follows := effect.fgst_follows hown
  have hlen : t.blocks.length = s.blocks.length := by simp [frame.blocks]
  refine ⟨fun b hb => ?_, fun k hk => ?_, fun k hk => ?_⟩
  · rw [frame.blocks] at hb
    rcases List.mem_or_eq_of_mem_set hb with hb | rfl
    · exact hblocks b hb
    · exact effect.block_ok (hblocks _ (blk_mem_blocks s))
  · simp only [frame.blocks, List.getElem_set]
    split
    · rename_i e
      rw [← e]
      exact follows.own
    · rename_i e
      rw [follows.other k (Ne.symm e)]
      exact hfgst k (hlen ▸ hk)
  · rw [hlen]
    rcases follows.port k hk with hs | rfl
    · exact hport k hs
    · exact portNo_lt s

/-- The invariants speak of the blocks in port order and of FGST alone. -/
theorem SameSystem.keeps_ok {s u : State} (h : SameSystem s u) (ho : s.Ok) : u.Ok := by
  obtain ⟨hb, hf, _⟩ := h
  unfold State.Ok
  simpa only [hb, hf] using ho

/-- Settles O45: the fetch changes neither a block nor FGST, and the instruction it runs keeps the invariants. -/
theorem everyStepKeepsTheInvariants : Obligations.EveryStepKeepsTheInvariants := by
  intro s t ho hstep
  have keeps := fetch_keeps s
  rcases step_cases hstep with ⟨i, u, hrun, hexec⟩ | hpass
  · rw [hrun] at keeps
    exact exec_keeps_ok (keeps.keeps_ok ho) hexec
  · rw [hpass] at keeps
    exact keeps.keeps_ok ho

end Sys2Proof.Machine
end

section
/-! The single-writer table (10_state.md R41). A block has four groups of registers: the receive side, the transmit side, the
parser with ERR, and the encoder. For each group, what an instruction can do to it is read off `ExecEffect` once, by naming
the effects that reach it (for all others its registers are untouched by definition); its rows of the table follow. -/

namespace Sys2Proof.Machine

/-! ### The receive side: RXQ, RDR, RXC, RXIE, BAUD -/

/-- The receive side of two blocks agrees. -/
structure Block.SameReceive (b b' : Block) : Prop where
  rxq : b'.rxq = b.rxq
  rdr : b'.rdr = b.rdr
  rxc : b'.rxc = b.rxc
  rxie : b'.rxie = b.rxie
  baud : b'.baud = b.baud

theorem parse_sameReceive (b : Block) (c : Byte) : b.SameReceive (b.parse c) := by
  obtain ⟨frame, hrxq, hrxc⟩ := parse_frame b c
  exact ⟨hrxq, by rw [frame.eq], hrxc, by rw [frame.eq], by rw [frame.eq]⟩

/-- What an instruction can do to the receive side. -/
theorem ExecEffect.receive_cases {i : Instr} {s t : State} (h : ExecEffect i s t) :
    s.blk.SameReceive t.blk ∨
    (∃ baud, i = .init baud ∧ t.blk = s.blk.initialise baud) ∨
    (i = .get ∧ s.blk.parser = none ∧ t.blk = { s.blk with rxq := s.blk.rxq.pop }) ∨
    (∃ c, i = .lineIn c ∧ t.blk = s.blk.lineDelivers c) ∨
    (i = .rxIsr ∧ t.blk = s.blk.rxHandler) := by
  cases h with
  | init baud hi _ hb => exact .inr (.inl ⟨baud, hi, hb⟩)
  | get hi hn _ _ hb => exact .inr (.inr (.inl ⟨hi, hn, hb⟩))
  | lineIn c hi _ hb => exact .inr (.inr (.inr (.inl ⟨c, hi, hb⟩)))
  | rx hi _ _ hb => exact .inr (.inr (.inr (.inr ⟨hi, hb⟩)))
  | parse c p _ _ _ hb => exact .inl (hb ▸ parse_sameReceive s.blk c)
  | tx _ _ _ hb =>
    rcases txHandler_cases s.blk with ⟨_, e⟩ | ⟨_, e⟩ <;> rw [e] at hb <;> exact .inl (hb ▸ ⟨rfl, rfl, rfl, rfl, rfl⟩)
  | quiet hb => exact .inl (hb ▸ ⟨rfl, rfl, rfl, rfl, rfl⟩)
  | _ => rename_i hb; exact .inl (hb ▸ ⟨rfl, rfl, rfl, rfl, rfl⟩)

/-- The rows of RXQ, RDR, RXC, RXIE and BAUD. -/
theorem ExecEffect.receive_writers {i : Instr} {s t : State} (h : ExecEffect i s t) :
    (i ≠ .rxIsr → t.blk.rxq.buf = s.blk.rxq.buf ∧ ((∀ baud, i ≠ .init baud) → t.blk.rxq.head = s.blk.rxq.head)) ∧
    ((∀ baud, i ≠ .init baud) → t.blk.rxq.tail ≠ s.blk.rxq.tail →
      (i = .get ∧ s.blk.parser.isSome = false) ∨ (i = .rxIsr ∧ s.blk.parser.isSome = true)) ∧
    ((∀ b, i ≠ .lineIn b) → t.blk.rdr = s.blk.rdr) ∧
    ((∀ baud, i ≠ .init baud) → t.blk.rxc ≠ s.blk.rxc →
      (t.blk.rxc = true ∧ ∃ b, i = .lineIn b) ∨ (t.blk.rxc = false ∧ i = .rxIsr)) ∧
    ((∀ baud, i ≠ .init baud) → t.blk.rxie = s.blk.rxie ∧ t.blk.baud = s.blk.baud) := by
  rcases h.receive_cases with hsame | ⟨baud, rfl, hb⟩ | ⟨rfl, hn, hb⟩ | ⟨c, rfl, hb⟩ | ⟨rfl, hb⟩
  · simp [hsame.rxq, hsame.rdr, hsame.rxc, hsame.rxie, hsame.baud]
  · simp [hb, Block.initialise]
  · simp [hb, hn]
  · rcases lineDelivers_cases c s.blk with ⟨_, e⟩ | ⟨_, e⟩ <;> simp [hb, e]
  · obtain ⟨frame, hrxc, htail⟩ := rxHandler_frame s.blk
    have hrdr : t.blk.rdr = s.blk.rdr := by rw [hb, frame.eq]
    have hrxie : t.blk.rxie = s.blk.rxie := by rw [hb, frame.eq]
    have hbaud : t.blk.baud = s.blk.baud := by rw [hb, frame.eq]
    refine ⟨absurd rfl, fun _ hne => .inr ⟨rfl, ?_⟩, fun _ => hrdr, fun _ _ => .inr ⟨by rw [hb, hrxc], rfl⟩, fun _ => ⟨hrxie, hbaud⟩⟩
    by_contra hn
    exact hne (by rw [hb, htail (by simpa using hn)])

/-! ### The transmit side: TXQ, TDR, TXRDY, TXIE -/

/-- The transmit side of two blocks agrees. -/
structure Block.SameTransmit (b b' : Block) : Prop where
  txq : b'.txq = b.txq
  tdr : b'.tdr = b.tdr
  txrdy : b'.txrdy = b.txrdy
  txie : b'.txie = b.txie

theorem HandlerFrame.sameTransmit {b b' : Block} (h : HandlerFrame b b') : b.SameTransmit b' := by
  rw [h.eq]
  exact ⟨rfl, rfl, rfl, rfl⟩

/-- What an instruction can do to the transmit side: PUT and the stages push a byte as `txPut` does. -/
theorem ExecEffect.transmit_cases {i : Instr} {s t : State} (h : ExecEffect i s t) :
    s.blk.SameTransmit t.blk ∨
    (∃ baud, i = .init baud ∧ t.blk = s.blk.initialise baud) ∨
    (((∃ b, i = .put b) ∨ i.role = .stage) ∧ ∃ v, (s.blk.txPut v).SameTransmit t.blk) ∨
    (i = .txIsr ∧ t.blk = s.blk.txHandler) ∨
    (i = .lineOut ∧ t.blk = s.blk.lineTakes) := by
  cases h with
  | init baud hi _ hb => exact .inr (.inl ⟨baud, hi, hb⟩)
  | put b hi _ _ hb => exact .inr (.inr (.inl ⟨.inl ⟨b, hi⟩, b, hb ▸ ⟨rfl, rfl, rfl, rfl⟩⟩))
  | stage v _ _ _ _ hm _ hb => exact .inr (.inr (.inl ⟨.inr hm.role, v, hb ▸ ⟨rfl, rfl, rfl, rfl⟩⟩))
  | trl _ _ hi _ _ hb => exact .inr (.inr (.inl ⟨.inr (by rw [hi]; rfl), trailerOf s.blk.elink, hb ▸ ⟨rfl, rfl, rfl, rfl⟩⟩))
  | tx hi _ _ hb => exact .inr (.inr (.inr (.inl ⟨hi, hb⟩)))
  | lout hi _ _ hb => exact .inr (.inr (.inr (.inr ⟨hi, hb⟩)))
  | rx _ _ _ hb => exact .inl (hb ▸ (rxHandler_frame s.blk).1.sameTransmit)
  | parse c _ _ _ _ hb => exact .inl (hb ▸ (parse_frame s.blk c).1.sameTransmit)
  | lineIn c _ _ hb =>
    rcases lineDelivers_cases c s.blk with ⟨_, e⟩ | ⟨_, e⟩ <;> rw [e] at hb <;> exact .inl (hb ▸ ⟨rfl, rfl, rfl, rfl⟩)
  | quiet hb => exact .inl (hb ▸ ⟨rfl, rfl, rfl, rfl⟩)
  | _ => rename_i hb; exact .inl (hb ▸ ⟨rfl, rfl, rfl, rfl⟩)

theorem push_tail (q : Queue) (b : Byte) : (q.push b).1.tail = q.tail := by
  rcases q.push_cases b with ⟨_, e⟩ | ⟨_, e⟩ <;> simp [e]

/-- The rows of TXQ, TDR, TXRDY and TXIE. -/
theorem ExecEffect.transmit_writers {i : Instr} {s t : State} (h : ExecEffect i s t) :
    ((∀ b, i ≠ .put b) → i.role ≠ .stage →
      t.blk.txq.buf = s.blk.txq.buf ∧ ((∀ baud, i ≠ .init baud) → t.blk.txq.head = s.blk.txq.head)) ∧
    (i ≠ .txIsr → t.blk.tdr = s.blk.tdr ∧ ((∀ baud, i ≠ .init baud) → t.blk.txq.tail = s.blk.txq.tail)) ∧
    (t.blk.txrdy ≠ s.blk.txrdy → (t.blk.txrdy = false ∧ i = .txIsr) ∨ (t.blk.txrdy = true ∧ i = .lineOut)) ∧
    ((∀ baud, i ≠ .init baud) → t.blk.txie ≠ s.blk.txie →
      (t.blk.txie = true ∧ ((∃ b, i = .put b) ∨ i.role = .stage)) ∨ (t.blk.txie = false ∧ i = .txIsr)) := by
  rcases h.transmit_cases with hsame | ⟨baud, rfl, hb⟩ | ⟨hi, v, hput⟩ | ⟨rfl, hb⟩ | ⟨rfl, hb⟩
  · simp [hsame.txq, hsame.tdr, hsame.txrdy, hsame.txie]
  · simp [hb, Block.initialise]
  · refine ⟨fun hnput hnstage => ?_, fun _ => ⟨hput.tdr, fun _ => by rw [hput.txq]; exact push_tail _ v⟩,
      absurd hput.txrdy, fun _ _ => .inl ⟨hput.txie, hi⟩⟩
    rcases hi with ⟨b, hb⟩ | hr
    · exact absurd hb (hnput b)
    · exact absurd hr hnstage
  · rcases txHandler_cases s.blk with ⟨_, e⟩ | ⟨_, e⟩ <;> simp [hb, e]
  · simp [hb, Block.lineTakes]

/-! ### The parser and ERR -/

/-- What an instruction can do to the parser and to ERR. -/
theorem ExecEffect.parser_cases {i : Instr} {s t : State} (h : ExecEffect i s t) :
    (t.blk.parser = s.blk.parser ∧ (t.blk.err = s.blk.err ∨ ∃ c, i = .lineIn c)) ∨
    (∃ p, s.blk.parser = some p ∧ t.blk.err = s.blk.err ∧
      (i = .dqGet ∧ t.blk.parser = some { p with dq := p.dq.pop } ∨
       i = .dqClear ∧ t.blk.parser = some { p with dq := p.dq.flush })) ∨
    ((i = .rxIsr ∨ i.role = .byteClass) ∧ HandlerFrame s.blk t.blk) := by
  cases h with
  | dqGet p hi hp _ _ hb => exact .inr (.inl ⟨p, hp, by rw [hb]; rfl, .inl ⟨hi, by rw [hb]; rfl⟩⟩)
  | dqClear p hi hp _ hb => exact .inr (.inl ⟨p, hp, by rw [hb]; rfl, .inr ⟨hi, by rw [hb]; rfl⟩⟩)
  | rx hi _ _ hb => exact .inr (.inr ⟨.inl hi, hb ▸ (rxHandler_frame s.blk).1⟩)
  | parse c p _ hi _ hb => exact .inr (.inr ⟨.inr (by rw [hi]; exact classify_instr_role _ _), hb ▸ (parse_frame s.blk c).1⟩)
  | lineIn c hi _ hb =>
    rcases lineDelivers_cases c s.blk with ⟨_, e⟩ | ⟨_, e⟩ <;> rw [e] at hb <;> exact .inl ⟨by simp [hb], .inr ⟨c, hi⟩⟩
  | tx _ _ _ hb =>
    rcases txHandler_cases s.blk with ⟨_, e⟩ | ⟨_, e⟩ <;> rw [e] at hb <;> exact .inl ⟨by rw [hb], .inl (by rw [hb])⟩
  | quiet hb => exact .inl ⟨by rw [hb], .inl (by rw [hb])⟩
  | _ => rename_i hb; exact .inl (hb ▸ ⟨rfl, .inl rfl⟩)

/-- The rows of DQ, the parser's registers and ERR. -/
theorem ExecEffect.parser_writers {i : Instr} {s t : State} (h : ExecEffect i s t) :
    (i ≠ .rxIsr → i.role ≠ .byteClass → t.blk.parser.map Parser.handlerView = s.blk.parser.map Parser.handlerView) ∧
    (i ≠ .dqGet → i ≠ .dqClear → t.blk.parser.map (fun p => p.dq.tail) = s.blk.parser.map (fun p => p.dq.tail)) ∧
    (t.blk.err ≠ s.blk.err → (∃ b, i = .lineIn b) ∨ i = .rxIsr ∨ i.role = .byteClass) := by
  rcases h.parser_cases with ⟨hp, herr⟩ | ⟨p, hp, herr, ⟨rfl, hp'⟩ | ⟨rfl, hp'⟩⟩ | ⟨hi, frame⟩
  · exact ⟨fun _ _ => by rw [hp], fun _ _ => by rw [hp], fun hne => .inl (herr.resolve_left hne)⟩
  · exact ⟨fun _ _ => by rw [hp, hp']; rfl, absurd rfl, absurd herr⟩
  · exact ⟨fun _ _ => by rw [hp, hp']; rfl, fun _ => absurd rfl, absurd herr⟩
  · exact ⟨fun hnrx hnclass => (hi.elim hnrx hnclass).elim, fun _ _ => frame.tail, fun _ => .inr hi⟩

/-! ### The encoder: ESTAGE, ELINK, ELEN, EIDX, EPAY -/

/-- What an ENCODE latches and no stage writes agrees. -/
structure Block.SameLatch (b b' : Block) : Prop where
  elink : b'.elink = b.elink
  elen : b'.elen = b.elen
  epay : b'.epay = b.epay

theorem HandlerFrame.encoder {b b' : Block} (h : HandlerFrame b b') :
    b.SameLatch b' ∧ b'.eidx = b.eidx ∧ b'.estage = b.estage := by
  rw [h.eq]
  exact ⟨⟨rfl, rfl, rfl⟩, rfl, rfl⟩

/-- A stage before the trailer moves EIDX only in the payload (R165). -/
theorem StageMove.eidx_eq {i : Instr} {b : Block} {v : Byte} {st : Stage} {eidx : Byte} (h : StageMove i b v st eidx)
    (hi : i ≠ .ePay) : eidx = b.eidx := by
  rcases h with ⟨_, _, _, _, e⟩ | ⟨_, _, _, _, e⟩ | ⟨_, _, _, _, e⟩ | ⟨_, _, _, _, e⟩ | ⟨rfl, _⟩
  · exact e
  · exact e
  · exact e
  · exact e
  · exact absurd rfl hi

/-- What an instruction can do to the encoder's registers. -/
theorem ExecEffect.encoder_cases {i : Instr} {s t : State} (h : ExecEffect i s t) :
    (∃ link payload, i = .encode link payload) ∨
    (s.blk.SameLatch t.blk ∧ (i ≠ .ePay → t.blk.eidx = s.blk.eidx) ∧ (t.blk.estage = s.blk.estage ∨ i.role = .stage)) := by
  have same : ∀ {b : Block}, t.blk = b → s.blk.SameLatch b ∧ b.eidx = s.blk.eidx ∧ b.estage = s.blk.estage →
      s.blk.SameLatch t.blk ∧ (i ≠ .ePay → t.blk.eidx = s.blk.eidx) ∧ (t.blk.estage = s.blk.estage ∨ i.role = .stage) := by
    rintro _ rfl ⟨hlatch, hidx, hstage⟩
    exact ⟨hlatch, fun _ => hidx, .inl hstage⟩
  cases h with
  | encode l pl hi => exact .inl ⟨l, pl, hi⟩
  | stage v st i' _ _ hm _ hb =>
    exact .inr (by rw [hb]; exact ⟨⟨rfl, rfl, rfl⟩, fun hi => hm.eidx_eq hi, .inr hm.role⟩)
  | trl _ _ hi _ _ hb => exact .inr (by rw [hb, hi]; exact ⟨⟨rfl, rfl, rfl⟩, fun _ => rfl, .inr rfl⟩)
  | rx _ _ _ hb => exact .inr (same hb (rxHandler_frame s.blk).1.encoder)
  | parse c _ _ _ _ hb => exact .inr (same hb (parse_frame s.blk c).1.encoder)
  | lineIn c _ _ hb =>
    rcases lineDelivers_cases c s.blk with ⟨_, e⟩ | ⟨_, e⟩ <;> rw [e] at hb <;>
      exact .inr (same hb ⟨⟨rfl, rfl, rfl⟩, rfl, rfl⟩)
  | tx _ _ _ hb =>
    rcases txHandler_cases s.blk with ⟨_, e⟩ | ⟨_, e⟩ <;> rw [e] at hb <;> exact .inr (same hb ⟨⟨rfl, rfl, rfl⟩, rfl, rfl⟩)
  | quiet hb => exact .inr (same hb ⟨⟨rfl, rfl, rfl⟩, rfl, rfl⟩)
  | _ => rename_i hb; exact .inr (same hb ⟨⟨rfl, rfl, rfl⟩, rfl, rfl⟩)

/-- The rows of ESTAGE, ELINK, ELEN, EPAY and EIDX. -/
theorem ExecEffect.encoder_writers {i : Instr} {s t : State} (h : ExecEffect i s t) :
    (t.blk.estage ≠ s.blk.estage → (∃ link payload, i = .encode link payload) ∨ i.role = .stage) ∧
    ((∀ link payload, i ≠ .encode link payload) →
      t.blk.elink = s.blk.elink ∧ t.blk.elen = s.blk.elen ∧ t.blk.epay = s.blk.epay ∧
      (i ≠ .ePay → t.blk.eidx = s.blk.eidx)) := by
  rcases h.encoder_cases with ⟨l, pl, hi⟩ | ⟨latch, hidx, hstage⟩
  · exact ⟨fun _ => .inl ⟨l, pl, hi⟩, fun hn => absurd hi (hn l pl)⟩
  · exact ⟨fun hne => .inr (hstage.resolve_left hne), fun _ => ⟨latch.elink, latch.elen, latch.epay, hidx⟩⟩

/-- Only an operation on a port and the last stage change FGST. -/
theorem exec_fgst_writers {i : Instr} {s t : State} (h : exec i s = .next t) (hne : t.fgst ≠ s.fgst) :
    i.role = .port ∨ i = .eTrl := by
  by_contra hn
  obtain ⟨hport, hlast⟩ := not_or.1 hn
  exact hne (exec_fgst h hport hlast)

/-- Settles O52: the rows of the four groups, GIE and FGST. -/
theorem eachRegisterHasItsWriters : Obligations.EachRegisterHasItsWriters := by
  intro i s t h
  obtain ⟨frame, effect⟩ := exec_cases h
  obtain ⟨rxqHead, rxqTail, rdr, rxc, rxieBaud⟩ := effect.receive_writers
  obtain ⟨txqHead, txqTail, txrdy, txie⟩ := effect.transmit_writers
  obtain ⟨handlerView, dqTail, err⟩ := effect.parser_writers
  obtain ⟨estage, latch⟩ := effect.encoder_writers
  exact ⟨rxqHead, rxqTail, txqHead, txqTail, handlerView, dqTail, rdr, rxc, txrdy, txie, rxieBaud, frame.gie, err, estage,
    latch, exec_fgst_writers h⟩

end Sys2Proof.Machine
end

section
/-! The ring buffer (20_memory.md R62 to R66, R74): what one push and one pop do, and by induction on the moves what any
sequence of them does. -/

namespace Sys2Proof.Machine

/-- The test of full, as arithmetic on the indices (R63). -/
theorem Queue.full_iff_next (q : Queue) (h : q.Ok) : q.full = true ↔ (q.head.toNat + 1) % q.cap = q.tail.toNat := by
  rw [q.full_iff, BitVec.toNat_eq, q.after_toNat q.head h]

/-- Settles O6: push drops on a full queue and stores on any other, and a store writes the slot of the old head alone. -/
theorem pushStoresAtOldHeadOrDrops : Obligations.PushStoresAtOldHeadOrDrops := by
  intro q b ok
  refine ⟨fun hfull => Queue.push_full ((q.full_iff_next ok).2 hfull) b, fun hroom => ?_⟩
  have room : q.full = false := by rwa [← Bool.not_eq_true, q.full_iff_next ok]
  rw [Queue.push_room room]
  exact ⟨rfl, q.after_toNat q.head ok, rfl, rfl, q.store_slot b⟩

/-- The oldest live byte is the one at tail (R66, R67). -/
theorem Queue.peek_zero (q : Queue) (h : q.Ok) : q.peek 0 = q.front := by
  obtain ⟨_, _, htail, _⟩ := h
  rw [Queue.peek, Nat.add_zero, Nat.mod_eq_of_lt htail, Queue.front]

/-- Settles O7: pop moves tail, to the index after it, and nothing else. -/
theorem popReadsAtTailAndAdvances : Obligations.PopReadsAtTailAndAdvances := by
  intro q ok _
  exact ⟨rfl, (q.peek_zero ok).symm, q.after_toNat q.tail ok, rfl, rfl, fun _ => rfl⟩

theorem push_cap (q : Queue) (b : Byte) : (q.push b).1.cap = q.cap := by
  rcases q.push_cases b with ⟨_, e⟩ | ⟨_, e⟩ <;> simp [e]

/-- What every push and every pop keeps, a play keeps. -/
theorem Queue.play_keeps {P : Queue → Prop} (push : ∀ q b, P q → P (q.push b).1) (pop : ∀ q, P q → P q.pop)
    (ms : List QueueMove) : ∀ q, P q → P (q.play ms).2.2 := by
  induction ms with
  | nil => exact fun _ h => h
  | cons m ms ih =>
    intro q h
    cases m with
    | push b => exact ih _ (push q b h)
    | pop =>
      rw [Queue.play]
      split
      · exact ih q h
      · exact ih _ (pop q h)

/-- What was live and what is stored in a play is, in order, what the play pops and what is live after it. -/
theorem Queue.live_play (ms : List QueueMove) :
    ∀ q : Queue, q.Ok → q.live ++ (q.play ms).1 = (q.play ms).2.1 ++ (q.play ms).2.2.live := by
  induction ms with
  | nil => intro q _; simp [Queue.play]
  | cons m ms ih =>
    intro q ok
    cases m with
    | push b =>
      rcases q.push_cases b with ⟨_, e⟩ | ⟨room, e⟩
      · simpa [Queue.play, e] using ih q ok
      · simpa [Queue.play, e, q.live_store b ok room] using ih _ (q.store_ok b ok)
    | pop =>
      by_cases he : q.head = q.tail
      · simpa [Queue.play, q.empty_iff.2 he] using ih q ok
      · have hne : q.empty = false := by rwa [← Bool.not_eq_true, q.empty_iff]
        simpa [Queue.play, hne, q.live_pop ok he] using ih _ (q.pop_ok ok)

/-- Settles O8: the order by induction on the moves, the bound because a play ends in a queue in order of the same capacity. -/
theorem queueIsFirstInFirstOut : Obligations.QueueIsFirstInFirstOut := by
  intro q ms ok
  have ok' : (q.play ms).2.2.Ok := Queue.play_keeps Queue.push_ok Queue.pop_ok ms q ok
  have cap : (q.play ms).2.2.cap = q.cap :=
    Queue.play_keeps (P := fun r => r.cap = q.cap) (fun r b h => (push_cap r b).trans h) (fun _ h => h) ms q rfl
  have bound := (q.play ms).2.2.occ_lt ok'
  exact ⟨q.live_play ms ok, by rw [Queue.live_length]; omega⟩

end Sys2Proof.Machine
end

section
/-! What a turn of a handler, of the line or of a busy foreground comes to (20_memory.md R70, R71; 30_encoding.md R95, R103):
where what the agent presents decodes, the instruction it decodes to runs at the block of the turn; where it does not, the turn
passes. -/

namespace Sys2Proof.Machine

/-- A turn that passes is a step that changes the schedule at most (log entry 1). -/
theorem step_of_fetch_pass {s u : State} (h : s.fetch = .pass u) : step s = .next u := by
  simp only [step, h]

/-! ### Disabled events -/

theorem event_of_disabled {s : State} {enabled : Bool} (h : enabled = false) (f : Block → Block) :
    s.event enabled f = .next s := by
  simp [State.event, h]

/-- RX_ISR is taken where all its three flags are 1 (R70). -/
theorem rxEnabled_iff (s : State) : s.rxEnabled = true ↔ s.gie = true ∧ s.blk.rxie = true ∧ s.blk.rxc = true := by
  simp [State.rxEnabled, and_assoc]

/-- TX_ISR is taken where all its three flags are 1 (R70). -/
theorem txEnabled_iff (s : State) : s.txEnabled = true ↔ s.gie = true ∧ s.blk.txie = true ∧ s.blk.txrdy = true := by
  simp [State.txEnabled, and_assoc]

/-- LINE_OUT is taken where TXRDY is 0 (R70). -/
theorem outEnabled_iff (s : State) : s.outEnabled = true ↔ s.blk.txrdy = false := by
  simp [State.outEnabled]

theorem exec_rxIsr_of_disabled {s : State} (h : s.rxEnabled = false) : exec .rxIsr s = .next s := event_of_disabled h _

theorem exec_txIsr_of_disabled {s : State} (h : s.txEnabled = false) : exec .txIsr s = .next s := event_of_disabled h _

theorem exec_lineOut_of_disabled {s : State} (h : s.outEnabled = false) : exec .lineOut s = .next s := event_of_disabled h _

/-- Settles O25: each of the flags named disables its event, and a disabled event changes nothing. -/
theorem disabledEventChangesNothing : Obligations.DisabledEventChangesNothing := by
  intro s
  refine ⟨fun h => exec_rxIsr_of_disabled ?_, fun h => exec_txIsr_of_disabled ?_, fun h => exec_lineOut_of_disabled ?_⟩
  · rcases h with h | h | h <;> simp [State.rxEnabled, h]
  · rcases h with h | h | h <;> simp [State.txEnabled, h]
  · simp [State.outEnabled, h]

/-! ### What the flags decode to -/

theorem decode_rxVector (s : State) :
    decode (.rxVector s.rxVector) = if s.rxEnabled then .ok .rxIsr else .error .vectorNotEnabled := by
  simp only [decode, rxVector_enabled]

theorem decode_txVector (s : State) :
    decode (.txVector s.txVector) = if s.txEnabled then .ok .txIsr else .error .vectorNotEnabled := by
  simp only [decode, txVector_enabled]

theorem decode_outVector (s : State) :
    decode (.outVector s.outVector) = if s.outEnabled then .ok .lineOut else .error .vectorNotEnabled := by
  simp only [decode, outVector_enabled]

/-! ### Turns at a block -/

/-- What the agent presents decodes: the instruction runs at the block of the turn. -/
theorem fetchAt_of_decode {s u : State} {k : Nat} {presents : State → Encoded} {i : Instr} (hsel : s.select k = some u)
    (hdec : decode (presents u) = .ok i) : s.fetchAt k presents = .run i u := by
  simp only [State.fetchAt, hsel, hdec]

/-- What the agent presents selects no step: the turn passes. -/
theorem fetchAt_of_error {s u : State} {k : Nat} {presents : State → Encoded} {why : DecodeError} (hsel : s.select k = some u)
    (hdec : decode (presents u) = .error why) : s.fetchAt k presents = .pass s := by
  simp only [State.fetchAt, hsel, hdec]

/-- A scripted turn at a block that presents the flags of an event: the event's step where it is enabled, else no step. -/
theorem step_of_flags {s u : State} {t : Turn} {ts : List Turn} {k : Nat} {presents : State → Encoded} {enabled : Bool}
    {i : Instr} {why : DecodeError} (hscript : s.script = t :: ts)
    (hturn : ∀ v : State, v.fetchTurn t = v.fetchAt k presents) (hsel : ({ s with script := ts } : State).select k = some u)
    (hdec : decode (presents u) = if enabled then .ok i else .error why) :
    step s = if enabled then exec i u else .next { s with script := ts } := by
  have hfetch := (fetch_of_script hscript).trans (hturn _)
  cases enabled with
  | true => exact step_of_fetch_run (hfetch.trans (fetchAt_of_decode hsel hdec))
  | false => exact step_of_fetch_pass (hfetch.trans (fetchAt_of_error hsel hdec))

/-- Bytes that form a frame run as the instruction they decode to, at the block of the turn (R90). -/
theorem fetchWire_of_decode {s u : State} {k : Nat} {bytes : List Byte} {i : Instr} (hsel : s.select k = some u)
    (hdec : decode (.wire bytes) = .ok i) : s.fetchWire k bytes = .run i u := by
  simp only [State.fetchWire, hsel, hdec]

/-- Bytes that form no frame are put in the script one by one (R95; log entry 11). -/
theorem fetchWire_of_error {s u : State} {k : Nat} {bytes : List Byte} {why : DecodeError} (hsel : s.select k = some u)
    (hdec : decode (.wire bytes) = .error why) :
    s.fetchWire k bytes = .pass { s with script := deliveryTurns k bytes ++ s.script } := by
  simp only [State.fetchWire, hsel, hdec]

/-- Settles O42: each turn presents the flags, the byte or the bytes that its agent presents, and what they decode to runs. -/
theorem stepRunsTheEnabledEvent : Obligations.StepRunsTheEnabledEvent := by
  intro s u ts k hsel
  refine ⟨fun h => ?_, fun h => ?_, fun h => ?_, fun b h => ?_, fun bytes i h hdec => ?_, fun bytes why h hdec => ?_⟩
  · rw [step_of_flags h (fun _ => rfl) hsel (decode_rxVector u)]
    simp only [rxEnabled_iff]
  · rw [step_of_flags h (fun _ => rfl) hsel (decode_txVector u)]
    simp only [txEnabled_iff]
  · rw [step_of_flags h (fun _ => rfl) hsel (decode_outVector u)]
    simp only [outEnabled_iff]
  · exact step_of_fetch_run ((fetch_of_script h).trans (fetchAt_of_decode (presents := fun _ => .lineByte b) hsel rfl))
  · exact step_of_fetch_run ((fetch_of_script h).trans (fetchWire_of_decode hsel hdec))
  · rw [← deliveryTurns_eq]
    exact step_of_fetch_pass ((fetch_of_script h).trans (fetchWire_of_error hsel hdec))

/-! ### The busy foreground -/

/-- A foreground that holds presents the held operation again, on its port (R71). -/
theorem fetchTurn_fg_of_hold {s u : State} {k : Nat} {op : HeldOp} (h : s.fgst = .hold k op) (hsel : s.select k = some u) :
    s.fetchTurn (.agent .fg) = .run op.instr u := by
  simp only [State.fetchTurn, State.fetchForeground, h, hsel]

/-- A foreground that encodes presents ESTAGE of its block (R160). -/
theorem fetchTurn_fg_of_encode {s : State} {k : Nat} (h : s.fgst = .encode k) :
    s.fetchTurn (.agent .fg) = s.fetchAt k fun s => .stage s.blk.estage.code := by
  simp only [State.fetchTurn, State.fetchForeground, h]

/-- Settles O43: FGST selects the held operation, or the stage that ESTAGE decodes to. -/
theorem stepRetriesTheHeldOperationOrStage : Obligations.StepRetriesTheHeldOperationOrStage := by
  intro s u ts k hscript hsel
  have hfetch := fetch_of_script hscript
  have retry : ∀ op : HeldOp, s.fgst = .hold k op → step s = exec op.instr u := fun op h =>
    step_of_fetch_run (hfetch.trans (fetchTurn_fg_of_hold h hsel))
  refine ⟨fun b => retry (.put b), retry .get, retry .dqGet, fun i h hdec => ?_⟩
  have hstage : ({ s with script := ts } : State).fetchTurn (.agent .fg) = .run i u :=
    (fetchTurn_fg_of_encode (s := { s with script := ts }) h).trans (fetchAt_of_decode hsel hdec)
  exact step_of_fetch_run (hfetch.trans hstage)

end Sys2Proof.Machine
end

section
/-! A critical section (20_memory.md R76): what the handlers own on a block, and that with GIE = 0 no step changes it on any
block. The single-writer table (10_state.md R41) names the writers; with GIE = 0 the two handlers are no steps, and PARSE is a
step of none but the receive handler (R185). -/

namespace Sys2Proof.Machine

/-- Two blocks agree in what the handlers own, the indices apart: the parser's registers and the producer's side of DQ, TDR,
RXQ.buf, and ERR less LINE_OVR. -/
structure Block.SameHandlerState (b b' : Block) : Prop where
  parser : b'.parser.map Parser.handlerView = b.parser.map Parser.handlerView
  tdr : b'.tdr = b.tdr
  rxqBuf : b'.rxq.buf = b.rxq.buf
  err : b'.err &&& 0xFB#8 = b.err &&& 0xFB#8

/-- The line sets no bit of ERR but LINE_OVR (R124). -/
theorem lineDelivers_err (c : Byte) (b : Block) : (b.lineDelivers c).err &&& 0xFB#8 = b.err &&& 0xFB#8 := by
  rcases lineDelivers_cases c b with ⟨_, e⟩ | ⟨_, e⟩ <;> rw [e]
  have distrib : ∀ x y m : BitVec 8, (x ||| y) &&& m = x &&& m ||| y &&& m := by intros; ext; simp; grind
  simp [distrib, Event.code]

/-- Outside the handlers and PARSE only LINE_IN sets bits of ERR, and none but LINE_OVR (R33, R124). -/
theorem exec_err_of_not_handler {i : Instr} {s t : State} (h : exec i s = .next t) (hrx : i ≠ .rxIsr)
    (hclass : i.role ≠ .byteClass) : t.blk.err &&& 0xFB#8 = s.blk.err &&& 0xFB#8 := by
  by_cases herr : t.blk.err = s.blk.err
  · rw [herr]
  · rcases (exec_cases h).2.parser_writers.2.2 herr with ⟨c, rfl⟩ | hi | hi
    · rcases event_cases s true (Block.lineDelivers c) with ⟨_, e⟩ | ⟨hf, _⟩
      · rw [exec, execLineIn, e, Host.Outcome.next.injEq] at h
        subst h
        exact lineDelivers_err c s.blk
      · exact absurd hf (by decide)
    · exact absurd hi hrx
    · exact absurd hi hclass

/-- An instruction other than the handlers and PARSE leaves what the handlers own. -/
theorem exec_sameHandlerState {i : Instr} {s t : State} (h : exec i s = .next t) (hrx : i ≠ .rxIsr) (htx : i ≠ .txIsr)
    (hclass : i.role ≠ .byteClass) : s.blk.SameHandlerState t.blk where
  parser := (exec_cases h).2.parser_writers.1 hrx hclass
  tdr := ((exec_cases h).2.transmit_writers.2.1 htx).1
  rxqBuf := ((exec_cases h).2.receive_writers.1 hrx).1
  err := exec_err_of_not_handler h hrx hclass

/-- An instruction other than the handlers, PARSE and INIT leaves the indices that R41 gives the handlers. -/
theorem exec_handlerIndices {i : Instr} {s t : State} (h : exec i s = .next t) (hrx : i ≠ .rxIsr) (htx : i ≠ .txIsr)
    (hclass : i.role ≠ .byteClass) (hinit : ∀ baud, i ≠ .init baud) : t.blk.handlerIndices = s.blk.handlerIndices := by
  have effect := (exec_cases h).2
  obtain ⟨rxqHead, rxqTail, _⟩ := effect.receive_writers
  obtain ⟨_, txqTail, _⟩ := effect.transmit_writers
  obtain ⟨handlerView, _⟩ := effect.parser_writers
  have hsome : t.blk.parser.isSome = s.blk.parser.isSome := by
    simpa using congrArg Option.isSome (handlerView hrx hclass)
  have htail : t.blk.parser.map (fun _ => t.blk.rxq.tail) = s.blk.parser.map (fun _ => s.blk.rxq.tail) := by
    cases hp : s.blk.parser with
    | none => simpa [hp] using hsome
    | some p =>
      have stays : t.blk.rxq.tail = s.blk.rxq.tail := by
        by_contra hne
        rcases rxqTail hinit hne with ⟨_, hnone⟩ | ⟨hi, _⟩
        · simp [hp] at hnone
        · exact hrx hi
      obtain ⟨p', hp'⟩ := Option.isSome_iff_exists.1 (hsome.trans (by rw [hp]; rfl))
      simp [hp', stays]
  rw [Block.handlerIndices, (rxqHead hrx).2 hinit, (txqTail htx).2 hinit, htail, Block.handlerIndices]

/-- What the block at hand agrees in before and after an instruction, all blocks do (R250). -/
theorem ExecFrame.map_blocks {α : Type} {i : Instr} {s t : State} (h : ExecFrame i s t) {f : Block → α}
    (hf : f t.blk = f s.blk) : t.blocks.map f = s.blocks.map f := by
  simp [State.blocks, h.below, h.above, hf]

/-- With GIE = 0 an instruction that is a step of an agent leaves what the handlers own, and all but INIT the handlers' indices:
neither handler is enabled (R70). -/
theorem exec_of_gie_off {i : Instr} {s t : State} (hgie : s.gie = false) (hclass : i.role ≠ .byteClass)
    (h : exec i s = .next t) :
    s.blk.SameHandlerState t.blk ∧ ((∀ baud, i ≠ .init baud) → t.blk.handlerIndices = s.blk.handlerIndices) := by
  have idle : exec i s = .next s →
      s.blk.SameHandlerState t.blk ∧ ((∀ baud, i ≠ .init baud) → t.blk.handlerIndices = s.blk.handlerIndices) := by
    intro hs
    rw [h, Host.Outcome.next.injEq] at hs
    subst hs
    exact ⟨⟨rfl, rfl, rfl, rfl⟩, fun _ => rfl⟩
  by_cases hrx : i = .rxIsr
  · exact idle (hrx ▸ exec_rxIsr_of_disabled (by simp [State.rxEnabled, hgie]))
  by_cases htx : i = .txIsr
  · exact idle (htx ▸ exec_txIsr_of_disabled (by simp [State.txEnabled, hgie]))
  exact ⟨exec_sameHandlerState h hrx htx hclass, exec_handlerIndices h hrx htx hclass⟩

/-- Settles O56: the fetch changes no block and runs no byte class; an instruction with GIE = 0 leaves what the handlers own on
its block, and every instruction leaves the other blocks. -/
theorem handlerStateIsStableWithGieOff : Obligations.HandlerStateIsStableWithGieOff := by
  intro s t hgie hstep
  have keeps := fetch_keeps s
  have noClass := fetch_noByteClass s
  rcases step_cases hstep with ⟨i, u, hrun, hexec⟩ | hpass
  · rw [hrun] at keeps noClass
    obtain ⟨hblocks, _, hgie'⟩ := keeps
    obtain ⟨same, indices⟩ := exec_of_gie_off (hgie'.trans hgie) noClass hexec
    have frame := (exec_cases hexec).1
    rw [← hblocks]
    refine ⟨frame.map_blocks same.parser, frame.map_blocks same.tdr, frame.map_blocks same.rxqBuf,
      frame.map_blocks same.err, ?_⟩
    by_cases hinit : ∃ baud, i = .init baud
    · obtain ⟨baud, rfl⟩ := hinit
      exact .inl ⟨baud, u, hrun⟩
    · exact .inr (frame.map_blocks (indices fun baud e => hinit ⟨baud, e⟩))
  · rw [hpass] at keeps
    obtain ⟨hblocks, _, _⟩ := keeps
    rw [hblocks]
    exact ⟨rfl, rfl, rfl, rfl, .inr rfl⟩

end Sys2Proof.Machine
end

section
/-! Where memory is stored to (20_memory.md R64, R65; 41_mux_encoder.md R160): a push stores at the old head or nowhere, a pop,
a flush and INIT store nothing, and ENCODE latches below its payload's length. For each of the four memories, the effects that
reach it. -/

namespace Sys2Proof.Machine

/-- The one slot a push can change is that of the old head, where there is room (R65). -/
theorem push_slot_ne {q : Queue} {b : Byte} {j : Nat} (h : (q.push b).1.slot j ≠ q.slot j) :
    j = q.head.toNat ∧ q.full = false := by
  rcases q.push_cases b with ⟨_, e⟩ | ⟨room, e⟩ <;> rw [e] at h
  · exact absurd rfl h
  · refine ⟨?_, room⟩
    by_contra hj
    exact h (by rw [Queue.store_slot, if_neg hj])

/-! ### TXQ -/

theorem mem_stages_of_role {i : Instr} (h : i.role = .stage) : i ∈ [Instr.eSof, .eLink, .eFlags, .eLen, .ePay, .eTrl] := by
  cases i with
  | eSof | eLink | eFlags | eLen | ePay | eTrl => simp
  | _ => simp [Instr.role] at h

/-- TXQ is stored to by the push of PUT and of the stages (R41). -/
theorem ExecEffect.txq_stored {i : Instr} {s t : State} (h : ExecEffect i s t) {j : Nat}
    (hne : t.blk.txq.slot j ≠ s.blk.txq.slot j) :
    j = s.blk.txq.head.toNat ∧ s.blk.txq.full = false ∧
      ((∃ b, i = .put b) ∨ i ∈ [Instr.eSof, .eLink, .eFlags, .eLen, .ePay, .eTrl]) := by
  rcases h.transmit_cases with same | ⟨baud, _, hb⟩ | ⟨hi, v, put⟩ | ⟨_, hb⟩ | ⟨_, hb⟩
  · exact absurd (by rw [same.txq]) hne
  · exact absurd (by rw [hb]; rfl) hne
  · rw [put.txq] at hne
    obtain ⟨hj, room⟩ := push_slot_ne hne
    exact ⟨hj, room, hi.imp_right mem_stages_of_role⟩
  · rcases txHandler_cases s.blk with ⟨_, e⟩ | ⟨_, e⟩ <;> rw [hb, e] at hne <;> exact absurd rfl hne
  · exact absurd (by rw [hb]; rfl) hne

/-! ### RXQ -/

/-- What the receive handler leaves in RXQ's memory is what its push left: PARSE stores nothing there (R125). -/
theorem rxHandler_slot (b : Block) (j : Nat) : b.rxHandler.rxq.slot j = (b.rxq.push b.rdr).1.slot j := by
  have pushed : b.rxPush.rxq = (b.rxq.push b.rdr).1 := by
    rcases rxPush_cases b with ⟨hf, e⟩ | ⟨hf, e⟩ <;> simp [e, hf]
  rw [← pushed, Block.rxHandler]
  split
  · rw [(drain_frame _ b.rxPush).2.2]
    rfl
  · rfl

/-- RXQ is stored to by the push of the receive handler (R41). -/
theorem ExecEffect.rxq_stored {i : Instr} {s t : State} (h : ExecEffect i s t) {j : Nat}
    (hne : t.blk.rxq.slot j ≠ s.blk.rxq.slot j) :
    j = s.blk.rxq.head.toNat ∧ s.blk.rxq.full = false ∧ i = .rxIsr := by
  rcases h.receive_cases with same | ⟨baud, _, hb⟩ | ⟨_, _, hb⟩ | ⟨c, _, hb⟩ | ⟨hi, hb⟩
  · exact absurd (by rw [same.rxq]) hne
  · exact absurd (by rw [hb]; rfl) hne
  · exact absurd (by rw [hb]; rfl) hne
  · rcases lineDelivers_cases c s.blk with ⟨_, e⟩ | ⟨_, e⟩ <;> rw [hb, e] at hne <;> exact absurd rfl hne
  · rw [hb, rxHandler_slot] at hne
    obtain ⟨hj, room⟩ := push_slot_ne hne
    exact ⟨hj, room, hi⟩

/-! ### DQ -/

/-- PARSE in Payload pushes its byte, whether or not it is the frame's last (R184). -/
theorem parseData_dq {b : Block} {c : Byte} {p p' : Parser} (hp' : (b.parseData c p).parser = some p') :
    p'.dq = (p.dq.push c).1 := by
  obtain ⟨b', q, hq, h⟩ := parseData_cases c b p
  have pushed : q = (p.dq.push c).1 := by rcases hq with ⟨hf, _, e⟩ | ⟨hf, _, e⟩ <;> simp [e, hf]
  have counted : p'.dq = q := by
    rcases h with ⟨_, e⟩ | ⟨_, e⟩ <;> rw [e, setParser_parser, Option.some.injEq] at hp' <;> exact hp' ▸ rfl
  exact counted.trans pushed

/-- PARSE leaves DQ as it is, or pushes a payload byte (R184). -/
theorem parse_dq {b : Block} {c : Byte} {p p' : Parser} (hp : b.parser = some p) (hp' : (b.parse c).parser = some p') :
    p'.dq = p.dq ∨ (classify p.pstate c = .data ∧ p'.dq = (p.dq.push c).1) := by
  rcases parse_cases b c with ⟨hn, _⟩ | ⟨q, hq, h⟩
  · simp [hp] at hn
  · obtain rfl : q = p := Option.some.inj (hq.symm.trans hp)
    have same : ∀ {b' : Block} {r : Parser}, b.parse c = b'.setParser r → r.dq = q.dq → p'.dq = q.dq := by
      intro b' r e hr
      rw [e, setParser_parser, Option.some.injEq] at hp'
      exact hp' ▸ hr
    rcases h with ⟨_, e⟩ | ⟨_, e⟩ | ⟨_, e⟩ | ⟨_, e⟩ | ⟨_, e⟩ | ⟨_, e⟩ | ⟨hk, e⟩
    · exact .inl (same e rfl)
    · exact .inl (same e rfl)
    · exact .inl (same e rfl)
    · exact .inl (same e rfl)
    · exact .inl (same e rfl)
    · exact .inl (same e rfl)
    · exact .inr ⟨hk, parseData_dq (e ▸ hp')⟩

/-- The memory of DQ is as it was, or RX_ISR or P_DATA has pushed a byte (R41, R184). -/
theorem ExecEffect.dq_cases {i : Instr} {s t : State} (h : ExecEffect i s t) (ho : s.blk.Ok) {p p' : Parser}
    (hp : s.blk.parser = some p) (hp' : t.blk.parser = some p') :
    (∀ j, p'.dq.slot j = p.dq.slot j) ∨ ((i = .rxIsr ∨ ∃ b, i = .pData b) ∧ ∃ c, p'.dq = (p.dq.push c).1) := by
  have same : ∀ {b : Block} {q : Parser}, t.blk = b → b.parser = some q → (∀ j, q.dq.slot j = p.dq.slot j) →
      ∀ j, p'.dq.slot j = p.dq.slot j := by
    rintro _ q rfl hq hslot
    obtain rfl : q = p' := Option.some.inj (hq.symm.trans hp')
    exact hslot
  cases h with
  | dqGet q _ hq _ _ hb =>
    obtain rfl : q = p := Option.some.inj (hq.symm.trans hp)
    exact .inl (same hb rfl fun _ => rfl)
  | dqClear q _ hq _ hb =>
    obtain rfl : q = p := Option.some.inj (hq.symm.trans hp)
    exact .inl (same hb rfl fun _ => rfl)
  | rx hi _ _ hb =>
    obtain ⟨hrx, _, _, _, _, _, hempty⟩ := ho
    have hsome : s.blk.parser.isSome = true := by rw [hp]; rfl
    have passed : ({ s.blk with rxc := false, rxq := (s.blk.rxq.store s.blk.rdr).pop } : Block).parser = some p := hp
    rw [hb, rxHandler_of_empty hsome hrx (hempty hsome)] at hp'
    rcases parse_dq passed hp' with e | ⟨_, e⟩
    · exact .inl fun j => by rw [e]
    · exact .inr ⟨.inl hi, _, e⟩
  | parse c q hq hi _ hb =>
    obtain rfl : q = p := Option.some.inj (hq.symm.trans hp)
    rw [hb] at hp'
    rcases parse_dq hp hp' with e | ⟨hk, e⟩
    · exact .inl fun j => by rw [e]
    · exact .inr ⟨.inr ⟨c, by rw [hi, hk]; rfl⟩, c, e⟩
  | lineIn c _ _ hb =>
    rcases lineDelivers_cases c s.blk with ⟨_, e⟩ | ⟨_, e⟩ <;> exact .inl (same (hb.trans e) hp fun _ => rfl)
  | tx _ _ _ hb => rcases txHandler_cases s.blk with ⟨_, e⟩ | ⟨_, e⟩ <;> exact .inl (same (hb.trans e) hp fun _ => rfl)
  | quiet hb => exact .inl (same hb hp fun _ => rfl)
  | _ => rename_i hb; exact .inl (same hb hp fun _ => rfl)

/-- DQ is stored to by the push of a payload byte (R41, R184). -/
theorem ExecEffect.dq_stored {i : Instr} {s t : State} (h : ExecEffect i s t) (ho : s.blk.Ok) {p p' : Parser}
    (hp : s.blk.parser = some p) (hp' : t.blk.parser = some p') {j : Nat} (hne : p'.dq.slot j ≠ p.dq.slot j) :
    j = p.dq.head.toNat ∧ p.dq.full = false ∧ (i = .rxIsr ∨ ∃ b, i = .pData b) := by
  rcases h.dq_cases ho hp hp' with same | ⟨hi, c, e⟩
  · exact absurd (same j) hne
  · rw [e] at hne
    obtain ⟨hj, room⟩ := push_slot_ne hne
    exact ⟨hj, room, hi⟩

/-! ### EPAY -/

/-- Latching a payload from slot `k` on writes no slot after its last byte's (R160). -/
theorem latchPayload_read_of_le (bs : List Byte) : ∀ (m : Memory) {k j : Nat}, k + bs.length ≤ j →
    (latchPayload m k bs).read j = m.read j := by
  induction bs with
  | nil => exact fun _ _ _ _ => rfl
  | cons b bs ih =>
    intro m k j hj
    rw [List.length_cons] at hj
    rw [latchPayload, ih _ (by omega), Memory.read_write_other m b (by omega)]

theorem HandlerFrame.epaySlot {b b' : Block} (h : HandlerFrame b b') (j : Nat) : b'.epaySlot j = b.epaySlot j := by
  rw [h.eq]
  rfl

/-- EPAY is stored to by ENCODE, below the length of its payload (R160). -/
theorem ExecEffect.epay_stored {i : Instr} {s t : State} (h : ExecEffect i s t) {j : Nat}
    (hne : t.blk.epaySlot j ≠ s.blk.epaySlot j) : ∃ link payload, i = .encode link payload ∧ j < payload.length := by
  cases h with
  | encode l pl hi _ _ _ hb =>
    refine ⟨l, pl, hi, Nat.lt_of_not_le fun hj => hne ?_⟩
    have hread : (latchPayload s.blk.epay 0 pl).read j = s.blk.epay.read j := latchPayload_read_of_le pl _ (by omega)
    simp [hb, Block.latchFrame, Block.epaySlot, hread]
  | rx _ _ _ hb => exact absurd (by rw [hb]; exact (rxHandler_frame s.blk).1.epaySlot j) hne
  | parse c _ _ _ _ hb => exact absurd (by rw [hb]; exact (parse_frame s.blk c).1.epaySlot j) hne
  | lineIn c _ _ hb =>
    rcases lineDelivers_cases c s.blk with ⟨_, e⟩ | ⟨_, e⟩ <;> rw [hb, e] at hne <;> exact absurd rfl hne
  | tx _ _ _ hb => rcases txHandler_cases s.blk with ⟨_, e⟩ | ⟨_, e⟩ <;> rw [hb, e] at hne <;> exact absurd rfl hne
  | quiet hb => exact absurd (by rw [hb]) hne
  | _ => rename_i hb; exact absurd (by rw [hb]; rfl) hne

/-- Settles O53: the four memories in turn; the invariants are needed for DQ alone, where RX_ISR parses one byte. -/
theorem onlyTheOldHeadSlotIsStored : Obligations.OnlyTheOldHeadSlotIsStored := by
  rintro i s t ⟨hblocks, _⟩ h
  have effect := (exec_cases h).2
  have ho : s.blk.Ok := hblocks _ (blk_mem_blocks s)
  exact ⟨fun j => effect.txq_stored, fun j => effect.rxq_stored, fun p p' hp hp' j => effect.dq_stored ho hp hp',
    fun j => effect.epay_stored⟩

end Sys2Proof.Machine
end

section
/-! The command word, the frame and the parser's bytes as bits (30_encoding.md R90, R94, R100 to R103): the fields of a word, the
formats, and that the decoder undoes the encoder. -/

namespace Sys2Proof

/-! ### The fields of a command word -/

theorem unpackBytes_packBytes (bs : List Byte) : unpackBytes bs.length (packBytes bs) = bs := by
  induction bs with
  | nil => rfl
  | cons b bs ih =>
    have hb : b.toNat < 256 := b.isLt
    have low : (b.toNat + 256 * packBytes bs) % 256 = b.toNat := by omega
    have high : (b.toNat + 256 * packBytes bs) / 256 = packBytes bs := by omega
    simp [unpackBytes, packBytes, low, high, ih]

theorem packBytes_unpackBytes (n : Nat) : ∀ {v : Nat}, v < 256 ^ n → packBytes (unpackBytes n v) = v := by
  induction n with
  | zero => exact fun hv => (Nat.lt_one_iff.1 hv).symm
  | succ n ih =>
    intro v hv
    have high : v / 256 < 256 ^ n := Nat.div_lt_of_lt_mul (by rwa [Nat.mul_comm, ← Nat.pow_succ])
    simp only [unpackBytes, packBytes, ih high, BitVec.toNat_ofNat]
    omega

@[simp] theorem unpackBytes_length (n : Nat) : ∀ v : Nat, (unpackBytes n v).length = n := by
  induction n with
  | zero => exact fun _ => rfl
  | succ n ih => intro v; simp [unpackBytes, ih]

/-- The field cmd[11:4] of an operation with one byte operand is that operand (R100, format C1). -/
theorem fieldA_operand (op : Nat) (b : Byte) (h : op < 16) : fieldA (op + 16 * b.toNat) = b := by
  have hb : b.toNat < 256 := b.isLt
  have field : (op + 16 * b.toNat) / 16 % 256 = b.toNat := by omega
  simp [fieldA, field]

theorem fieldN_lt (bits : Nat) : fieldN bits < 256 := Nat.mod_lt _ (by decide)

/-! ### The formats of command words -/

/-- The four formats of R101: C4 for INIT, C1 for PUT and DQ_PEEK, CV for ENCODE, C0 for every other operation. -/
theorem formatWidth_cases (bits : Nat) :
    (bits % 16 = 0 ∧ formatWidth bits = 36) ∨ ((bits % 16 = 1 ∨ bits % 16 = 8) ∧ formatWidth bits = 12) ∨
    (bits % 16 = 4 ∧ formatWidth bits = 20 + 8 * fieldN bits) ∨ formatWidth bits = 4 := by
  unfold formatWidth
  split <;> simp_all

theorem commandInstr_init {bits : Nat} (h : bits % 16 = 0) : commandInstr bits = .init (BitVec.ofNat 32 (bits / 16)) := by
  simp [commandInstr, h]

theorem commandInstr_put {bits : Nat} (h : bits % 16 = 1) : commandInstr bits = .put (fieldA bits) := by
  simp [commandInstr, h]

theorem commandInstr_dqPeek {bits : Nat} (h : bits % 16 = 8) : commandInstr bits = .dqPeek (fieldA bits) := by
  simp [commandInstr, h]

theorem commandInstr_encode {bits : Nat} (h : bits % 16 = 4) :
    commandInstr bits = .encode (fieldA bits) (unpackBytes (fieldN bits) (bits / 1048576)) := by
  simp [commandInstr, h]

theorem commandInstr_reservedF {bits : Nat} (h : bits % 16 = 15) : commandInstr bits = .reservedF := by
  simp [commandInstr, h]

/-- The fields of an ENCODE word are its operands (R100, format CV). -/
theorem commandInstr_encodeWord (link : Byte) {payload : List Byte} (h : payload.length ≤ 255) :
    commandInstr (4 + 16 * link.toNat + 4096 * payload.length + 1048576 * packBytes payload) = .encode link payload := by
  have hlink : link.toNat < 256 := link.isLt
  generalize hbits : 4 + 16 * link.toNat + 4096 * payload.length + 1048576 * packBytes payload = bits
  have a : bits / 16 % 256 = link.toNat := by omega
  have n : bits / 4096 % 256 = payload.length := by omega
  have rest : bits / 1048576 = packBytes payload := by omega
  simp [commandInstr_encode (bits := bits) (by omega), fieldA, fieldN, a, n, rest, unpackBytes_packBytes]

/-- The word of an operation without operands is its code (format C0, R101). -/
theorem encode_commandInstr_of_noOperand :
    ∀ bits < 16, formatWidth bits = 4 → bits ≠ 15 → encode (commandInstr bits) = .command 4 bits := by
  decide

/-- The encoder writes back the word whose operation and operands it is given, format by format (R100, R101). -/
theorem encode_commandInstr {bits : Nat} (hbits : bits < 2 ^ formatWidth bits) (hop : bits % 16 ≠ 15) :
    encode (commandInstr bits) = .command (formatWidth bits) bits := by
  rcases formatWidth_cases bits with ⟨op, width⟩ | ⟨op | op, width⟩ | ⟨op, width⟩ | width <;> rw [width] at hbits ⊢
  · rw [commandInstr_init op, encode, BitVec.toNat_ofNat]
    congr 1
    omega
  · rw [commandInstr_put op, encode, fieldA, BitVec.toNat_ofNat]
    congr 1
    omega
  · rw [commandInstr_dqPeek op, encode, fieldA, BitVec.toNat_ofNat]
    congr 1
    omega
  · have hpay : bits / 1048576 < 256 ^ fieldN bits := by
      apply Nat.div_lt_of_lt_mul
      rwa [Nat.pow_add, Nat.pow_mul] at hbits
    rw [commandInstr_encode op, encode, unpackBytes_length, packBytes_unpackBytes _ hpay, fieldA, BitVec.toNat_ofNat]
    congr 1
    unfold fieldN
    omega
  · exact encode_commandInstr_of_noOperand bits hbits width (by omega)

/-! ### What the decoder of command words answers -/

/-- A word that can be formed decodes to its operation with its operands (R100, R101). -/
theorem decode_command_of_formed {width bits : Nat} (h : (Encoded.command width bits).formed) :
    decode (.command width bits) = .ok (commandInstr bits) := by
  obtain ⟨hwidth, hbits⟩ := h
  rw [decode, decodeCommand, if_neg (by omega), if_pos hwidth]
  split
  · rw [commandInstr_reservedF ‹_›]
  · rfl

/-- A word that decodes is the reserved operation, or it can be formed (R102, R216; log entry 9). -/
theorem decodeCommand_ok {width bits : Nat} {i : Instr} (h : decodeCommand width bits = .ok i) :
    i = .reservedF ∨ (bits % 16 ≠ 15 ∧ width = formatWidth bits ∧ bits < 2 ^ width ∧ i = commandInstr bits) := by
  unfold decodeCommand at h
  split at h
  · cases h
  · split at h
    · cases h
      exact .inl rfl
    · split at h
      · cases h
        exact .inr ⟨‹_›, ‹_›, by omega, rfl⟩
      · cases h

/-- Settles O2: a word that decodes and is not the reserved operation can be formed, and the encoder writes back such a word. -/
theorem commandWordIsDeterminedByItsInstruction : Obligations.CommandWordIsDeterminedByItsInstruction := by
  intro width bits i h hi
  rcases decodeCommand_ok h with e | ⟨hop, rfl, hbits, rfl⟩
  · exact absurd e hi
  · exact encode_commandInstr hbits hop

/-! ### The parser's decode table -/

/-- In WaitSOF the mask 0xFF makes the row of P_SOF the byte 0xBF alone (R94). -/
theorem classify_waitSOF (b : Byte) : classify .waitSOF b = if b = 0xBF#8 then .sof else .skip := by
  have mask : b &&& 0xFF#8 = b := BitVec.and_allOnes
  rw [classify, mask]

/-- In WaitLength the mask 0xFF makes the row of P_LEN0 the byte 0x00 alone (R94). -/
theorem classify_waitLength (b : Byte) : classify .waitLength b = if b = 0x00#8 then .len0 else .lenN := by
  have mask : b &&& 0xFF#8 = b := BitVec.and_allOnes
  rw [classify, mask]

/-- Settles O5: the two states with two rows split on their one byte, the other three take every byte. -/
theorem parserDecodeTableIsTotal : Obligations.ParserDecodeTableIsTotal := by
  intro b
  have sof : decode (.parserByte 0#3 b) = .ok ((classify .waitSOF b).instr b) := rfl
  have len : decode (.parserByte 3#3 b) = .ok ((classify .waitLength b).instr b) := rfl
  refine ⟨?_, rfl, rfl, ?_, rfl⟩
  · rw [sof, classify_waitSOF]
    split <;> rfl
  · rw [len, classify_waitLength]
    split <;> rfl

/-- P_SKIP is answered for no byte 0xBF and P_LENN for no byte 0 (R94). -/
theorem classify_instr_wellFormed (ps : ParserState) (b : Byte) : ((classify ps b).instr b).wellFormed = true := by
  cases ps with
  | waitSOF => rw [classify_waitSOF]; split <;> simp_all [ByteClass.instr, Instr.wellFormed]
  | waitLength => rw [classify_waitLength]; split <;> simp_all [ByteClass.instr, Instr.wellFormed]
  | waitLink | waitFlags | payload => rfl

/-! ### Frames on the wire -/

/-- The bytes of a frame whose payload the length field can count decode to the frame (R90). -/
theorem decode_wireBytes (link flags : Byte) {payload : List Byte} (h : payload.length ≤ 255) (trailer : Byte) :
    decode (.wire (wireBytes link flags payload trailer)) = .ok (.muxframe link flags payload trailer) := by
  have count : payload.length % 256 = payload.length := Nat.mod_eq_of_lt (by omega)
  simp [wireBytes, decode, decodeWire, count]

/-- Bytes that decode form a frame of at most 255 payload bytes (R90). -/
theorem decodeWire_ok {bytes : List Byte} {i : Instr} (h : decodeWire bytes = .ok i) :
    ∃ link flags payload trailer, i = .muxframe link flags payload trailer ∧ payload.length ≤ 255 := by
  unfold decodeWire at h
  split at h
  · rename_i link flags n rest
    split at h
    · cases h
    · split at h
      · cases h
      · cases h
        have hn : n.toNat < 256 := n.isLt
        exact ⟨_, _, _, _, rfl, (List.length_take_le _ _).trans (by omega)⟩
  · cases h

/-! ### All seven decode tables -/

/-- Settles O1: command words decode field by field, frames by their length field, and the two parser rows that come second in
their state because a well-formed operand is not the byte of the first. -/
theorem decodeOfEncodeIsTheInstruction : Obligations.DecodeOfEncodeIsTheInstruction := by
  intro i hi
  cases i with
  | init baud =>
    rw [encode, decode_command_of_formed (Laws.EncodingFormed.init baud hi), commandInstr_init (by omega)]
    simp
  | put b =>
    rw [encode, decode_command_of_formed (Laws.EncodingFormed.put b hi), commandInstr_put (by omega),
      fieldA_operand 1 b (by decide)]
  | dqPeek k =>
    rw [encode, decode_command_of_formed (Laws.EncodingFormed.dqPeek k hi), commandInstr_dqPeek (by omega),
      fieldA_operand 8 k (by decide)]
  | encode link payload =>
    have fits : payload.length ≤ 255 := of_decide_eq_true hi
    rw [encode, decode_command_of_formed (Laws.EncodingFormed.encode link payload hi), commandInstr_encodeWord link fits]
  | pSkip b =>
    have skip : classify .waitSOF b = .skip := (classify_waitSOF b).trans (if_neg (of_decide_eq_true hi))
    exact congrArg (fun k : ByteClass => Except.ok (k.instr b)) skip
  | pLenN b =>
    have lenN : classify .waitLength b = .lenN := (classify_waitLength b).trans (if_neg (of_decide_eq_true hi))
    exact congrArg (fun k : ByteClass => Except.ok (k.instr b)) lenN
  | muxframe link flags payload trailer => exact decode_wireBytes link flags (of_decide_eq_true hi) trailer
  | _ => rfl

/-- Settles O4: each published word is the one the encoder writes for its instruction, so O1 gives what it decodes to. -/
theorem publishedWordsDecode : Obligations.PublishedWordsDecode :=
  have roundTrip := decodeOfEncodeIsTheInstruction
  ⟨roundTrip (.init 115200#32) rfl,
    roundTrip .irqOn rfl,
    roundTrip (.encode 0x01#8 [0x41#8, 0x42#8]) rfl,
    roundTrip .dqAvail rfl,
    roundTrip (.dqPeek 0x01#8) rfl,
    roundTrip .dqGet rfl,
    roundTrip .rdPstate rfl,
    roundTrip .rdPlink rfl,
    roundTrip .rdErr rfl,
    roundTrip .avail rfl,
    roundTrip .dqClear rfl,
    roundTrip (.encode 0x01#8 [0x4C#8, 0x49#8, 0x53#8, 0x54#8, 0x0D#8, 0x0A#8]) rfl,
    roundTrip (.dqPeek 0x00#8) rfl,
    roundTrip (.dqPeek 0x05#8) rfl,
    roundTrip (.muxframe 0x01#8 0x00#8 [0x41#8, 0x42#8] 0xFE#8) rfl⟩

/-- The field n counts at most 255 payload bytes; every other operand is any bits (R100). -/
theorem commandInstr_wellFormed (bits : Nat) : (commandInstr bits).wellFormed = true := by
  have hn := fieldN_lt bits
  have fits : payloadFits (unpackBytes (fieldN bits) (bits / 1048576)) = true := by
    simp only [payloadFits, unpackBytes_length, decide_eq_true_eq]
    omega
  unfold commandInstr
  split <;> simp [Instr.wellFormed, fits]

theorem decodeStage_wellFormed {code : BitVec 3} {i : Instr} (h : decodeStage code = .ok i) : i.wellFormed = true := by
  unfold decodeStage at h
  split at h <;> cases h <;> rfl

/-- Settles O3: table by table, from what each decoder can answer. -/
theorem decodedInstructionIsWellFormed : Obligations.DecodedInstructionIsWellFormed := by
  intro e i h
  cases e with
  | command width bits =>
    rcases decodeCommand_ok h with rfl | ⟨_, _, _, rfl⟩
    · rfl
    · exact commandInstr_wellFormed bits
  | lineByte b => cases h; rfl
  | rxVector v | txVector v | outVector v =>
    rw [decode] at h
    split at h <;> cases h
    rfl
  | parserByte code b =>
    rw [decode] at h
    split at h <;> cases h
    exact classify_instr_wellFormed _ b
  | wire bytes =>
    obtain ⟨link, flags, payload, trailer, rfl, fits⟩ := decodeWire_ok h
    exact decide_eq_true fits
  | stage code => exact decodeStage_wellFormed h

end Sys2Proof
end

section
/-! A frame received (30_encoding.md R90, R96; 42_frame_parser.md R180 to R184): what PARSE makes of a frame byte by byte, and
that a line whose every byte is followed by a turn of the receive handler hands PARSE exactly the bytes sent. -/

namespace Sys2Proof.Machine

/-! ### PARSE of one byte, by the state it is taken in -/

@[simp] theorem setParser_setParser (b : Block) (p q : Parser) : (b.setParser p).setParser q = b.setParser q := rfl

/-- 0xBF where no trailer is expected starts a frame, and no event is raised (R180). -/
theorem parse_sofByte {b : Block} {p : Parser} (hp : b.parser = some p) (hs : p.pstate = .waitSOF) (ht : p.ptrailv = false) :
    b.parse sofByte = b.setParser { p with pstate := .waitLink } := by
  have due : p.frmErrDue sofByte = false := by simp [Parser.frmErrDue, ht]
  have check : b.trailerCheck p sofByte = b := by simp [Block.trailerCheck, due]
  have cls : classify p.pstate sofByte = .sof := by rw [hs]; rfl
  have sof : b.parse sofByte = b.parseSof p := by simp only [Block.parse, hp, cls]
  rw [sof, Block.parseSof, check, ← ht]

/-- The trailer expected, where it is not 0xBF, is discarded, and no event is raised (R180). -/
theorem parse_trailer {b : Block} {p : Parser} {c : Byte} (hp : b.parser = some p) (hs : p.pstate = .waitSOF)
    (ht : p.ptrailv = true) (hc : p.ptrail = c) (hne : c ≠ sofByte) : b.parse c = b.setParser { p with ptrailv := false } := by
  have due : p.frmErrDue c = false := by simp [Parser.frmErrDue, ht, hc]
  have check : b.trailerCheck p c = b := by simp [Block.trailerCheck, due]
  have cls : classify p.pstate c = .skip := by rw [hs, classify_waitSOF]; exact if_neg hne
  have skip : b.parse c = b.parseSkip c p := by simp only [Block.parse, hp, cls]
  rw [skip, Block.parseSkip, check, ← hs]

theorem parse_link {b : Block} {p : Parser} (hp : b.parser = some p) (hs : p.pstate = .waitLink) (c : Byte) :
    b.parse c = b.setParser { p with plink := c, plinkv := true, pstate := .waitFlags } := by
  simp [Block.parse, hp, hs, classify, Block.parseLink]

theorem parse_flags {b : Block} {p : Parser} (hp : b.parser = some p) (hs : p.pstate = .waitFlags) (c : Byte) :
    b.parse c = b.setParser { p with pstate := .waitLength } := by
  simp [Block.parse, hp, hs, classify, Block.parseFlags]

theorem parse_len0 {b : Block} {p : Parser} (hp : b.parser = some p) (hs : p.pstate = .waitLength) :
    b.parse 0#8 = b.setParser p.frameOver := by
  simp [Block.parse, hp, hs, classify, Block.parseLen0]

theorem parse_lenN {b : Block} {p : Parser} (hp : b.parser = some p) (hs : p.pstate = .waitLength) {c : Byte} (hc : c ≠ 0#8) :
    b.parse c = b.setParser { p with prem := c, pstate := .payload } := by
  simp [Block.parse, hp, hs, classify_waitLength, hc, Block.parseLenN]

/-- A payload byte with room in DQ is stored and counted, and no event is raised (R184). -/
theorem parse_data {b : Block} {p : Parser} (hp : b.parser = some p) (hs : p.pstate = .payload) (room : p.dq.full = false)
    (c : Byte) :
    b.parse c = b.setParser (if p.prem = 1#8 then { p with dq := p.dq.store c, prem := 0#8 }.frameOver
      else { p with dq := p.dq.store c, prem := p.prem - 1#8 }) := by
  have cls : classify p.pstate c = .data := by rw [hs]; rfl
  simp only [Block.parse, hp, cls, Block.parseData, Queue.push_room room, if_true]
  split <;> rfl

/-! ### PARSE of a frame -/

theorem parseAll_append (xs : List Byte) : ∀ (b : Block) (ys : List Byte),
    b.parseAll (xs ++ ys) = (b.parseAll xs).parseAll ys := by
  induction xs with
  | nil => exact fun _ _ => rfl
  | cons x xs ih => exact fun b ys => ih (b.parse x) ys

/-- PARSE of as many bytes as PREM counts, with room in DQ for all of them, ends the frame with the bytes in DQ (R184). -/
theorem parseAll_payload (cs : List Byte) : ∀ {b : Block} {p : Parser}, b.parser = some p → p.pstate = .payload →
    p.dq.Ok → cs ≠ [] → p.prem.toNat = cs.length → p.dq.occ + cs.length + 1 ≤ p.dq.cap →
    ∃ q : Queue, q.Ok ∧ q.cap = p.dq.cap ∧ q.live = p.dq.live ++ cs ∧
      b.parseAll cs = b.setParser { p with dq := q, prem := 0#8 }.frameOver := by
  induction cs with
  | nil => intro _ _ _ _ _ hne; exact absurd rfl hne
  | cons c cs ih =>
    intro b p hp hs ok _ count fits
    rw [List.length_cons] at count fits
    have room : p.dq.full = false := by
      rw [← Bool.not_eq_true, p.dq.full_iff_occ ok]
      omega
    have ok' := p.dq.store_ok c ok
    have live := p.dq.live_store c ok room
    have one : p.prem = 1#8 ↔ cs = [] := by
      rw [BitVec.toNat_eq, count, ← List.length_eq_zero_iff]
      simp
    rw [Block.parseAll, parse_data hp hs room c]
    cases cs with
    | nil => exact ⟨p.dq.store c, ok', rfl, live, by rw [if_pos (one.2 rfl)]; rfl⟩
    | cons d ds =>
      have more : p.prem ≠ 1#8 := fun h => by simpa using one.1 h
      have count' : (p.prem - 1#8).toNat = (d :: ds).length := by
        rw [BitVec.toNat_sub_of_le (by rw [BitVec.le_def, count]; simp), count]
        simp
      rw [if_neg more]
      obtain ⟨q, hq, hcap, hlive, h⟩ := ih (b := b.setParser { p with dq := p.dq.store c, prem := p.prem - 1#8 })
        rfl hs ok' (by simp) count' (by rw [store_cap, p.dq.store_occ c ok room]; omega)
      exact ⟨q, hq, hcap, by simpa [live] using hlive, h⟩

/-- PARSE of the length byte and the payload it counts ends the frame with the payload in DQ (R183, R184). -/
theorem parseAll_counted {b : Block} {p : Parser} {payload : List Byte} (hp : b.parser = some p) (hs : p.pstate = .waitLength)
    (ok : p.dq.Ok) (hprem : p.prem = 0#8) (hlen : payload.length ≤ 255) (fits : p.dq.occ + payload.length + 1 ≤ p.dq.cap) :
    ∃ q : Queue, q.Ok ∧ q.cap = p.dq.cap ∧ q.live = p.dq.live ++ payload ∧
      b.parseAll (BitVec.ofNat 8 payload.length :: payload) = b.setParser { p with dq := q }.frameOver := by
  by_cases hne : payload = []
  · subst hne
    exact ⟨p.dq, ok, rfl, by simp, parse_len0 hp hs⟩
  · have count : (BitVec.ofNat 8 payload.length).toNat = payload.length := by
      rw [BitVec.toNat_ofNat]
      exact Nat.mod_eq_of_lt (by omega)
    have nonzero : BitVec.ofNat 8 payload.length ≠ 0#8 := fun h =>
      hne (List.length_eq_zero_iff.1 (by rw [← count, h]; rfl))
    rw [Block.parseAll, parse_lenN hp hs nonzero]
    obtain ⟨q, hq, hcap, hlive, h⟩ := parseAll_payload payload
      (b := b.setParser { p with prem := BitVec.ofNat 8 payload.length, pstate := .payload }) rfl rfl ok hne count fits
    exact ⟨q, hq, hcap, hlive, h.trans (by rw [← hprem]; rfl)⟩

/-- A frame less its trailer, parsed from WaitSOF with no trailer expected and with room in DQ: the payload is in DQ, the
trailer is expected, and no event is raised (R180 to R184). -/
theorem parseAll_untilTrailer {b : Block} {p : Parser} (link flags : Byte) {payload : List Byte} (hp : b.parser = some p)
    (ok : p.Ok) (hs : p.pstate = .waitSOF) (ht : p.ptrailv = false) (hlen : payload.length ≤ 255)
    (fits : p.dq.occ + payload.length + 1 ≤ p.dq.cap) :
    ∃ q : Queue, q.Ok ∧ q.cap = p.dq.cap ∧ q.live = p.dq.live ++ payload ∧
      b.parseAll ([sofByte, link, flags, BitVec.ofNat 8 payload.length] ++ payload) =
        b.setParser { p with dq := q, plink := link, plinkv := true, ptrail := trailerOf link, ptrailv := true } := by
  obtain ⟨dqOk, prem, _⟩ := ok
  have hprem : p.prem = 0#8 := by
    by_contra h
    simpa [hs] using prem.2 h
  have header : b.parseAll [sofByte, link, flags] =
      b.setParser { p with plink := link, plinkv := true, pstate := .waitLength } := by
    rw [Block.parseAll, parse_sofByte hp hs ht, Block.parseAll, parse_link rfl rfl, Block.parseAll, parse_flags rfl rfl]
    rfl
  obtain ⟨q, hq, hcap, hlive, h⟩ := parseAll_counted
    (b := b.setParser { p with plink := link, plinkv := true, pstate := .waitLength }) rfl rfl dqOk hprem hlen fits
  refine ⟨q, hq, hcap, hlive, ?_⟩
  calc b.parseAll ([sofByte, link, flags] ++ (BitVec.ofNat 8 payload.length :: payload))
    _ = _ := by rw [parseAll_append, header, h]
    _ = _ := by simp [Parser.frameOver, ← hs]

/-- The trailer of a frame is the start byte on link 0x40 alone (R93). -/
theorem trailerOf_eq_sofByte {link : Byte} : trailerOf link = sofByte ↔ link = 0x40#8 := by
  rw [trailerOf, ← BitVec.xor_left_inj (x := link) (y := 0x40#8) 0xFF#8]
  rfl

/-- A whole frame on a link other than 0x40, its trailer right: the payload is in DQ, no trailer is expected, and no event is
raised (R180 to R184, R186). -/
theorem parseAll_frame {b : Block} {p : Parser} {link : Byte} (flags : Byte) {payload : List Byte} (hp : b.parser = some p)
    (ok : p.Ok) (hs : p.pstate = .waitSOF) (ht : p.ptrailv = false) (hlink : link ≠ 0x40#8) (hlen : payload.length ≤ 255)
    (fits : p.dq.occ + payload.length + 1 ≤ p.dq.cap) :
    ∃ q : Queue, q.Ok ∧ q.cap = p.dq.cap ∧ q.live = p.dq.live ++ payload ∧
      b.parseAll (wireBytes link flags payload (trailerOf link)) =
        b.setParser { p with dq := q, plink := link, plinkv := true, ptrail := trailerOf link } := by
  obtain ⟨q, hq, hcap, hlive, h⟩ := parseAll_untilTrailer link flags hp ok hs ht hlen fits
  refine ⟨q, hq, hcap, hlive, ?_⟩
  have trailer : trailerOf link ≠ sofByte := mt trailerOf_eq_sofByte.1 hlink
  calc b.parseAll (wireBytes link flags payload (trailerOf link))
    _ = (b.parseAll ([sofByte, link, flags, BitVec.ofNat 8 payload.length] ++ payload)).parse (trailerOf link) :=
      parseAll_append _ b [trailerOf link]
    _ = _ := by
      rw [h, ht]
      exact parse_trailer (setParser_parser b _) (by exact hs) rfl rfl trailer

/-! ### The receive side beside the parser -/

/-- A block with other contents in RDR and RXQ. -/
def Block.withRx (b : Block) (rdr : Byte) (rxq : Queue) : Block := { b with rdr := rdr, rxq := rxq }

theorem trailerCheck_withRx (b : Block) (rdr : Byte) (rxq : Queue) (p : Parser) (c : Byte) :
    (b.withRx rdr rxq).trailerCheck p c = (b.trailerCheck p c).withRx rdr rxq := by
  unfold Block.trailerCheck
  split <;> rfl

theorem parseData_withRx (b : Block) (rdr : Byte) (rxq : Queue) (p : Parser) (c : Byte) :
    (b.withRx rdr rxq).parseData c p = (b.parseData c p).withRx rdr rxq := by
  rcases p.dq.push_cases c with ⟨_, e⟩ | ⟨_, e⟩ <;> simp only [Block.parseData, e] <;> split <;> rfl

/-- PARSE neither reads nor writes RDR and RXQ (R41). -/
theorem parse_withRx (b : Block) (rdr : Byte) (rxq : Queue) (c : Byte) :
    (b.withRx rdr rxq).parse c = (b.parse c).withRx rdr rxq := by
  rw [Block.parse, Block.parse, show (b.withRx rdr rxq).parser = b.parser from rfl]
  cases b.parser with
  | none => rfl
  | some p =>
    cases hk : classify p.pstate c with
    | sof => simp only [hk, Block.parseSof, trailerCheck_withRx]; rfl
    | skip => simp only [hk, Block.parseSkip, trailerCheck_withRx]; rfl
    | data => simp only [hk, parseData_withRx]
    | link | flags | len0 | lenN => simp only [hk]; rfl

theorem parseAll_withRx (cs : List Byte) : ∀ (b : Block) (rdr : Byte) (rxq : Queue),
    (b.withRx rdr rxq).parseAll cs = (b.parseAll cs).withRx rdr rxq := by
  induction cs with
  | nil => exact fun _ _ _ => rfl
  | cons c cs ih =>
    intro b rdr rxq
    rw [Block.parseAll, parse_withRx, ih, Block.parseAll]

/-! ### Bytes on the line, each followed by a turn of the receive handler -/

/-- The receive handler is on but for GIE, no byte waits in RDR or RXQ, and there is a parser. -/
structure Block.Listening (b : Block) : Prop where
  rxie : b.rxie = true
  rxc : b.rxc = false
  rxqOk : b.rxq.Ok
  rxqEmpty : b.rxq.head = b.rxq.tail
  parser : b.parser.isSome = true

/-- What a byte on the line and the handler's turn after it do to a listening block: PARSE of the byte, which has passed
through RDR and RXQ (R124, R125). -/
def Block.receive (b : Block) (c : Byte) : Block := (b.parse c).withRx c (b.rxq.store c).pop

/-- A listening block goes on listening. -/
theorem Block.Listening.receive {b : Block} (h : b.Listening) (c : Byte) : (b.receive c).Listening := by
  obtain ⟨frame, _, rxc⟩ := parse_frame b c
  have stays : (b.parse c).parser.isSome = b.parser.isSome := by simpa using congrArg Option.isSome frame.tail
  exact {
    rxie := by rw [← h.rxie, Block.receive, frame.eq]; rfl
    rxc := rxc.trans h.rxc
    rxqOk := Queue.pop_ok _ (Queue.store_ok _ c h.rxqOk)
    rxqEmpty := congrArg b.rxq.after h.rxqEmpty
    parser := stays.trans h.parser }

/-- The block with a byte waiting in RDR (R124). -/
def Block.pending (b : Block) (c : Byte) : Block := { b with rdr := c, rxc := true }

theorem exec_lineIn_of_listening {s : State} (h : s.blk.Listening) (c : Byte) :
    exec (.lineIn c) s = .next (s.setBlk (s.blk.pending c)) := by
  have free : s.blk.lineDelivers c = s.blk.pending c := by simp [Block.lineDelivers, h.rxc, Block.pending]
  exact congrArg (fun b => Host.Outcome.next (s.setBlk b)) free

/-- The handler's turn after the line's (R125): RXQ holds the one byte, and the drain loop hands it to PARSE. -/
theorem rxHandler_pending {b : Block} (h : b.Listening) (c : Byte) : (b.pending c).rxHandler = b.receive c := by
  have passed : ({ b.pending c with rxc := false, rxq := (b.rxq.store c).pop } : Block) = b.withRx c (b.rxq.store c).pop := by
    rw [← h.rxc]
    rfl
  calc (b.pending c).rxHandler
    _ = ({ b.pending c with rxc := false, rxq := (b.rxq.store c).pop } : Block).parse c :=
      rxHandler_of_empty (b := b.pending c) h.parser h.rxqOk h.rxqEmpty
    _ = b.receive c := by rw [passed, parse_withRx, Block.receive]

theorem exec_rxIsr_of_enabled {s : State} (h : s.rxEnabled = true) : exec .rxIsr s = .next (s.setBlk s.blk.rxHandler) := by
  rcases event_cases s s.rxEnabled Block.rxHandler with ⟨_, e⟩ | ⟨off, _⟩
  · exact e
  · simp [h] at off

/-- The state when the turns before `ts` are over and have left the block `b`. -/
def State.afterTurns (s : State) (ts : List Turn) (b : Block) : State := { s with script := ts, blk := b }

@[simp] theorem afterTurns_blk (s : State) (ts : List Turn) (b : Block) : (s.afterTurns ts b).blk = b := rfl
@[simp] theorem afterTurns_gie (s : State) (ts : List Turn) (b : Block) : (s.afterTurns ts b).gie = s.gie := rfl

theorem select_afterTurns (s : State) (ts : List Turn) (b : Block) :
    (s.afterTurns ts b).select s.portNo = some (s.afterTurns ts b) := select_portNo (s.afterTurns ts b)

/-- The line's turn leaves its byte in RDR (R124). -/
theorem step_lin_of_listening {s : State} {c : Byte} {ts : List Turn} (h : s.blk.Listening)
    (hscript : s.script = .agent (.lin s.portNo c) :: ts) : step s = .next (s.afterTurns ts (s.blk.pending c)) := by
  obtain ⟨_, _, _, lin, _⟩ := stepRunsTheEnabledEvent s _ ts s.portNo (select_afterTurns s ts s.blk)
  exact (lin c hscript).trans (exec_lineIn_of_listening (s := s.afterTurns ts s.blk) h c)

/-- The handler's turn after it hands that byte to PARSE (R125). -/
theorem step_rxh_of_pending {s : State} {b : Block} {c : Byte} {ts : List Turn} (hgie : s.gie = true) (h : b.Listening)
    (hblk : s.blk = b.pending c) (hscript : s.script = .agent (.rxh s.portNo) :: ts) :
    step s = .next (s.afterTurns ts (b.receive c)) := by
  obtain ⟨rxh, _⟩ := stepRunsTheEnabledEvent s _ ts s.portNo (select_afterTurns s ts s.blk)
  have on : (s.afterTurns ts s.blk).rxEnabled = true := by
    rw [rxEnabled_iff, afterTurns_gie, afterTurns_blk, hblk]
    exact ⟨hgie, h.rxie, rfl⟩
  rw [rxh hscript, if_pos ((rxEnabled_iff _).1 on), exec_rxIsr_of_enabled on, ← rxHandler_pending h c, ← hblk]
  rfl

/-- A byte on the line and the handler's turn after it: two steps. -/
theorem run_deliver {s : State} {c : Byte} {ts : List Turn} (hgie : s.gie = true) (h : s.blk.Listening)
    (hscript : s.script = .agent (.lin s.portNo c) :: .agent (.rxh s.portNo) :: ts) :
    core.run 2 s = .next (s.afterTurns ts (s.blk.receive c)) :=
  let u := s.afterTurns (.agent (.rxh s.portNo) :: ts) (s.blk.pending c)
  have line : step s = .next u := step_lin_of_listening h hscript
  have handler : step u = .next (s.afterTurns ts (s.blk.receive c)) := step_rxh_of_pending hgie h rfl rfl
  (run_succ (M := core) line 1).trans (run_succ (M := core) handler 0)

/-- A line whose every byte is followed by the handler's turn hands PARSE exactly the bytes sent, in two steps a byte (log
entry 11). -/
theorem run_deliveryTurns (cs : List Byte) : ∀ {s : State} {ts : List Turn}, s.gie = true → s.blk.Listening →
    s.script = deliveryTurns s.portNo cs ++ ts →
    ∃ (rdr : Byte) (rxq : Queue),
      core.run (2 * cs.length) s = .next (s.afterTurns ts ((s.blk.parseAll cs).withRx rdr rxq)) := by
  induction cs with
  | nil =>
    intro s ts _ _ hscript
    obtain rfl : s.script = ts := hscript
    exact ⟨s.blk.rdr, s.blk.rxq, rfl⟩
  | cons c cs ih =>
    intro s ts hgie h hscript
    have first := run_deliver hgie h hscript
    obtain ⟨rdr, rxq, rest⟩ := ih (s := s.afterTurns (deliveryTurns s.portNo cs ++ ts) (s.blk.receive c)) hgie
      (h.receive c) rfl
    have blk : (s.blk.receive c).parseAll cs = (s.blk.parseAll (c :: cs)).withRx c (s.blk.rxq.store c).pop :=
      parseAll_withRx cs _ _ _
    refine ⟨rdr, rxq, ?_⟩
    rw [List.length_cons, Nat.mul_add_one, Nat.add_comm]
    calc core.run (2 + 2 * cs.length) s
      _ = core.run (2 * cs.length) (s.afterTurns (deliveryTurns s.portNo cs ++ ts) (s.blk.receive c)) := run_add 2 _ first
      _ = .next (s.afterTurns ts (((s.blk.receive c).parseAll cs).withRx rdr rxq)) := rest
      _ = _ := by rw [blk]; rfl

/-! ### A whole frame -/

/-- Settles O39: the turns of MUXFRAME are those of its bytes one by one. -/
theorem frameOnTheWireIsDeliveredByteByByte : Obligations.FrameOnTheWireIsDeliveredByteByByte := by
  intro link flags payload trailer s
  rw [← deliveryTurns_eq]
  rfl

/-- A frame's turn puts the delivery of its bytes at the front of the schedule (R90; log entry 11). -/
theorem step_wireBytes {s : State} {ts : List Turn} {link flags trailer : Byte} {payload : List Byte}
    (hlen : payload.length ≤ 255) (hscript : s.script = .wire s.portNo (wireBytes link flags payload trailer) :: ts) :
    step s = .next (s.afterTurns (deliveryTurns s.portNo (wireBytes link flags payload trailer) ++ ts) s.blk) := by
  obtain ⟨_, _, _, _, wire, _⟩ := stepRunsTheEnabledEvent s _ ts s.portNo (select_afterTurns s ts s.blk)
  exact wire _ _ hscript (decode_wireBytes link flags hlen trailer)

theorem wireBytes_length (link flags : Byte) (payload : List Byte) (trailer : Byte) :
    (wireBytes link flags payload trailer).length = 5 + payload.length := by
  simp +arith [wireBytes]

/-- A frame on the line of a listening block is handed to PARSE byte by byte, in one step and two for each of its 5 + n bytes
(R90; log entry 11). -/
theorem run_wireBytes {s : State} {ts : List Turn} {link flags trailer : Byte} {payload : List Byte} (hgie : s.gie = true)
    (h : s.blk.Listening) (hlen : payload.length ≤ 255)
    (hscript : s.script = .wire s.portNo (wireBytes link flags payload trailer) :: ts) :
    ∃ (rdr : Byte) (rxq : Queue), core.run (1 + 2 * (5 + payload.length)) s =
      .next (s.afterTurns ts ((s.blk.parseAll (wireBytes link flags payload trailer)).withRx rdr rxq)) := by
  let u := s.afterTurns (deliveryTurns s.portNo (wireBytes link flags payload trailer) ++ ts) s.blk
  have arrives : core.run 1 s = .next u := run_succ (M := core) (step_wireBytes hlen hscript) 0
  obtain ⟨rdr, rxq, delivered⟩ := run_deliveryTurns (wireBytes link flags payload trailer) (s := u) hgie h rfl
  rw [wireBytes_length] at delivered
  exact ⟨rdr, rxq, (run_add 1 _ arrives).trans delivered⟩

/-- Settles O40: the run of a frame hands its bytes to PARSE, and PARSE of a frame puts its payload in DQ. -/
theorem encodedFrameIsReceivedAsItsPayload : Obligations.EncodedFrameIsReceivedAsItsPayload := by
  intro link payload s ts p hgie hrxie hrxc hp hrxq hempty ok hs ht hlink hlen fits hscript
  have listening : s.blk.Listening := ⟨hrxie, hrxc, hrxq, hempty, by rw [hp]; rfl⟩
  obtain ⟨rdr, rxq, run⟩ := run_wireBytes hgie listening hlen hscript
  obtain ⟨q, _, _, hlive, parsed⟩ := parseAll_frame 0x00#8 hp ok hs ht hlink hlen fits
  rw [parsed] at run
  exact ⟨_, _, run, rfl, hlive, hs, rfl, rfl, rfl, hrxc, rfl⟩

end Sys2Proof.Machine
end

section
/-! The byte transport's operations (40_byte_transport.md R120 to R123) and the reads of DQ (42_frame_parser.md R190, R192): what
each answers where the foreground may take it. -/

namespace Sys2Proof.Machine

/-! ### Taking and completing an operation -/

/-- An operation that can be held is taken from an idle foreground, and from one that holds it on this port (R71). -/
theorem operate_of_ready {s : State} {op : HeldOp} (h : s.fgst = .idle ∨ s.fgst = .hold s.portNo op) (body : State → Answer) :
    s.operate (some op) body = body s := by
  rcases h with h | h
  · exact operate_idle h _ body
  · exact operate_held h body

/-- To complete without a result leaves an idle foreground's state as it is. -/
theorem done_of_idle {s : State} (h : s.fgst = .idle) : s.done = s := by
  rw [State.done, ← h]

/-- To complete with a result adds the result, and nothing else, to an idle foreground's state (R101). -/
theorem answer_of_idle {s : State} (h : s.fgst = .idle) (r : PortResult) :
    s.answer r = { s with results := s.results ++ [r] } := by
  rw [State.answer, ← h]

/-! ### INIT, PUT, GET -/

/-- Settles O9: INIT is taken, and an idle foreground's completion changes nothing more. -/
theorem initResetsBothQueuesAndTheLine : Obligations.InitResetsBothQueuesAndTheLine := by
  intro baud s idle
  have completed : (s.setBlk (s.blk.initialise baud)).done = s.setBlk (s.blk.initialise baud) := done_of_idle idle
  rw [exec, execInit, operate_idle idle, completed]
  rfl

/-- PUT with room in TXQ stores its byte and completes (R121). -/
theorem exec_put_of_room {s : State} {b : Byte} (h : s.fgst = .idle ∨ s.fgst = .hold s.portNo (.put b))
    (room : s.blk.txq.full = false) : exec (.put b) s = .next (s.setBlk (s.blk.txPut b)).done := by
  rw [exec, execPut, operate_of_ready h, room]
  rfl

/-- PUT with TXQ full holds (R121, R71). -/
theorem exec_put_of_full {s : State} {b : Byte} (h : s.fgst = .idle ∨ s.fgst = .hold s.portNo (.put b))
    (hfull : s.blk.txq.full = true) : exec (.put b) s = s.hold (.put b) := by
  rw [exec, execPut, operate_of_ready h, if_pos hfull]

/-- Settles O10: the two cases of PUT, the push being a store where there is room. -/
theorem putEnqueuesOrHolds : Obligations.PutEnqueuesOrHolds := by
  intro b s ready
  refine ⟨fun room => ?_, fun hfull => exec_put_of_full ready hfull⟩
  rw [exec_put_of_room ready room, Block.txPut, Queue.push_room room]
  rfl

/-- Settles O11: without a parser GET is not refused; it pops where RXQ is not empty and holds where it is. -/
theorem getDequeuesOrHolds : Obligations.GetDequeuesOrHolds := by
  intro s ready hp
  have taken : exec .get s = if s.blk.rxq.empty then s.hold .get else
      .next ((s.setBlk { s.blk with rxq := s.blk.rxq.pop }).answer (.bits8 s.blk.rxq.front)) := by
    rw [exec, execGet, operate_of_ready ready, hp]
    rfl
  refine ⟨fun hne => ?_, fun he => ?_⟩
  · rw [taken, if_neg (mt s.blk.rxq.empty_iff.1 hne)]
    rfl
  · rw [taken, if_pos (s.blk.rxq.empty_iff.2 he)]
    rfl

/-! ### The reads of RXQ and DQ -/

/-- Settles O14: each read is taken, finds its parser where it needs one, and completes with its value. -/
theorem queueReadsReturnAndChangeNothing : Obligations.QueueReadsReturnAndChangeNothing := by
  intro s idle
  refine ⟨?_, fun p hp => ⟨?_, fun i hi => ?_⟩⟩
  · rw [exec, execAvail, operate_idle idle, answer_of_idle idle]
  · rw [exec, execDqAvail, operate_idle idle, withParser_some hp, answer_of_idle idle]
  · rw [exec, execDqPeek, operate_idle idle, withParser_some hp, if_neg (by omega), answer_of_idle idle, Queue.peek]

end Sys2Proof.Machine
end

section
/-! The events of the byte transport (40_byte_transport.md R124 to R127): the line in, the two handlers, the line out. -/

namespace Sys2Proof.Machine

theorem exec_txIsr_of_enabled {s : State} (h : s.txEnabled = true) : exec .txIsr s = .next (s.setBlk s.blk.txHandler) := by
  rw [exec, execTxIsr, h]
  rfl

theorem exec_lineOut_of_enabled {s : State} (h : s.outEnabled = true) : exec .lineOut s = .next (s.setBlk s.blk.lineTakes) := by
  rw [exec, execLineOut, h]
  rfl

/-! ### The line -/

/-- Settles O20: the line's turn is always taken; RXC decides between the two cases. -/
theorem lineInFillsRdrOrOverruns : Obligations.LineInFillsRdrOrOverruns := by
  intro b s
  have taken : exec (.lineIn b) s = .next (s.setBlk (s.blk.lineDelivers b)) := rfl
  rcases lineDelivers_cases b s.blk with ⟨hrxc, e⟩ | ⟨hrxc, e⟩ <;> rw [taken, e, hrxc]
  · exact ⟨fun _ => rfl, fun h => absurd h (by decide)⟩
  · exact ⟨fun h => absurd h (by decide), fun _ => rfl⟩

/-- Settles O24: TXRDY = 0 is all that enables the line out. -/
theorem lineOutTakesTdr : Obligations.LineOutTakesTdr :=
  fun s hrdy => exec_lineOut_of_enabled ((outEnabled_iff s).2 hrdy)

/-! ### The handlers -/

/-- Settles O23: TX_ISR is enabled, and its handler turns itself off on an empty TXQ and loads TDR on any other. -/
theorem txIsrLoadsTdrOrDisables : Obligations.TxIsrLoadsTdrOrDisables := by
  intro s hgie htxie hrdy
  have taken := exec_txIsr_of_enabled ((txEnabled_iff s).2 ⟨hgie, htxie, hrdy⟩)
  rcases txHandler_cases s.blk with ⟨he, e⟩ | ⟨he, e⟩ <;> rw [taken, e]
  · exact ⟨fun _ => rfl, fun hne => absurd (s.blk.txq.empty_iff.1 he) hne⟩
  · exact ⟨fun h => absurd (s.blk.txq.empty_iff.2 h) (by rw [he]; decide), fun _ => rfl⟩

/-- Settles O21: RX_ISR is enabled, and without a parser its handler is the push alone. -/
theorem rxIsrStoresOrDrops : Obligations.RxIsrStoresOrDrops := by
  intro s hgie hrxie hrxc hp
  have taken := exec_rxIsr_of_enabled ((rxEnabled_iff s).2 ⟨hgie, hrxie, hrxc⟩)
  have handler : s.blk.rxHandler = s.blk.rxPush := by rw [Block.rxHandler, hp]; rfl
  rcases rxPush_cases s.blk with ⟨hf, e⟩ | ⟨hf, e⟩ <;> rw [taken, handler, e, hf]
  · exact ⟨fun _ => rfl, fun h => absurd h (by decide)⟩
  · exact ⟨fun h => absurd h (by decide), fun _ => rfl⟩

/-! ### RX_ISR with a parser -/

@[simp] theorem parserStateOf_code (ps : ParserState) : parserStateOf ps.code = some ps := by cases ps <;> rfl

/-- The row of P_SOF takes the byte 0xBF alone (R94). -/
theorem eq_sofByte_of_classify {ps : ParserState} {c : Byte} (h : classify ps c = .sof) : c = sofByte := by
  have hs : ps = .waitSOF := by rw [← classify_state ps c, h]; rfl
  rw [hs, classify_waitSOF] at h
  by_contra hne
  exact absurd h (by rw [if_neg (show c ≠ 0xBF#8 from hne)]; decide)

/-- The row of P_LEN0 takes the byte 0x00 alone (R94). -/
theorem eq_zero_of_classify {ps : ParserState} {c : Byte} (h : classify ps c = .len0) : c = 0#8 := by
  have hs : ps = .waitLength := by rw [← classify_state ps c, h]; rfl
  rw [hs, classify_waitLength] at h
  by_contra hne
  exact absurd h (by rw [if_neg hne]; decide)

/-- The byte class that PSTATE and a byte select is, as an instruction, PARSE of that byte (R94, R185). -/
theorem exec_classify_instr {s : State} {p : Parser} (hp : s.blk.parser = some p) (c : Byte) :
    exec ((classify p.pstate c).instr c) s = .next (s.setBlk (s.blk.parse c)) := by
  have runs : ∀ (k : ByteClass) (f : Block → Parser → Block), classify p.pstate c = k → s.blk.parse c = f s.blk p →
      s.parserStep k c f = .next (s.setBlk (s.blk.parse c)) := by
    intro k f hk hf
    simp [State.parserStep, hp, hk, hf]
  cases hk : classify p.pstate c with
  | sof =>
    obtain rfl := eq_sofByte_of_classify hk
    exact runs .sof _ hk (by simp only [Block.parse, hp, hk])
  | len0 =>
    obtain rfl := eq_zero_of_classify hk
    exact runs .len0 _ hk (by simp only [Block.parse, hp, hk])
  | skip => exact runs .skip _ hk (by simp only [Block.parse, hp, hk])
  | link => exact runs .link _ hk (by simp only [Block.parse, hp, hk])
  | flags => exact runs .flags _ hk (by simp only [Block.parse, hp, hk])
  | lenN => exact runs .lenN _ hk (by simp only [Block.parse, hp, hk])
  | data => exact runs .data _ hk (by simp only [Block.parse, hp, hk])

/-- Settles O22: with RXQ empty the handler is PARSE of the byte in RDR, and so is the byte class it decodes to. -/
theorem rxIsrParsesTheByteOnce : Obligations.RxIsrParsesTheByteOnce := by
  intro s p i hgie hrxie hrxc hp hq hempty hdec
  have hi : (classify p.pstate s.blk.rdr).instr s.blk.rdr = i := by simpa [decode] using hdec
  have handler := rxHandler_of_empty (by rw [hp]; rfl) hq hempty
  rw [Queue.pop, store_tail, ← hempty] at handler
  refine ⟨_, exec_rxIsr_of_enabled ((rxEnabled_iff s).2 ⟨hgie, hrxie, hrxc⟩), ?_⟩
  rw [← hi, handler]
  exact exec_classify_instr (s := s.setBlk { s.blk with rxc := false, rxq := _ }) hp s.blk.rdr

end Sys2Proof.Machine
end

section
/-! The transmit stream (40_byte_transport.md R128; 20_memory.md R68): a push into TXQ appends to it, the handler and the line move
bytes along it, and no other instruction but INIT touches it. -/

namespace Sys2Proof.Machine

/-- Two blocks agree in all that the transmit stream is read off. -/
structure Block.SameStream (b b' : Block) : Prop where
  wireOut : b'.wireOut = b.wireOut
  txrdy : b'.txrdy = b.txrdy
  tdr : b'.tdr = b.tdr
  txq : b'.txq = b.txq

theorem Block.SameStream.txStream {b b' : Block} (h : b.SameStream b') : b'.txStream = b.txStream := by
  rw [Block.txStream, h.wireOut, h.txrdy, h.tdr, h.txq, ← Block.txStream]

theorem HandlerFrame.sameStream {b b' : Block} (h : HandlerFrame b b') : b.SameStream b' := by
  rw [h.eq]
  exact ⟨rfl, rfl, rfl, rfl⟩

theorem lineDelivers_sameStream (c : Byte) (b : Block) : b.SameStream (b.lineDelivers c) := by
  rcases lineDelivers_cases c b with ⟨_, e⟩ | ⟨_, e⟩ <;> rw [e] <;> exact ⟨rfl, rfl, rfl, rfl⟩

/-- A push into a TXQ with room appends its byte (R128). -/
theorem txPut_txStream {b : Block} (hq : b.txq.Ok) (room : b.txq.full = false) (v : Byte) :
    (b.txPut v).txStream = b.txStream ++ [v] := by
  rw [Block.txStream, txPut_txq, Queue.push_room room, Queue.live_store _ v hq room, ← List.append_assoc]
  rfl

/-- TX_ISR moves the oldest byte of TXQ, if there is one, to the free TDR, so the stream stays (R126, R128). -/
theorem txHandler_txStream {b : Block} (hq : b.txq.Ok) (hrdy : b.txrdy = true) : b.txHandler.txStream = b.txStream := by
  rcases txHandler_cases b with ⟨_, e⟩ | ⟨he, e⟩ <;> rw [e]
  · rfl
  · have hne : b.txq.head ≠ b.txq.tail := by rw [Ne, ← Queue.empty_iff, he]; decide
    simp [Block.txStream, hrdy, b.txq.live_pop hq hne]

/-- LINE_OUT moves the byte in TDR to what has been sent, so the stream stays (R127, R128). -/
theorem lineTakes_txStream {b : Block} (hrdy : b.txrdy = false) : b.lineTakes.txStream = b.txStream := by
  simp [Block.txStream, Block.lineTakes, hrdy]

theorem txHandler_head (b : Block) : b.txHandler.txq.head = b.txq.head := by
  rcases txHandler_cases b with ⟨_, e⟩ | ⟨_, e⟩ <;> rw [e]
  rfl

/-- The byte that an instruction pushes into a TXQ with room, if it pushes one (R121, R161 to R166). -/
def Block.pushedBy (b : Block) (i : Instr) : Option Byte :=
  match i with
  | .put v => some v
  | .eSof => some sofByte
  | .eLink => some b.elink
  | .eFlags => some 0x00#8
  | .eLen => some b.elen
  | .ePay => some (b.epaySlot b.eidx.toNat)
  | .eTrl => some (trailerOf b.elink)
  | _ => none

/-- A stage before the trailer pushes the byte of its rule (R161 to R165). -/
theorem StageMove.pushedBy {i : Instr} {b : Block} {v : Byte} {st : Stage} {eidx : Byte} (h : StageMove i b v st eidx) :
    b.pushedBy i = some v := by
  rcases h with ⟨rfl, _, rfl, _⟩ | ⟨rfl, _, rfl, _⟩ | ⟨rfl, _, rfl, _⟩ | ⟨rfl, _, rfl, _⟩ | ⟨rfl, _, rfl, _⟩ <;> rfl

/-- What an instruction other than INIT can do to the transmit stream: leave it and TXQ.head, or append the byte it pushes. -/
theorem ExecEffect.txStream_cases {i : Instr} {s t : State} (h : ExecEffect i s t) (hq : s.blk.txq.Ok)
    (hinit : ∀ baud, i ≠ .init baud) :
    (t.blk.txStream = s.blk.txStream ∧ t.blk.txq.head = s.blk.txq.head) ∨
    ∃ v, s.blk.pushedBy i = some v ∧ t.blk.txStream = s.blk.txStream ++ [v] := by
  have stays : s.blk.SameStream t.blk → t.blk.txStream = s.blk.txStream ∧ t.blk.txq.head = s.blk.txq.head :=
    fun same => ⟨same.txStream, by rw [same.txq]⟩
  cases h with
  | init baud hi => exact absurd hi (hinit baud)
  | put b hi room _ hb => exact .inr ⟨b, by rw [hi]; rfl, by rw [hb, txPut_txStream hq room]⟩
  | stage v st i' _ room hm _ hb => exact .inr ⟨v, hm.pushedBy, by rw [hb]; exact txPut_txStream hq room v⟩
  | trl _ room hi _ _ hb => exact .inr ⟨_, by rw [hi]; rfl, by rw [hb]; exact txPut_txStream hq room _⟩
  | tx _ on _ hb =>
    obtain ⟨_, _, hrdy⟩ := (txEnabled_iff s).1 on
    exact .inl ⟨by rw [hb, txHandler_txStream hq hrdy], by rw [hb, txHandler_head]⟩
  | lout _ on _ hb => exact .inl ⟨by rw [hb, lineTakes_txStream ((outEnabled_iff s).1 on)], by rw [hb]; rfl⟩
  | lineIn c _ _ hb => exact .inl (stays (hb ▸ lineDelivers_sameStream c s.blk))
  | rx _ _ _ hb => exact .inl (stays (hb ▸ (rxHandler_frame s.blk).1.sameStream))
  | parse c _ _ _ _ hb => exact .inl (stays (hb ▸ (parse_frame s.blk c).1.sameStream))
  | quiet hb => exact .inl (stays (hb ▸ ⟨rfl, rfl, rfl, rfl⟩))
  | _ => rename_i hb; exact .inl (stays (hb ▸ ⟨rfl, rfl, rfl, rfl⟩))

/-- Settles O54: the stream stays, or it gains the byte that PUT or the stage at hand pushes. -/
theorem transmitStreamGrowsOnlyByPushedBytes : Obligations.TransmitStreamGrowsOnlyByPushedBytes := by
  rintro i s t ⟨hblocks, _⟩ hinit h
  obtain ⟨_, hq, _⟩ := hblocks _ (blk_mem_blocks s)
  rcases (exec_cases h).2.txStream_cases hq hinit with same | ⟨v, hv, grows⟩
  · exact .inl same
  · refine .inr ?_
    cases i with
    | put b =>
      obtain rfl : b = v := Option.some.inj hv
      exact .inl ⟨b, rfl, grows⟩
    | eSof | eLink | eFlags | eLen | ePay | eTrl =>
      obtain rfl := Option.some.inj hv
      simpa [sofByte, trailerOf] using grows
    | _ => cases hv

/-! ### Room for a held PUT -/

theorem Block.Ok.txq {b : Block} (h : b.Ok) : b.txq.Ok := h.2.1

/-- A full TXQ is not empty, so its transmit interrupt is on (R63, R42 item 6). -/
theorem Block.Ok.txie_of_full {b : Block} (h : b.Ok) (hfull : b.txq.full = true) : b.txie = true := by
  obtain ⟨_, hq, _, _, _, htxie, _⟩ := h
  refine htxie fun he => ?_
  rw [Queue.room_of_empty hq he] at hfull
  cases hfull

/-- A pop makes room (R63, R66). -/
theorem Queue.pop_room {q : Queue} (h : q.Ok) (hne : q.head ≠ q.tail) : q.pop.full = false := by
  have occ := q.pop_occ h hne
  have bound := q.occ_lt h
  rw [← Bool.not_eq_true, q.pop.full_iff_occ (q.pop_ok h), pop_cap]
  omega

/-- After the transmit handler TXQ has room: it was empty, or it has been popped (R126). -/
theorem txHandler_room {b : Block} (hq : b.txq.Ok) : b.txHandler.txq.full = false := by
  rcases txHandler_cases b with ⟨he, e⟩ | ⟨he, e⟩ <;> rw [e]
  · exact Queue.room_of_empty hq (b.txq.empty_iff.1 he)
  · exact Queue.pop_room hq (by rw [Ne, ← Queue.empty_iff, he]; decide)

/-- Settles O59: TXQ is full, so TX_ISR is enabled and pops; the retried PUT finds room and appends to the stream that the
handler has left as it was. -/
theorem heldPutIsLiftedByOneTxIsr : Obligations.HeldPutIsLiftedByOneTxIsr := by
  rintro s b ⟨hblocks, _⟩ hold hfull hgie hrdy
  have ok := hblocks _ (blk_mem_blocks s)
  have ok' : s.blk.txHandler.Ok := txHandler_ok ok
  have room : s.blk.txHandler.txq.full = false := txHandler_room ok.txq
  have handled := exec_txIsr_of_enabled ((txEnabled_iff s).2 ⟨hgie, ok.txie_of_full hfull, hrdy⟩)
  have retried := exec_put_of_room (s := s.setBlk s.blk.txHandler) (b := b) (.inr hold) room
  refine ⟨_, _, handled, retried, rfl, ?_⟩
  calc (s.blk.txHandler.txPut b).txStream
    _ = s.blk.txHandler.txStream ++ [b] := txPut_txStream ok'.txq room b
    _ = s.blk.txStream ++ [b] := by rw [txHandler_txStream ok.txq hrdy]

end Sys2Proof.Machine
end

section
/-! Transmit progress (40_byte_transport.md R129; 70_reset_and_hazards.md R281). While TXQ stays full a PUT goes on holding, and its
TX_ISR stays enabled from the point where the line has taken TDR; a fair run takes both, and TX_ISR makes room. -/

namespace Sys2Proof.Machine

/-! ### A step, seen from one block -/

theorem getElem?_portNo (s : State) : s.blocks[s.portNo]? = some s.blk := by simp [State.portNo, State.blocks]

/-- Taking a turn changes no block, not FGST and not GIE. -/
theorem nextTurn_keeps (s : State) : SameSystem s s.nextTurn.2 := by
  rcases nextTurn_spec s with ⟨t, ts, _, e⟩ | ⟨_, e⟩ <;> rw [e] <;> exact ⟨rfl, rfl, rfl⟩

/-- A block can be selected, and what is selected is that block. -/
theorem select_of_getElem? {s : State} {k : Nat} {c : Block} (hc : s.blocks[k]? = some c) :
    ∃ u, s.select k = some u ∧ u.blk = c ∧ u.gie = s.gie := by
  obtain ⟨hk, _⟩ := List.getElem?_eq_some_iff.1 hc
  obtain ⟨u, hu⟩ := select_isSome hk
  obtain ⟨_, _, hblk, e⟩ := select_spec hu
  exact ⟨u, hu, Option.some.inj (hblk.symm.trans hc), by rw [e]⟩

/-- The instruction of a step leaves its block at the number it had (R250). -/
theorem exec_blocks_portNo {i : Instr} {u t : State} (h : exec i u = .next t) : t.blocks[u.portNo]? = some t.blk := by
  rw [(exec_cases h).1.blocks, List.getElem?_set_self (portNo_lt u)]

/-- What a step does to a block: nothing, or it runs an instruction there. -/
theorem step_block_cases {s t : State} {k : Nat} {c : Block} (h : step s = .next t) (hc : s.blocks[k]? = some c) :
    t.blocks[k]? = some c ∨ ∃ i u, u.blk = c ∧ exec i u = .next t ∧ t.blocks[k]? = some t.blk := by
  have keeps := fetch_keeps s
  rcases step_cases h with ⟨i, u, hrun, hexec⟩ | hpass
  · rw [hrun] at keeps
    obtain ⟨hblocks, _, _⟩ := keeps
    have hu : u.blocks[k]? = some c := by rw [hblocks, hc]
    by_cases hk : u.portNo = k
    · subst hk
      exact .inr ⟨i, u, Option.some.inj ((getElem?_portNo u).symm.trans hu), hexec, exec_blocks_portNo hexec⟩
    · exact .inl (by rw [(exec_cases hexec).1.blocks, List.getElem?_set_ne hk, hu])
  · rw [hpass] at keeps
    obtain ⟨hblocks, _, _⟩ := keeps
    exact .inl (by rw [hblocks, hc])

/-- The next turn, where it is an agent's at a block that exists, selects that block and runs what the agent presents, if that
decodes (R70). -/
theorem fetch_turn_at {s : State} {k : Nat} {c : Block} {a : Agent} {presents : State → Encoded}
    (hturn : s.nextTurn.1 = .agent a) (hat : ∀ v : State, v.fetchTurn (.agent a) = v.fetchAt k presents)
    (hc : s.blocks[k]? = some c) :
    ∃ u : State, u.blk = c ∧ u.gie = s.gie ∧ u.portNo = k ∧ ∀ i, decode (presents u) = .ok i → s.fetch = .run i u := by
  obtain ⟨hblocks, _, hgie⟩ := nextTurn_keeps s
  obtain ⟨u, hsel, hblk, hgie'⟩ := select_of_getElem? (s := s.nextTurn.2) (by rw [hblocks, hc])
  refine ⟨u, hblk, hgie'.trans hgie, (select_spec hsel).2.1, fun i hdec => ?_⟩
  rw [State.fetch, hturn, hat]
  exact fetchAt_of_decode hsel hdec

/-- A step whose instruction replaces the block at hand has replaced it in the system. -/
theorem step_replaces {s t u : State} {i : Instr} {b : Block} (hfetch : s.fetch = .run i u)
    (hexec : exec i u = .next (u.setBlk b)) (h : step s = .next t) : t.blocks[u.portNo]? = some b := by
  have at_ := exec_blocks_portNo hexec
  rw [step_of_fetch_run hfetch, hexec, Host.Outcome.next.injEq] at h
  rwa [← h]

/-- The transmit handler's turn where it is enabled (R126). -/
theorem step_txh_turn {s t : State} {k : Nat} {c : Block} (hturn : s.nextTurn.1 = .agent (.txh k))
    (hc : s.blocks[k]? = some c) (hgie : s.gie = true) (htxie : c.txie = true) (hrdy : c.txrdy = true)
    (h : step s = .next t) : t.blocks[k]? = some c.txHandler := by
  obtain ⟨u, rfl, hgie', rfl, hrun⟩ := fetch_turn_at hturn (fun _ => rfl) hc
  have on : u.txEnabled = true := (txEnabled_iff u).2 ⟨hgie'.trans hgie, htxie, hrdy⟩
  exact step_replaces (hrun .txIsr (by rw [decode_txVector, if_pos on])) (exec_txIsr_of_enabled on) h

/-- The line's turn where TDR holds a byte (R127). -/
theorem step_lout_turn {s t : State} {k : Nat} {c : Block} (hturn : s.nextTurn.1 = .agent (.lout k))
    (hc : s.blocks[k]? = some c) (hrdy : c.txrdy = false) (h : step s = .next t) : t.blocks[k]? = some c.lineTakes := by
  obtain ⟨u, rfl, _, rfl, hrun⟩ := fetch_turn_at hturn (fun _ => rfl) hc
  have on : u.outEnabled = true := (outEnabled_iff u).2 hrdy
  exact step_replaces (hrun .lineOut (by rw [decode_outVector, if_pos on])) (exec_lineOut_of_enabled on) h

theorem enables_txh {s : State} {k : Nat} {c : Block} (hc : s.blocks[k]? = some c) :
    s.enables (.txh k) = (s.gie && c.txie && c.txrdy) := by
  obtain ⟨u, hsel, hblk, hgie⟩ := select_of_getElem? hc
  simp [State.enables, hsel, State.txEnabled, hblk, hgie]

theorem enables_lout {s : State} {k : Nat} {c : Block} (hc : s.blocks[k]? = some c) : s.enables (.lout k) = !c.txrdy := by
  obtain ⟨u, hsel, hblk, _⟩ := select_of_getElem? hc
  simp [State.enables, hsel, State.outEnabled, hblk]

/-! ### A held PUT whose TXQ is full -/

/-- Where the foreground holds, a step runs the held operation at its port, or an instruction that is no operation on a port
and no stage (R71). -/
theorem fetch_of_hold {s u : State} {k : Nat} {op : HeldOp} {i : Instr} (hold : s.fgst = .hold k op) (h : s.fetch = .run i u) :
    (i = op.instr ∧ u.portNo = k) ∨ (i.role ≠ .port ∧ i.role ≠ .stage) := by
  obtain ⟨_, hfgst, _⟩ := nextTurn_keeps s
  have hold' : s.nextTurn.2.fgst = .hold k op := by rw [hfgst, hold]
  rcases fetchTurn_busy (by rw [hold']; simp) h with ⟨k', op', hf, hsel, rfl⟩ | ⟨k', hf, _⟩ | rfl | rfl | rfl |
    ⟨_, _, _, _, rfl⟩ | ⟨_, bytes, _, _, hdec⟩
  · rw [hold'] at hf
    cases hf
    exact .inl ⟨rfl, (select_spec hsel).2.1⟩
  · rw [hold'] at hf
    cases hf
  · exact .inr (by decide)
  · exact .inr (by decide)
  · exact .inr (by decide)
  · exact .inr ⟨by simp [Instr.role], by simp [Instr.role]⟩
  · obtain ⟨_, _, _, _, rfl, _⟩ := decodeWire_ok hdec
    exact .inr ⟨by simp [Instr.role], by simp [Instr.role]⟩

/-- The foreground holds a PUT at block `k`, TXQ there is full, and the handlers may run; the invariants hold. -/
structure State.PutWaits (s : State) (k : Nat) (b : Byte) (c : Block) : Prop where
  ok : s.Ok
  gie : s.gie = true
  fgst : s.fgst = .hold k (.put b)
  blk : s.blocks[k]? = some c
  full : c.txq.full = true

theorem State.PutWaits.blkOk {s : State} {k : Nat} {b : Byte} {c : Block} (h : s.PutWaits k b c) : c.Ok :=
  h.ok.1 c (List.mem_of_getElem? h.blk)

/-- No step of a state in which a PUT waits changes FGST or GIE (R71, R28). -/
theorem State.PutWaits.step_keeps {s t : State} {k : Nat} {b : Byte} {c : Block} (h : s.PutWaits k b c)
    (hstep : step s = .next t) : t.fgst = .hold k (.put b) ∧ t.gie = true := by
  have keeps := fetch_keeps s
  rcases step_cases hstep with ⟨i, u, hrun, hexec⟩ | hpass
  · rw [hrun] at keeps
    obtain ⟨hblocks, hfgst, hgie⟩ := keeps
    rcases fetch_of_hold h.fgst hrun with ⟨rfl, rfl⟩ | ⟨hport, hstage⟩
    · have hold : u.fgst = .hold u.portNo (.put b) := hfgst.trans h.fgst
      have hblk : u.blk = c := Option.some.inj ((getElem?_portNo u).symm.trans (by rw [hblocks, h.blk]))
      have again := exec_put_of_full (.inr hold) (by rw [hblk, h.full])
      rw [HeldOp.instr, again, State.hold, Host.Outcome.next.injEq] at hexec
      rw [← hexec]
      exact ⟨rfl, hgie.trans h.gie⟩
    · have hlast : i ≠ .eTrl := by rintro rfl; exact hstage rfl
      have hoff : i ≠ .irqOff := by rintro rfl; exact hport rfl
      have hon : i ≠ .irqOn := by rintro rfl; exact hport rfl
      exact ⟨by rw [exec_fgst hexec hport hlast, hfgst, h.fgst],
        by rw [onlyIrqOffAndOnWriteGie i u t hexec hoff hon, hgie, h.gie]⟩
  · rw [hpass] at keeps
    obtain ⟨_, hfgst, hgie⟩ := keeps
    exact ⟨hfgst.trans h.fgst, hgie.trans h.gie⟩

/-- Where TXQ stays full through a step, TX_ISR has not run there, and TXRDY = 1 stays (R41, R126). -/
theorem State.PutWaits.txrdy_stays {s t : State} {k : Nat} {b : Byte} {c c' : Block} (h : s.PutWaits k b c)
    (h' : t.PutWaits k b c') (hstep : step s = .next t) (hrdy : c.txrdy = true) : c'.txrdy = true := by
  rcases step_block_cases hstep h.blk with same | ⟨i, u, hblk, hexec, ht⟩
  · rwa [← Option.some.inj (same.symm.trans h'.blk)]
  · obtain rfl : t.blk = c' := Option.some.inj (ht.symm.trans h'.blk)
    have hq : u.blk.txq.Ok := hblk ▸ h.blkOk.txq
    by_contra hlow
    obtain ⟨_, _, txrdy, _⟩ := (exec_cases hexec).2.transmit_writers
    have hne : t.blk.txrdy ≠ u.blk.txrdy := by rwa [hblk, hrdy]
    rcases txrdy hne with ⟨_, rfl⟩ | ⟨high, _⟩
    · rcases event_cases u u.txEnabled Block.txHandler with ⟨_, e⟩ | ⟨_, e⟩ <;>
        rw [exec, execTxIsr, e, Host.Outcome.next.injEq] at hexec
      · have room : t.blk.txq.full = false := by rw [← hexec]; exact txHandler_room hq
        rw [h'.full] at room
        cases room
      · exact hne (by rw [← hexec])
    · exact hlow high

/-! ### The fair run -/

/-- A run in which the PUT waits from the start, and TXQ never has room, waits for ever. -/
theorem putWaits_forever {σ : Nat → State} {k : Nat} {b : Byte} (run : IsRun σ) (ok : (σ 0).Ok) (hgie : (σ 0).gie = true)
    (hold : (σ 0).fgst = .hold k (.put b)) (noRoom : ∀ n c, (σ n).blocks[k]? = some c → c.txq.full = true) :
    ∀ n, ∃ c, (σ n).PutWaits k b c := by
  have waits : ∀ n, (σ n).Ok → (σ n).gie = true → (σ n).fgst = .hold k (.put b) → ∃ c, (σ n).PutWaits k b c := by
    intro n hok hg hf
    have ⟨_, _, port⟩ := hok
    have hk : k < (σ n).blocks.length := port k (by rw [hf]; rfl)
    have hc := List.getElem?_eq_getElem hk
    exact ⟨_, hok, hg, hf, hc, noRoom n _ hc⟩
  intro n
  induction n with
  | zero => exact waits 0 ok hgie hold
  | succ n ih =>
    obtain ⟨c, hw⟩ := ih
    obtain ⟨hf, hg⟩ := hw.step_keeps (run n)
    exact waits (n + 1) (everyStepKeepsTheInvariants _ _ hw.ok (run n)) hg hf

/-- The line takes the byte in TDR at some point of a fair run (R281). -/
theorem fair_txrdy {σ : Nat → State} {k : Nat} (run : IsRun σ) (fair : WeaklyFair σ)
    (blocks : ∀ n, ∃ c, (σ n).blocks[k]? = some c) : ∃ n c, (σ n).blocks[k]? = some c ∧ c.txrdy = true := by
  by_contra never
  have busy : ∀ n c, (σ n).blocks[k]? = some c → c.txrdy = false := fun n c hc =>
    Bool.eq_false_iff.2 fun hrdy => never ⟨n, c, hc, hrdy⟩
  obtain ⟨m, _, hturn⟩ := fair (.lout k) rfl 0 fun m _ => by
    obtain ⟨c, hc⟩ := blocks m
    rw [enables_lout hc, busy m c hc]
    rfl
  obtain ⟨c, hc⟩ := blocks m
  exact never ⟨m + 1, c.lineTakes, step_lout_turn hturn hc (busy m c hc) (run m), rfl⟩

/-- Settles O60: were there never room, the PUT would wait for ever; TXRDY is 1 at some point and from then on, so TX_ISR stays
enabled, is taken, and makes room. -/
theorem fairRunMakesRoomForAHeldPut : Obligations.FairRunMakesRoomForAHeldPut := by
  intro σ k b run fair ok hgie hold
  by_contra never
  have noRoom : ∀ n c, (σ n).blocks[k]? = some c → c.txq.full = true := fun n c hc =>
    (Bool.eq_false_or_eq_true _).resolve_right fun room => never ⟨n, c, hc, room⟩
  have waits := putWaits_forever run ok hgie hold noRoom
  obtain ⟨n, c₀, hc₀, hrdy₀⟩ := fair_txrdy run fair fun n => (waits n).imp fun _ hw => hw.blk
  have ready : ∀ m, n ≤ m → ∀ c, (σ m).PutWaits k b c → c.txrdy = true := by
    intro m hm
    induction m, hm using Nat.le_induction with
    | base => exact fun c hw => Option.some.inj (hc₀.symm.trans hw.blk) ▸ hrdy₀
    | succ m _ ih =>
      obtain ⟨c, hw⟩ := waits m
      exact fun c' hw' => hw.txrdy_stays hw' (run m) (ih c hw)
  obtain ⟨m, hm, hturn⟩ := fair (.txh k) rfl n fun m hm => by
    obtain ⟨c, hw⟩ := waits m
    rw [enables_txh hw.blk, hw.gie, hw.blkOk.txie_of_full hw.full, ready m hm c hw]
    rfl
  obtain ⟨c, hw⟩ := waits m
  have popped := step_txh_turn hturn hw.blk hw.gie (hw.blkOk.txie_of_full hw.full) (ready m hm c hw) (run m)
  exact never ⟨m + 1, c.txHandler, popped, txHandler_room hw.blkOk.txq⟩

end Sys2Proof.Machine
end

section
/-! The frame encoder (41_mux_encoder.md R160 to R168): what ENCODE latches, what each stage does with room in TXQ and without,
and that the stages of one ENCODE push exactly its frame. -/

namespace Sys2Proof.Machine

/-! ### DQ_CLEAR and ENCODE's issue step -/

/-- Settles O13: DQ_CLEAR is taken, finds its parser, and an idle foreground's completion changes nothing more. -/
theorem dqClearMovesTailToHead : Obligations.DqClearMovesTailToHead := by
  intro s p idle hp
  have completed : ∀ b, (s.setBlk b).done = s.setBlk b := fun _ => done_of_idle idle
  rw [exec, execDqClear, operate_idle idle, withParser_some hp, completed]
  rfl

/-- Latching a payload from slot `k` on writes no slot below `k` (R160). -/
theorem latchPayload_read_below (bs : List Byte) : ∀ (m : Memory) {k j : Nat}, j < k →
    (latchPayload m k bs).read j = m.read j := by
  induction bs with
  | nil => exact fun _ _ _ _ => rfl
  | cons b bs ih =>
    intro m k j hj
    rw [latchPayload, ih _ (by omega), Memory.read_write_other m b (by omega)]

/-- Latching a payload from slot `k` on leaves its byte `j` in slot `k + j` (R160). -/
theorem latchPayload_read_payload (bs : List Byte) : ∀ (m : Memory) (k : Nat) {j : Nat} (h : j < bs.length),
    (latchPayload m k bs).read (k + j) = some bs[j] := by
  induction bs with
  | nil => exact fun _ _ _ h => absurd h (Nat.not_lt_zero _)
  | cons b bs ih =>
    intro m k j h
    cases j with
    | zero =>
      have kept := latchPayload_read_below bs (m.write k b) (Nat.lt_succ_self k)
      exact kept.trans (Memory.read_write_same m k b)
    | succ j =>
      have later := ih (m.write k b) (k + 1) (Nat.lt_of_succ_lt_succ h)
      rwa [Nat.add_assoc, Nat.add_comm 1 j] at later

/-- ENCODE's issue step from an idle foreground (R160). -/
theorem exec_encode_of_idle {s : State} (idle : s.fgst = .idle) (link : Byte) {payload : List Byte} (hlen : payload.length ≤ 255) :
    exec (.encode link payload) s = .next { s.setBlk (s.blk.latchFrame link payload) with fgst := .encode s.portNo } := by
  have fits : payloadFits payload = true := decide_eq_true hlen
  rw [exec, execEncode, if_pos fits, operate_idle idle]

/-- Settles O26: EPAY is what latching the payload from slot 0 leaves. -/
theorem encodeIssueLatchesTheFrame : Obligations.EncodeIssueLatchesTheFrame := by
  intro link payload s idle hlen
  refine ⟨latchPayload s.blk.epay 0 payload, exec_encode_of_idle idle link hlen, fun k h => ?_, fun k h => ?_⟩
  · simpa using latchPayload_read_payload payload s.blk.epay 0 h
  · exact latchPayload_read_of_le payload _ (by omega)

/-! ### One stage -/

theorem stagePut_of_full {s : State} (hfull : s.blk.txq.full = true) (st : Stage) (v : Byte) (after : State → State) :
    s.stagePut st v after = .next s := by
  rcases stagePut_cases s st v after with ⟨_, _, room, _⟩ | e
  · simp [hfull] at room
  · exact e

theorem stagePut_of_room {s : State} {st : Stage} (henc : s.fgst = .encode s.portNo) (hst : s.blk.estage = st)
    (room : s.blk.txq.full = false) (v : Byte) (after : State → State) :
    s.stagePut st v after = .next (after (s.setBlk { s.blk with txq := s.blk.txq.store v, txie := true })) := by
  simp [State.stagePut, henc, hst, room, Block.txPut]

/-- The block with its transmit-ready interrupt on and other contents in TXQ, ESTAGE and EIDX: all that a stage writes. -/
def Block.withStage (b : Block) (txq : Queue) (st : Stage) (eidx : Byte) : Block :=
  { b with txq := txq, txie := true, estage := st, eidx := eidx }

theorem stageMove_eSof {b : Block} (hs : b.estage = .sof) : StageMove .eSof b sofByte .link b.eidx :=
  .inl ⟨rfl, hs, rfl, rfl, rfl⟩

theorem stageMove_eLink {b : Block} (hs : b.estage = .link) : StageMove .eLink b b.elink .flags b.eidx :=
  .inr (.inl ⟨rfl, hs, rfl, rfl, rfl⟩)

theorem stageMove_eFlags {b : Block} (hs : b.estage = .flags) : StageMove .eFlags b 0#8 .len b.eidx :=
  .inr (.inr (.inl ⟨rfl, hs, rfl, rfl, rfl⟩))

theorem stageMove_eLen {b : Block} (hs : b.estage = .len) :
    StageMove .eLen b b.elen (if b.elen = 0#8 then .trl else .pay) b.eidx :=
  .inr (.inr (.inr (.inl ⟨rfl, hs, rfl, rfl, rfl⟩)))

theorem stageMove_ePay {b : Block} (hs : b.estage = .pay) :
    StageMove .ePay b (b.epaySlot b.eidx.toNat) (if b.eidx + 1#8 = b.elen then .trl else .pay) (b.eidx + 1#8) :=
  .inr (.inr (.inr (.inr ⟨rfl, hs, rfl, rfl, rfl⟩)))

/-- A stage before the trailer, with room in TXQ, makes its move (R161 to R165). -/
theorem exec_stageMove {i : Instr} {s : State} {v : Byte} {st : Stage} {eidx : Byte} (henc : s.fgst = .encode s.portNo)
    (room : s.blk.txq.full = false) (h : StageMove i s.blk v st eidx) :
    exec i s = .next (s.setBlk (s.blk.withStage (s.blk.txq.store v) st eidx)) := by
  rcases h with ⟨rfl, hs, rfl, rfl, rfl⟩ | ⟨rfl, hs, rfl, rfl, rfl⟩ | ⟨rfl, hs, rfl, rfl, rfl⟩ | ⟨rfl, hs, rfl, rfl, rfl⟩ |
    ⟨rfl, hs, rfl, rfl, rfl⟩ <;>
  exact stagePut_of_room henc hs room _ _

theorem exec_eTrl (s : State) :
    exec .eTrl s = s.stagePut .trl (trailerOf s.blk.elink) fun s => (s.goStage .idle).done := rfl

/-- The trailer stage, with room in TXQ, pushes the trailer and completes the ENCODE (R166). -/
theorem exec_eTrl_of_room {s : State} (henc : s.fgst = .encode s.portNo) (room : s.blk.txq.full = false)
    (hs : s.blk.estage = .trl) :
    exec .eTrl s = .next (s.setBlk (s.blk.withStage (s.blk.txq.store (trailerOf s.blk.elink)) .idle s.blk.eidx)).done :=
  (exec_eTrl s).trans (stagePut_of_room henc hs room _ _)

/-- Settles O27: the moves of the four header stages, and the trailer stage. -/
theorem headerAndTrailerStagesPushTheirByte : Obligations.HeaderAndTrailerStagesPushTheirByte := by
  intro s henc room
  exact ⟨fun hs => exec_stageMove henc room (stageMove_eSof hs),
    fun hs => exec_stageMove henc room (stageMove_eLink hs),
    fun hs => exec_stageMove henc room (stageMove_eFlags hs),
    fun hs => exec_stageMove henc room (stageMove_eLen hs),
    fun hs => exec_eTrl_of_room henc room hs⟩

/-- EIDX does not wrap while a payload byte is left (R165). -/
theorem eidx_succ_toNat {b : Block} (h : b.eidx < b.elen) : (b.eidx + 1#8).toNat = b.eidx.toNat + 1 := by
  bv_omega

/-- Settles O28: the move of E_PAY, whose test for the last byte is one of numbers as EIDX does not wrap. -/
theorem payloadStagePushesTheNextByte : Obligations.PayloadStagePushesTheNextByte := by
  intro s henc hs left
  have last : s.blk.eidx + 1#8 = s.blk.elen ↔ s.blk.eidx.toNat + 1 = s.blk.elen.toNat := by
    rw [BitVec.toNat_eq, eidx_succ_toNat left]
  refine ⟨fun room => ?_, fun hfull => stagePut_of_full hfull _ _ _⟩
  simp only [← last]
  exact exec_stageMove henc room (stageMove_ePay hs)

/-- Every stage rule is a `stage_put` (R161 to R166). -/
theorem exec_stage {i : Instr} (h : i ∈ [Instr.eSof, .eLink, .eFlags, .eLen, .ePay, .eTrl]) (s : State) :
    ∃ st v after, exec i s = s.stagePut st v after := by
  simp only [List.mem_cons, List.not_mem_nil, or_false] at h
  rcases h with rfl | rfl | rfl | rfl | rfl | rfl
  · exact ⟨_, _, _, rfl⟩
  · exact ⟨_, _, _, rfl⟩
  · exact ⟨_, _, _, rfl⟩
  · exact ⟨_, _, _, rfl⟩
  · exact ⟨_, _, _, rfl⟩
  · exact ⟨_, _, _, exec_eTrl s⟩

/-- Settles O29: every stage is a `stage_put`, which holds without room. -/
theorem stagesHoldWhileTxqIsFull : Obligations.StagesHoldWhileTxqIsFull := by
  intro s _ hfull i hi
  obtain ⟨st, v, after, e⟩ := exec_stage hi s
  exact e.trans (stagePut_of_full hfull st v after)

/-! ### The stages of one ENCODE -/

/-- The bytes that the stages of an ENCODE under way still push: one for each move up to the trailer, and the trailer. -/
inductive Block.Owes : Block → List Byte → Prop
  | trailer {b : Block} (hs : b.estage = .trl) : Owes b [trailerOf b.elink]
  | move {b : Block} {i : Instr} {v : Byte} {st : Stage} {eidx : Byte} {bs : List Byte} (h : StageMove i b v st eidx)
      (rest : Owes (b.withStage (b.txq.store v) st eidx) bs) : Owes b (v :: bs)

/-- From the payload on, the latched bytes from EIDX to ELEN and the trailer are owed (R165, R166). -/
theorem owes_payload (cs : List Byte) : ∀ {b : Block}, b.estage = (if b.eidx = b.elen then .trl else .pay) →
    b.eidx.toNat + cs.length = b.elen.toNat → (∀ k (h : k < cs.length), b.epaySlot (b.eidx.toNat + k) = cs[k]) →
    b.Owes (cs ++ [trailerOf b.elink]) := by
  induction cs with
  | nil =>
    intro b hs count _
    exact .trailer (hs.trans (if_pos (BitVec.eq_of_toNat_eq count)))
  | cons c cs ih =>
    intro b hs count latched
    rw [List.length_cons] at count
    have left : b.eidx < b.elen := by rw [BitVec.lt_def]; omega
    have next : (b.eidx + 1#8).toNat = b.eidx.toNat + 1 := eidx_succ_toNat left
    have first : b.epaySlot b.eidx.toNat = c := latched 0 (Nat.succ_pos _)
    rw [← first]
    refine .move (stageMove_ePay (hs.trans (if_neg (by rintro e; simp [e] at left)))) (ih rfl ?_ fun k h => ?_)
    · calc (b.eidx + 1#8).toNat + cs.length
        _ = b.elen.toNat := by omega
    · calc b.epaySlot ((b.eidx + 1#8).toNat + k)
        _ = b.epaySlot (b.eidx.toNat + (k + 1)) := by rw [next, Nat.add_assoc, Nat.add_comm 1 k]
        _ = cs[k] := latched (k + 1) (Nat.succ_lt_succ h)

/-- What ENCODE's issue step latches is its frame: the stages owe exactly the frame's bytes (R160, R168). -/
theorem owes_frame (b : Block) (link : Byte) {payload : List Byte} (hlen : payload.length ≤ 255) :
    (b.latchFrame link payload).Owes (frameBytes link payload) := by
  have count : (BitVec.ofNat 8 payload.length).toNat = payload.length := by
    rw [BitVec.toNat_ofNat]
    exact Nat.mod_eq_of_lt (by omega)
  have latched : ∀ k (h : k < payload.length), (b.latchFrame link payload).epaySlot (0 + k) = payload[k] := fun k h => by
    rw [Block.epaySlot, Block.latchFrame, latchPayload_read_payload payload b.epay 0 h, Option.getD_some]
  refine .move (stageMove_eSof rfl) (.move (stageMove_eLink rfl) (.move (stageMove_eFlags rfl) (.move (stageMove_eLen rfl) ?_)))
  refine owes_payload payload ?_ ?_ latched
  · simp only [Block.withStage, Block.latchFrame, eq_comm]
  · exact (Nat.zero_add _).trans count.symm

/-! ### The foreground's turns during an ENCODE -/

/-- A foreground turn during an ENCODE runs the stage that ESTAGE selects (R160). -/
theorem step_stage {s : State} {ts : List Turn} {i : Instr} (hscript : s.script = .agent .fg :: ts)
    (henc : s.fgst = .encode s.portNo) (hdec : decode (.stage s.blk.estage.code) = .ok i) :
    step s = exec i (s.afterTurns ts s.blk) := by
  obtain ⟨_, _, _, stage⟩ := stepRetriesTheHeldOperationOrStage s _ ts s.portNo hscript (select_afterTurns s ts s.blk)
  exact stage i henc hdec

/-- ESTAGE decodes to the stage whose move is the next one (R34). -/
theorem StageMove.decode_estage {i : Instr} {b : Block} {v : Byte} {st : Stage} {eidx : Byte} (h : StageMove i b v st eidx) :
    decode (.stage b.estage.code) = .ok i := by
  rcases h with ⟨rfl, hs, _⟩ | ⟨rfl, hs, _⟩ | ⟨rfl, hs, _⟩ | ⟨rfl, hs, _⟩ | ⟨rfl, hs, _⟩ <;> rw [hs] <;> rfl

/-- A queue in which at least one more byte fits has room (R62, R63). -/
theorem Queue.room_of_fits {q : Queue} {n : Nat} (ok : q.Ok) (fits : q.occ + n + 1 ≤ q.cap) (hn : 0 < n) : q.full = false := by
  rw [← Bool.not_eq_true, q.full_iff_occ ok]
  omega

/-- With room in TXQ for all the bytes owed, that many foreground turns push them behind what was there and complete the ENCODE
(R161 to R166). -/
theorem run_owed {b : Block} {bs : List Byte} (h : b.Owes bs) : ∀ {s : State} {ts : List Turn}, s.blk = b →
    s.fgst = .encode s.portNo → b.txq.Ok → b.txq.occ + bs.length + 1 ≤ b.txq.cap →
    s.script = List.replicate bs.length (.agent .fg) ++ ts →
    ∃ (q : Queue) (eidx : Byte), q.live = b.txq.live ++ bs ∧
      core.run bs.length s = .next (s.afterTurns ts (b.withStage q .idle eidx)).done := by
  induction h with
  | @trailer b hs =>
    rintro s ts rfl henc ok fits hscript
    have room := Queue.room_of_fits ok fits (by simp)
    have stage : step s = exec .eTrl (s.afterTurns ts s.blk) := step_stage hscript henc (by rw [hs]; rfl)
    exact ⟨_, _, s.blk.txq.live_store _ ok room,
      run_succ (M := core) (stage.trans (exec_eTrl_of_room (s := s.afterTurns ts s.blk) henc room hs)) 0⟩
  | @move b i v st eidx bs hm _ ih =>
    rintro s ts rfl henc ok fits hscript
    have room := Queue.room_of_fits ok fits (by simp)
    let turns := List.replicate bs.length (.agent .fg) ++ ts
    let t := s.afterTurns turns (s.blk.withStage (s.blk.txq.store v) st eidx)
    have stage : step s = .next t := (step_stage (ts := turns) hscript henc hm.decode_estage).trans
      (exec_stageMove (s := s.afterTurns turns s.blk) henc room hm)
    have fits' : (s.blk.txq.store v).occ + bs.length + 1 ≤ s.blk.txq.cap := by
      rw [s.blk.txq.store_occ v ok room]
      rw [List.length_cons] at fits
      omega
    obtain ⟨q, e, live, rest⟩ := ih (s := t) (ts := ts) rfl henc (s.blk.txq.store_ok v ok) fits' rfl
    refine ⟨q, e, ?_, (run_succ (M := core) stage bs.length).trans rest⟩
    calc q.live
      _ = (s.blk.txq.store v).live ++ bs := live
      _ = s.blk.txq.live ++ v :: bs := by rw [s.blk.txq.live_store v ok room, List.append_assoc, List.singleton_append]

/-- The turn of an idle foreground whose next word is an ENCODE on this port is its issue step (R160). -/
theorem step_encode {s : State} {ts : List Turn} {cs : List Command} {link : Byte} {payload : List Byte} {width bits : Nat}
    (idle : s.fgst = .idle) (hlen : payload.length ≤ 255) (hword : encode (.encode link payload) = .command width bits)
    (hprog : s.program = ⟨s.portNo, width, bits⟩ :: cs) (hscript : s.script = .agent .fg :: ts) :
    step s = .next { s with
      script := ts, program := cs, fgst := .encode s.portNo, blk := s.blk.latchFrame link payload } := by
  have hdec : decode (.command width bits) = .ok (.encode link payload) :=
    hword ▸ decodeOfEncodeIsTheInstruction _ (decide_eq_true hlen)
  let u : State := { s with script := ts, program := cs }
  exact (stepRunsTheDecodedCommand s u ts _ cs _ hscript idle hprog hdec (select_portNo u)).trans
    (exec_encode_of_idle (s := u) idle link hlen)

/-- Settles O30: the issue step latches the frame, and the stages push what they then owe. -/
theorem encodeQueuesExactlyTheFrame : Obligations.EncodeQueuesExactlyTheFrame := by
  intro link payload s ts cs width bits idle ok hlen fits hword hprog hscript
  let turns := List.replicate (5 + payload.length) (.agent .fg) ++ ts
  let t : State := { s with
    script := turns, program := cs, fgst := .encode s.portNo, blk := s.blk.latchFrame link payload }
  have hscript' : s.script = .agent .fg :: turns := by
    rw [hscript, show 6 + payload.length = (5 + payload.length) + 1 by omega, List.replicate_succ, List.cons_append]
  have issue : step s = .next t := step_encode idle hlen hword hprog hscript'
  have length : (frameBytes link payload).length = 5 + payload.length := wireBytes_length _ _ _ _
  obtain ⟨q, e, live, rest⟩ := run_owed (owes_frame s.blk link hlen) (s := t) (ts := ts) rfl rfl ok
    (by rw [length]; exact fits) (by rw [length])
  rw [length] at rest
  have run : core.run (6 + payload.length) s = .next (t.afterTurns ts (t.blk.withStage q .idle e)).done := by
    rw [show 6 + payload.length = (5 + payload.length) + 1 by omega]
    exact (run_succ (M := core) issue _).trans rest
  exact ⟨_, run, live, rfl, rfl, rfl, rfl, rfl, rfl, rfl, rfl, rfl, rfl, rfl⟩

end Sys2Proof.Machine
end

section
/-! The receive parser and the reads that take from DQ (42_frame_parser.md R180 to R191): each byte class, a stream of well-formed
frames, the bound on the way back to WaitSOF, and DQ_GET. -/

namespace Sys2Proof.Machine

/-! ### The byte classes as instructions -/

/-- The instruction that PSTATE and a byte select is PARSE of that byte (R185). -/
theorem exec_of_classify {s : State} {p : Parser} {c : Byte} {i : Instr} (hp : s.blk.parser = some p)
    (hi : (classify p.pstate c).instr c = i) : exec i s = .next (s.setBlk (s.blk.parse c)) :=
  hi ▸ exec_classify_instr hp c

/-- Settles O32: the two header bytes, each PARSE in its state. -/
theorem headerBytesStoreTheLinkAndSkipTheFlags : Obligations.HeaderBytesStoreTheLinkAndSkipTheFlags := by
  intro s p b hp
  refine ⟨fun hs => ?_, fun hs => ?_⟩
  · rw [exec_of_classify (c := b) hp (by rw [hs]; rfl), parse_link hp hs]
    rfl
  · rw [exec_of_classify (c := b) hp (by rw [hs]; rfl), parse_flags hp hs]
    rfl

/-- Settles O33: the length byte, 0 and any other. -/
theorem lengthByteStartsThePayloadOrEndsTheFrame : Obligations.LengthByteStartsThePayloadOrEndsTheFrame := by
  intro s p hp hs
  refine ⟨?_, fun b hb => ?_⟩
  · rw [exec_of_classify (c := 0#8) hp (by rw [hs]; rfl), parse_len0 hp hs]
    rfl
  · have lenN : (classify p.pstate b).instr b = .pLenN b := by rw [hs, classify_waitLength, if_neg hb]; rfl
    rw [exec_of_classify hp lenN, parse_lenN hp hs hb]
    rfl

/-! ### WaitSOF -/

/-- 0xBF starts a frame, once the trailer has been checked (R180). -/
theorem parse_sof {b : Block} {p : Parser} (hp : b.parser = some p) (hs : p.pstate = .waitSOF) :
    b.parse sofByte = (b.trailerCheck p sofByte).setParser { p with ptrailv := false, pstate := .waitLink } := by
  have cls : classify p.pstate sofByte = .sof := by rw [hs]; rfl
  simp only [Block.parse, hp, cls, Block.parseSof]

/-- Any other byte is discarded, once the trailer has been checked (R180). -/
theorem parse_skip {b : Block} {p : Parser} {c : Byte} (hp : b.parser = some p) (hs : p.pstate = .waitSOF) (hc : c ≠ 0xBF#8) :
    b.parse c = (b.trailerCheck p c).setParser { p with ptrailv := false } := by
  have cls : classify p.pstate c = .skip := by rw [hs, classify_waitSOF, if_neg hc]
  simp only [Block.parse, hp, cls, Block.parseSkip, ← hs]

/-- 0xBF raises FrmErr where another trailer is expected, and nowhere else (R180). -/
theorem frmErrDue_sofByte (p : Parser) : p.frmErrDue sofByte = true ↔ p.ptrailv = true ∧ p.ptrail ≠ 0xBF#8 := by
  rw [ne_comm, Parser.frmErrDue]
  cases p.ptrailv with
  | false => simp
  | true =>
    simp only [if_true, true_and, decide_eq_true_iff]
    rfl

/-- Any other byte raises FrmErr unless it is the trailer expected (R180). -/
theorem frmErrDue_of_ne_sofByte (p : Parser) {c : Byte} (h : c ≠ 0xBF#8) :
    p.frmErrDue c = false ↔ p.ptrailv = true ∧ p.ptrail = c := by
  rw [eq_comm (a := p.ptrail)]
  cases ht : p.ptrailv <;> simp [Parser.frmErrDue, ht, sofByte, h]

/-- Settles O31: both rows of WaitSOF check the trailer in the same way, and 0xBF alone leaves the state. -/
theorem waitSofTakesOnlyTheStartByte : Obligations.WaitSofTakesOnlyTheStartByte := by
  intro s p hp hs
  refine ⟨?_, fun b hb => ?_⟩
  · rw [exec_of_classify (c := sofByte) hp (by rw [hs]; rfl), parse_sof hp hs]
    rcases trailerCheck_cases s.blk p sofByte with ⟨due, e⟩ | ⟨due, e⟩
    · rw [e, if_pos ((frmErrDue_sofByte p).1 due)]
      rfl
    · rw [e, if_neg (mt (frmErrDue_sofByte p).2 (by rw [due]; decide))]
      rfl
  · have skip : (classify p.pstate b).instr b = .pSkip b := by rw [hs, classify_waitSOF, if_neg hb]; rfl
    rw [exec_of_classify hp skip, parse_skip hp hs hb]
    rcases trailerCheck_cases s.blk p b with ⟨due, e⟩ | ⟨due, e⟩
    · rw [e, if_neg (mt (frmErrDue_of_ne_sofByte p hb).2 (by rw [due]; decide))]
      rfl
    · rw [e, if_pos ((frmErrDue_of_ne_sofByte p hb).1 due)]
      rfl

/-! ### Payload -/

/-- The parser after a payload byte has been counted, with `dq` for its queue (R184). -/
def Parser.counted (p : Parser) (dq : Queue) : Parser :=
  if p.prem = 1#8 then { p with dq := dq, prem := 0#8 }.frameOver else { p with dq := dq, prem := p.prem - 1#8 }

@[simp] theorem Parser.counted_dq (p : Parser) (dq : Queue) : (p.counted dq).dq = dq := by
  unfold Parser.counted
  split <;> rfl

/-- A payload byte is counted whatever becomes of it; a dropped one raises DqDrop (R184). -/
theorem parse_payload {b : Block} {p : Parser} (hp : b.parser = some p) (hs : p.pstate = .payload) (c : Byte) :
    b.parse c = (if p.dq.full then b.raise (.dqDrop c) else b).setParser (p.counted (p.dq.push c).1) := by
  have cls : classify p.pstate c = .data := by rw [hs]; rfl
  have parsed : b.parse c = b.parseData c p := by simp only [Block.parse, hp, cls]
  obtain ⟨b', q, hq, counted⟩ := parseData_cases c b p
  have pushed : q = (p.dq.push c).1 ∧ b' = if p.dq.full then b.raise (.dqDrop c) else b := by
    rcases hq with ⟨hf, rfl, rfl⟩ | ⟨hf, rfl, rfl⟩ <;> simp [hf]
  obtain ⟨rfl, rfl⟩ := pushed
  rw [parsed]
  rcases counted with ⟨one, e⟩ | ⟨more, e⟩
  · rw [e, Parser.counted, if_pos one]
  · rw [e, Parser.counted, if_neg more]

/-- Settles O34: the byte is pushed into DQ or dropped, and the parser after it is the counted one either way. -/
theorem payloadByteIsCountedStoredOrDropped : Obligations.PayloadByteIsCountedStoredOrDropped := by
  intro s p b hp hs
  have taken := exec_of_classify (i := .pData b) (c := b) hp (by rw [hs]; rfl)
  rw [parse_payload hp hs] at taken
  refine ⟨p.counted (p.dq.push b).1, by rw [Parser.counted_dq]; rfl, fun room => ?_, fun hfull => ?_⟩
  · rw [taken, Parser.counted_dq, Queue.push_room room, room]
    exact ⟨rfl, rfl⟩
  · rw [taken, Parser.counted_dq, Queue.push_full hfull, hfull]
    exact ⟨rfl, rfl⟩

/-! ### A stream of well-formed frames -/

theorem setParser_of_parser {b : Block} {p : Parser} (hp : b.parser = some p) : b.setParser p = b := by
  rw [Block.setParser, ← hp]

/-- The link of the last of some frames is that of the last of the later ones, or of the first where there are no others. -/
theorem lastLink_cons (f : WireFrame) (fs : List WireFrame) (link : Byte) :
    ((f :: fs).getLast?.map WireFrame.link).getD link = (fs.getLast?.map WireFrame.link).getD f.link := by
  cases h : fs.getLast? <;> simp [List.getLast?_cons, h]

/-- PARSE of well-formed frames changes the parser alone (R186). -/
theorem parseAll_frames (fs : List WireFrame) : ∀ {b : Block} {p : Parser}, b.parser = some p → p.Ok → p.pstate = .waitSOF →
    p.ptrailv = false → (∀ f ∈ fs, f.link ≠ 0x40#8 ∧ f.payload.length ≤ 255) →
    p.dq.occ + (fs.flatMap WireFrame.payload).length + 1 ≤ p.dq.cap →
    ∃ p' : Parser, b.parseAll (fs.flatMap WireFrame.bytes) = b.setParser p' ∧
      p'.dq.live = p.dq.live ++ fs.flatMap WireFrame.payload ∧ p'.pstate = .waitSOF ∧ p'.ptrailv = false ∧
      p'.plink = (fs.getLast?.map WireFrame.link).getD p.plink := by
  induction fs with
  | nil =>
    intro b p hp _ hs ht _ _
    exact ⟨p, (setParser_of_parser hp).symm, by simp, hs, ht, rfl⟩
  | cons f fs ih =>
    intro b p hp ok hs ht frames fits
    obtain ⟨⟨hlink, hlen⟩, later⟩ := List.forall_mem_cons.1 frames
    rw [List.flatMap_cons, List.length_append] at fits
    obtain ⟨q, hq, hcap, hlive, first⟩ := parseAll_frame f.flags hp ok hs ht hlink hlen (by omega)
    have occ : q.occ = p.dq.occ + f.payload.length := by
      rw [← q.live_length, hlive, List.length_append, p.dq.live_length]
    obtain ⟨_, prem, _⟩ := ok
    obtain ⟨p', rest, live', hs', ht', hplink⟩ :=
      ih (b := b.setParser { p with dq := q, plink := f.link, plinkv := true, ptrail := trailerOf f.link }) rfl
        ⟨hq, prem, by simp⟩ hs ht later (by rw [occ, hcap]; omega)
    refine ⟨p', ?_, ?_, hs', ht', hplink.trans (lastLink_cons f fs _).symm⟩
    · rw [List.flatMap_cons, parseAll_append, WireFrame.bytes, first, rest, setParser_setParser]
    · rw [live', hlive, List.flatMap_cons, List.append_assoc]

/-- Settles O35: by induction on the frames; a change of the parser alone is no event. -/
theorem wellFormedStreamIsDeframed : Obligations.WellFormedStreamIsDeframed := by
  intro b p fs hp ok hs ht frames fits
  obtain ⟨p', parsed, live, hs', ht', hplink⟩ := parseAll_frames fs hp ok hs ht frames fits
  rw [parsed]
  exact ⟨p', rfl, live, hs', ht', hplink, rfl, rfl⟩

/-! ### The way back to WaitSOF -/

/-- The most bytes that can pass before the parser is in WaitSOF again: what is left of the header, and then PREM, or the
largest PREM where the length byte is still to come (R187). -/
def Parser.bytesToSof (p : Parser) : Nat :=
  match p.pstate with
  | .waitSOF => 0
  | .waitLink => 258
  | .waitFlags => 257
  | .waitLength => 256
  | .payload => p.prem.toNat

theorem bytesToSof_le (p : Parser) : p.bytesToSof ≤ 258 := by
  have premLt := p.prem.isLt
  unfold Parser.bytesToSof
  split <;> omega

/-- Counting a payload byte brings WaitSOF nearer, whatever becomes of the byte (R184). -/
theorem counted_bytesToSof {p : Parser} (hs : p.pstate = .payload) (hprem : p.prem ≠ 0#8) (dq : Queue) :
    (p.counted dq).bytesToSof < p.bytesToSof := by
  have here : p.bytesToSof = p.prem.toNat := by rw [Parser.bytesToSof, hs]
  rw [here]
  unfold Parser.counted
  split
  · simp only [Parser.bytesToSof, frameOver_pstate]
    bv_omega
  · simp only [Parser.bytesToSof, hs]
    bv_omega

/-- Outside WaitSOF every byte brings the parser nearer to it (R181 to R184). -/
theorem parse_bytesToSof {b : Block} {p p' : Parser} (hp : b.parser = some p) (ok : p.Ok) (hs : p.pstate ≠ .waitSOF) (c : Byte)
    (hp' : (b.parse c).parser = some p') : p'.bytesToSof < p.bytesToSof := by
  obtain ⟨_, premNonzero, _⟩ := ok
  have nearer : ∀ {b' : Block} {q : Parser}, b.parse c = b'.setParser q → q.bytesToSof < p.bytesToSof →
      p'.bytesToSof < p.bytesToSof := by
    intro b' q e lt
    rw [e, setParser_parser, Option.some.injEq] at hp'
    exact hp' ▸ lt
  cases hst : p.pstate with
  | waitSOF => exact absurd hst hs
  | waitLink => exact nearer (parse_link hp hst c) (by simp [Parser.bytesToSof, hst])
  | waitFlags => exact nearer (parse_flags hp hst c) (by simp [Parser.bytesToSof, hst])
  | waitLength =>
    by_cases hc : c = 0#8
    · subst hc
      exact nearer (parse_len0 hp hst) (by simp [Parser.bytesToSof, hst])
    · exact nearer (parse_lenN hp hst hc) (by simpa [Parser.bytesToSof, hst] using c.isLt)
  | payload => exact nearer (parse_payload hp hst c) (counted_bytesToSof hst (premNonzero.1 hst) _)

/-- Enough bytes, whichever they are, bring the parser to WaitSOF (R187). -/
theorem parseAll_reaches_waitSOF (cs : List Byte) : ∀ {b : Block} {p : Parser}, b.parser = some p → p.Ok →
    p.bytesToSof ≤ cs.length →
    ∃ (n : Nat) (p' : Parser), n ≤ cs.length ∧ (b.parseAll (cs.take n)).parser = some p' ∧ p'.pstate = .waitSOF := by
  induction cs with
  | nil =>
    intro b p hp ok near
    refine ⟨0, p, le_rfl, hp, ?_⟩
    by_contra hs
    obtain ⟨p', h⟩ := parse_spec b 0#8 p hp
    exact (parse_bytesToSof hp ok hs 0#8 (congrArg Block.parser h.eq)).not_ge (near.trans (Nat.zero_le _))
  | cons c cs ih =>
    intro b p hp ok near
    by_cases hs : p.pstate = .waitSOF
    · exact ⟨0, p, Nat.zero_le _, hp, hs⟩
    · obtain ⟨p₁, h⟩ := parse_spec b c p hp
      have hp₁ : (b.parse c).parser = some p₁ := congrArg Block.parser h.eq
      have nearer := parse_bytesToSof hp ok hs c hp₁
      rw [List.length_cons] at near
      obtain ⟨n, p', hn, parsed, hs'⟩ := ih hp₁ (h.ok ok).1 (by omega)
      exact ⟨n + 1, p', Nat.succ_le_succ hn, parsed, hs'⟩

/-- Settles O37: no parser is farther than 258 bytes from WaitSOF, and every byte brings it nearer. -/
theorem parserReturnsToWaitSofInBoundedBytes : Obligations.ParserReturnsToWaitSofInBoundedBytes := by
  intro b p cs hp ok hlen
  obtain ⟨n, p', hn, parsed, hs⟩ := parseAll_reaches_waitSOF cs hp ok (hlen ▸ bytesToSof_le p)
  exact ⟨n, p', hlen ▸ hn, parsed, hs⟩

/-! ### DQ_GET -/

/-- Settles O12: with a parser DQ_GET is not refused; it pops where DQ is not empty and holds where it is. -/
theorem dqGetDequeuesOrHolds : Obligations.DqGetDequeuesOrHolds := by
  intro s p ready hp
  have taken : exec .dqGet s = if p.dq.empty then s.hold .dqGet else
      .next ((s.setBlk (s.blk.setParser { p with dq := p.dq.pop })).answer (.bits8 p.dq.front)) := by
    rw [exec, execDqGet, operate_of_ready ready, withParser_some hp]
  refine ⟨fun hne => ?_, fun he => ?_⟩
  · rw [taken, if_neg (mt p.dq.empty_iff.1 hne)]
    rfl
  · rw [taken, if_pos (p.dq.empty_iff.2 he)]
    rfl

end Sys2Proof.Machine
end

section
/-! The system operations (43_system_ops.md R210 to R215): the reads of the status registers and the critical section, each where
an idle foreground issues it. -/

namespace Sys2Proof.Machine

/-! ### The observers -/

/-- Settles O15: each read is taken, finds its parser where it needs one, and completes with its layout of R39. -/
theorem statusReadsReturnAndChangeNothing : Obligations.StatusReadsReturnAndChangeNothing := by
  intro s idle
  refine ⟨?_, fun p hp => ⟨?_, ?_⟩⟩
  · rw [exec, execRdErr, operate_idle idle, answer_of_idle idle]
  · rw [exec, execRdPstate, operate_idle idle, withParser_some hp, answer_of_idle idle, Parser.stateReadout]
  · rw [exec, execRdPlink, operate_idle idle, withParser_some hp, answer_of_idle idle, Parser.linkReadout]

/-- RD_CTL answers with the byte of R39 and changes nothing else (R213). -/
theorem exec_rdCtl_of_idle {s : State} (idle : s.fgst = .idle) :
    exec .rdCtl s = .next { s with results := s.results ++ [.bits8 s.ctlByte] } := by
  rw [exec, execRdCtl, operate_idle idle, answer_of_idle idle]

/-- Settles O16: RD_CTL answers with the byte of R39, in which each flag is found at the bit where it was appended. -/
theorem rdCtlReturnsTheFlagsBitByBit : Obligations.RdCtlReturnsTheFlagsBitByBit := by
  intro s idle
  refine ⟨s.ctlByte, exec_rdCtl_of_idle idle, ?_⟩
  simp only [State.ctlByte, BitVec.append_ofBool, BitVec.getLsbD_concat_zero, BitVec.getLsbD_concat_succ,
    BitVec.getLsbD_zero, and_self]

/-! ### The critical section -/

/-- Settles O17: each is taken, and an idle foreground's completion changes nothing more. -/
theorem irqOffAndOnWriteGie : Obligations.IrqOffAndOnWriteGie := by
  intro s idle
  have completed : ∀ g, ({ s with gie := g } : State).done = { s with gie := g } := fun _ => done_of_idle idle
  refine ⟨?_, ?_⟩
  · rw [exec, execIrqOff, operate_idle idle, completed]
  · rw [exec, execIrqOn, operate_idle idle, completed]

end Sys2Proof.Machine
end

section
/-! Waiting for data that cannot come (60_exceptions.md R237; 70_reset_and_hazards.md R270). While a GET or a DQ_GET holds on an
empty queue, only RX_ISR at its block could bring a byte. The handler stays disabled there with GIE = 0 or RXIE = 0, flags that a
holding foreground does not write, and with RXC = 0 on a line that delivers nothing. -/

namespace Sys2Proof.Machine

/-! ### Hangs -/

/-- FGST and the encoders are all that progress speaks of. -/
theorem SameSystem.progress {a b : State} (h : SameSystem a b) : b.progress = a.progress := by
  obtain ⟨hblocks, hfgst, _⟩ := h
  rw [State.progress, hblocks, hfgst, State.progress]

/-- A busy foreground is hung where some condition holds now, and every allowed turn keeps it and makes no progress (R237). -/
theorem hungUnder_of_invariant {s : State} {allowed : Turn → Prop} {P : State → Prop} (busy : s.fgst ≠ .idle) (start : P s)
    (keeps : ∀ {t u : State} {turn : Turn}, P t → allowed turn → step { t with script := [turn] } = .next u →
      P u ∧ u.progress = t.progress) : s.HungUnder allowed := by
  have inv : ∀ t, Leads allowed s t → P t ∧ t.progress = s.progress := by
    intro t lead
    induction lead with
    | here => exact ⟨start, rfl⟩
    | next turn _ hallowed hstep ih =>
      obtain ⟨hP, hprogress⟩ := ih
      obtain ⟨hP', hprogress'⟩ := keeps hP hallowed hstep
      exact ⟨hP', hprogress'.trans hprogress⟩
  exact ⟨busy, fun t lead => (inv t lead).2⟩

/-- An instruction that is no operation on a port and no stage makes no progress (R35, R41). -/
theorem exec_progress {i : Instr} {s t : State} (h : exec i s = .next t) (hport : i.role ≠ .port) (hstage : i.role ≠ .stage) :
    t.progress = s.progress := by
  obtain ⟨frame, effect⟩ := exec_cases h
  obtain ⟨estage, latch⟩ := effect.encoder_writers
  have hencode : ∀ link payload, i ≠ .encode link payload := by rintro _ _ rfl; exact hport rfl
  have hlast : i ≠ .eTrl := by rintro rfl; exact hstage rfl
  have hpay : i ≠ .ePay := by rintro rfl; exact hstage rfl
  have hestage : t.blk.estage = s.blk.estage := by
    by_contra hne
    rcases estage hne with ⟨link, payload, e⟩ | e
    · exact hencode link payload e
    · exact hstage e
  have heidx : t.blk.eidx = s.blk.eidx := (latch hencode).2.2.2 hpay
  rw [State.progress, exec_fgst h hport hlast, frame.map_blocks (f := fun b => (b.estage, b.eidx)) (by rw [hestage, heidx]),
    State.progress]

/-! ### An empty queue -/

/-- The queue that an operation takes its byte from is empty, and the operation is not refused: RXQ for GET where there is no
parser, DQ for DQ_GET where there is one. PUT takes none. -/
def Block.Dry (b : Block) : HeldOp → Prop
  | .put _ => False
  | .get => b.parser = none ∧ b.rxq.head = b.rxq.tail
  | .dqGet => ∃ p, b.parser = some p ∧ p.dq.head = p.dq.tail

/-- The retry of an operation whose queue is empty goes on holding (R71, R122, R191). -/
theorem exec_held_of_dry {s : State} {op : HeldOp} (hold : s.fgst = .hold s.portNo op) (dry : s.blk.Dry op) :
    exec op.instr s = .next s := by
  have again : ({ s with fgst := .hold s.portNo op } : State) = s := by rw [← hold]
  cases op with
  | put b => exact dry.elim
  | get =>
    obtain ⟨hnone, hempty⟩ := dry
    rw [HeldOp.instr, (getDequeuesOrHolds s (.inr hold) hnone).2 hempty, again]
  | dqGet =>
    obtain ⟨p, hp, hempty⟩ := dry
    rw [HeldOp.instr, (dqGetDequeuesOrHolds s p (.inr hold) hp).2 hempty, again]

/-- An instruction that is no operation on a port, no byte class and not RX_ISR moves no data: RXQ's indices, the parser and RXIE
stay, and but for LINE_IN RXC too (R41). -/
theorem exec_keeps_supply {i : Instr} {s t : State} (h : exec i s = .next t) (hport : i.role ≠ .port)
    (hclass : i.role ≠ .byteClass) (hrx : i ≠ .rxIsr) :
    (t.blk.rxq.head = s.blk.rxq.head ∧ t.blk.rxq.tail = s.blk.rxq.tail) ∧ t.blk.parser = s.blk.parser ∧
      t.blk.rxie = s.blk.rxie ∧ ((∀ c, i ≠ .lineIn c) → t.blk.rxc = s.blk.rxc) := by
  have effect := (exec_cases h).2
  obtain ⟨rxqHead, rxqTail, _, rxc, rxieBaud⟩ := effect.receive_writers
  have hinit : ∀ baud, i ≠ .init baud := by rintro _ rfl; exact hport rfl
  refine ⟨⟨(rxqHead hrx).2 hinit, ?_⟩, ?_, (rxieBaud hinit).1, fun hline => ?_⟩
  · by_contra hne
    rcases rxqTail hinit hne with ⟨rfl, _⟩ | ⟨e, _⟩
    · exact hport rfl
    · exact hrx e
  · rcases effect.parser_cases with ⟨hp, _⟩ | ⟨_, _, _, ⟨rfl, _⟩ | ⟨rfl, _⟩⟩ | ⟨e | e, _⟩
    · exact hp
    · exact absurd rfl hport
    · exact absurd rfl hport
    · exact absurd e hrx
    · exact absurd e hclass
  · by_contra hne
    rcases rxc hinit hne with ⟨_, c, e⟩ | ⟨_, e⟩
    · exact hline c e
    · exact hrx e

theorem Block.Dry.of_eq {b b' : Block} {op : HeldOp} (h : b.Dry op) (hparser : b'.parser = b.parser)
    (hrxq : b'.rxq.head = b.rxq.head ∧ b'.rxq.tail = b.rxq.tail) : b'.Dry op := by
  obtain ⟨hhead, htail⟩ := hrxq
  cases op with
  | put b => exact h
  | get => rwa [Block.Dry, hparser, hhead, htail]
  | dqGet => rwa [Block.Dry, hparser]

/-! ### A line that delivers nothing -/

/-- While the foreground holds, the turn that runs LINE_IN is one that delivers a byte (R124). -/
theorem delivers_of_fetch_lineIn {s u : State} {k : Nat} {op : HeldOp} {turn : Turn} {c : Byte} (hold : s.fgst = .hold k op)
    (h : ({ s with script := [turn] } : State).fetch = .run (.lineIn c) u) : Turn.delivers s.blocks.length turn = true := by
  have hturn : ({ s with script := [] } : State).fetchTurn turn = .run (.lineIn c) u := h
  have busy : ({ s with script := [] } : State).fgst ≠ .idle := by simp [hold]
  rcases fetchTurn_busy busy hturn with ⟨_, op', _, _, e⟩ | ⟨_, he, _⟩ | e | e | e | ⟨j, b, rfl, hsel, _⟩ | ⟨_, _, _, _, hdec⟩
  · cases op' <;> cases e
  · cases hold.symm.trans he
  · cases e
  · cases e
  · cases e
  · obtain ⟨_, _, hj, _⟩ := select_spec hsel
    exact decide_eq_true (List.getElem?_eq_some_iff.1 hj).1
  · obtain ⟨_, _, _, _, e, _⟩ := decodeWire_ok hdec
    cases e

/-! ### A held operation that starves -/

/-- RX_ISR cannot become enabled at a block of `n`: a flag that enables it is 0 and stays so, or no byte waits and no allowed
turn delivers one (R70). -/
def Block.Cut (b : Block) (gie : Bool) (n : Nat) (allowed : Turn → Prop) : Prop :=
  gie = false ∨ b.rxie = false ∨ (b.rxc = false ∧ ∀ turn, allowed turn → Turn.delivers n turn = false)

/-- The foreground holds an operation at block `k`, the queue it takes from is empty, and no byte can come there. -/
structure State.Starves (s : State) (allowed : Turn → Prop) (k : Nat) (op : HeldOp) (c : Block) : Prop where
  hold : s.fgst = .hold k op
  blk : s.blocks[k]? = some c
  dry : c.Dry op
  cut : c.Cut s.gie s.blocks.length allowed

theorem State.Starves.of_sameSystem {s t : State} {allowed : Turn → Prop} {k : Nat} {op : HeldOp} {c : Block}
    (h : s.Starves allowed k op c) (same : SameSystem s t) : t.Starves allowed k op c := by
  obtain ⟨hblocks, hfgst, hgie⟩ := same
  exact ⟨hfgst.trans h.hold, by rw [hblocks, h.blk], h.dry, by rw [hgie, hblocks]; exact h.cut⟩

/-- RX_ISR is disabled where no byte can come. -/
theorem Block.Cut.rxEnabled_eq_false {u : State} {n : Nat} {allowed : Turn → Prop} (h : u.blk.Cut u.gie n allowed) :
    u.rxEnabled = false := by
  rcases h with h | h | ⟨h, _⟩ <;> simp [State.rxEnabled, h]

/-- A starving operation starves on through every instruction that is not the foreground's. -/
theorem State.Starves.exec_keeps {s t : State} {allowed : Turn → Prop} {turn : Turn} {k : Nat} {op : HeldOp} {c : Block}
    {i : Instr} (h : s.Starves allowed k op c) (hallowed : allowed turn) (hexec : exec i s = .next t) (hport : i.role ≠ .port)
    (hstage : i.role ≠ .stage) (hclass : i.role ≠ .byteClass)
    (hline : ∀ b, i = .lineIn b → Turn.delivers s.blocks.length turn = true) : ∃ c', t.Starves allowed k op c' := by
  have frame := (exec_cases hexec).1
  have hlast : i ≠ .eTrl := by rintro rfl; exact hstage rfl
  have hold : t.fgst = .hold k op := (exec_fgst hexec hport hlast).trans h.hold
  have hgie : t.gie = s.gie := frame.gie (by rintro rfl; exact hport rfl) (by rintro rfl; exact hport rfl)
  have hlen : t.blocks.length = s.blocks.length := by rw [frame.blocks, List.length_set]
  by_cases hk : s.portNo = k
  · subst hk
    obtain rfl : s.blk = c := Option.some.inj ((getElem?_portNo s).symm.trans h.blk)
    by_cases hrx : i = .rxIsr
    · rw [hrx, exec_rxIsr_of_disabled h.cut.rxEnabled_eq_false, Host.Outcome.next.injEq] at hexec
      exact ⟨s.blk, hexec ▸ h⟩
    · obtain ⟨hrxq, hparser, hrxie, hrxc⟩ := exec_keeps_supply hexec hport hclass hrx
      refine ⟨t.blk, hold, exec_blocks_portNo hexec, h.dry.of_eq hparser hrxq, ?_⟩
      rw [hgie, hlen]
      rcases h.cut with off | off | ⟨empty, silent⟩
      · exact .inl off
      · exact .inr (.inl (hrxie.trans off))
      · refine .inr (.inr ⟨(hrxc fun b e => ?_).trans empty, silent⟩)
        have delivered := hline b e
        rw [silent turn hallowed] at delivered
        cases delivered
  · exact ⟨c, hold, by rw [frame.blocks, List.getElem?_set_ne hk, h.blk], h.dry, by rw [hgie, hlen]; exact h.cut⟩

/-- No allowed turn ends the wait of a starving operation, or makes progress (R237). -/
theorem State.Starves.step_keeps {s t : State} {allowed : Turn → Prop} {turn : Turn} {k : Nat} {op : HeldOp} {c : Block}
    (h : s.Starves allowed k op c) (hallowed : allowed turn) (hstep : step { s with script := [turn] } = .next t) :
    (∃ c', t.Starves allowed k op c') ∧ t.progress = s.progress := by
  have keeps := fetch_keeps { s with script := [turn] }
  have noClass := fetch_noByteClass { s with script := [turn] }
  rcases step_cases hstep with ⟨i, u, hrun, hexec⟩ | hpass
  · rw [hrun] at keeps noClass
    have same : SameSystem s u := keeps
    have hu := h.of_sameSystem same
    rcases fetch_of_hold (s := { s with script := [turn] }) h.hold hrun with ⟨rfl, rfl⟩ | ⟨hport, hstage⟩
    · obtain rfl : u.blk = c := Option.some.inj ((getElem?_portNo u).symm.trans hu.blk)
      rw [exec_held_of_dry hu.hold hu.dry, Host.Outcome.next.injEq] at hexec
      exact hexec ▸ ⟨⟨_, hu⟩, same.progress⟩
    · have hline : ∀ b, i = .lineIn b → Turn.delivers u.blocks.length turn = true := by
        rintro b rfl
        rw [same.1]
        exact delivers_of_fetch_lineIn h.hold hrun
      exact ⟨hu.exec_keeps hallowed hexec hport hstage noClass hline, (exec_progress hexec hport hstage).trans same.progress⟩
  · rw [hpass] at keeps
    have same : SameSystem s t := keeps
    exact ⟨⟨c, h.of_sameSystem same⟩, same.progress⟩

/-- An operation that starves hangs. -/
theorem State.Starves.hungUnder {s : State} {allowed : Turn → Prop} {k : Nat} {op : HeldOp} {c : Block}
    (h : s.Starves allowed k op c) : s.HungUnder allowed := by
  refine hungUnder_of_invariant (P := fun t => ∃ c, t.Starves allowed k op c) (by rw [h.hold]; simp) ⟨c, h⟩ ?_
  rintro t u turn ⟨_, ht⟩ hallowed hstep
  exact ht.step_keeps hallowed hstep

/-- Settles O58: the operation that waits starves, on any line with GIE = 0 or RXIE = 0, and with RXC = 0 on a silent one. -/
theorem waitingForDataThatCannotComeHangs : Obligations.WaitingForDataThatCannotComeHangs := by
  intro s u k hsel waits
  obtain ⟨_, _, hblk, _⟩ := select_spec hsel
  have starves : ∃ op, ∀ allowed, u.blk.Cut s.gie s.blocks.length allowed → s.Starves allowed k op u.blk := by
    rcases waits with ⟨hold, hnone, hempty⟩ | ⟨hold, hempty⟩
    · exact ⟨.get, fun _ cut => ⟨hold, hblk, ⟨hnone, hempty⟩, cut⟩⟩
    · exact ⟨.dqGet, fun _ cut => ⟨hold, hblk, hempty, cut⟩⟩
  obtain ⟨op, starves⟩ := starves
  refine ⟨fun off => (starves _ ?_).hungUnder, fun empty => (starves _ ?_).hungUnder⟩
  · exact off.imp_right .inl
  · exact .inr (.inr ⟨empty, fun _ silent => silent⟩)

end Sys2Proof.Machine
end

section
/-! What one instruction can do to the observers and to the other blocks (60_exceptions.md R232, R250), and the refusals of an
idle foreground (R236). -/

namespace Sys2Proof.Machine

/-! ### At most one event -/

/-- From one block to the other nothing is raised, or one event is: the event log and ERR move together (R232). -/
def Block.RaisesAtMostOne (b b' : Block) : Prop :=
  (b'.evlog = b.evlog ∧ b'.err = b.err) ∨
  ∃ e : Event, b'.evlog = b.evlog ++ [e] ∧ b'.err = b.err ||| BitVec.ofNat 8 (2 ^ e.code)

theorem Block.RaisesAtMostOne.refl (b : Block) : b.RaisesAtMostOne b := .inl ⟨rfl, rfl⟩

theorem raise_raisesAtMostOne (b : Block) (e : Event) : b.RaisesAtMostOne (b.raise e) := .inr ⟨e, rfl, rfl⟩

/-- PARSE raises DqDrop or FrmErr, or nothing (R180, R184). -/
theorem parse_raisesAtMostOne (b : Block) (c : Byte) : b.RaisesAtMostOne (b.parse c) := by
  cases hp : b.parser with
  | none => simpa [Block.parse, hp] using Block.RaisesAtMostOne.refl b
  | some p =>
    obtain ⟨p', h⟩ := parse_spec b c p hp
    rcases h.ev with ⟨herr, hlog⟩ | ⟨e, _, herr, hlog⟩
    · exact .inl ⟨hlog, herr⟩
    · exact .inr ⟨e, hlog, herr⟩

/-- The push raises RxqDrop or nothing (R125). -/
theorem rxPush_raisesAtMostOne (b : Block) : b.RaisesAtMostOne b.rxPush := by
  rcases rxPush_cases b with ⟨_, e⟩ | ⟨_, e⟩ <;> rw [e]
  · exact .inl ⟨rfl, rfl⟩
  · exact raise_raisesAtMostOne { b with rxc := false } _

/-- The receive handler raises at most one event: with a parser the byte finds room in the empty RXQ, and one byte is parsed
(R125, R42 item 7). -/
theorem rxHandler_raisesAtMostOne {b : Block} (h : b.Ok) : b.RaisesAtMostOne b.rxHandler := by
  obtain ⟨hrxq, _, _, _, _, _, hempty⟩ := h
  cases hp : b.parser.isSome with
  | true =>
    rw [rxHandler_of_empty hp hrxq (hempty hp)]
    exact parse_raisesAtMostOne { b with rxc := false, rxq := (b.rxq.store b.rdr).pop } b.rdr
  | false =>
    have hpush : b.rxHandler = b.rxPush := by simp [Block.rxHandler, hp]
    rw [hpush]
    exact rxPush_raisesAtMostOne b

/-- The line raises LineOvr or nothing (R124). -/
theorem lineDelivers_raisesAtMostOne (c : Byte) (b : Block) : b.RaisesAtMostOne (b.lineDelivers c) := by
  rcases lineDelivers_cases c b with ⟨_, e⟩ | ⟨_, e⟩ <;> rw [e]
  · exact .inl ⟨rfl, rfl⟩
  · exact raise_raisesAtMostOne b _

theorem txHandler_raisesAtMostOne (b : Block) : b.RaisesAtMostOne b.txHandler := by
  rcases txHandler_cases b with ⟨_, e⟩ | ⟨_, e⟩ <;> rw [e] <;> exact .inl ⟨rfl, rfl⟩

/-- LINE_IN, RX_ISR and PARSE are the effects that raise; all others leave the observers. -/
theorem ExecEffect.raisesAtMostOne {i : Instr} {s t : State} (h : ExecEffect i s t) (ok : s.blk.Ok) :
    s.blk.RaisesAtMostOne t.blk := by
  cases h with
  | lineIn c _ _ hb => rw [hb]; exact lineDelivers_raisesAtMostOne c _
  | rx _ _ _ hb => rw [hb]; exact rxHandler_raisesAtMostOne ok
  | parse c _ _ _ _ hb => rw [hb]; exact parse_raisesAtMostOne _ c
  | tx _ _ _ hb => rw [hb]; exact txHandler_raisesAtMostOne _
  | quiet hb => rw [hb]; exact .refl _
  | _ => rename_i hb; rw [hb]; exact .inl ⟨rfl, rfl⟩

/-- Settles O49: by the effect of the instruction; the invariants are needed for RX_ISR alone, which parses one byte. -/
theorem atMostOneEventPerStep : Obligations.AtMostOneEventPerStep := by
  rintro i s t ⟨hblocks, _⟩ h
  exact (exec_cases h).2.raisesAtMostOne (hblocks _ (blk_mem_blocks s))

/-! ### The other blocks -/

/-- No instruction gives a block a parser or takes it away (R5). -/
theorem ExecEffect.parser_isSome {i : Instr} {s t : State} (h : ExecEffect i s t) :
    t.blk.parser.isSome = s.blk.parser.isSome := by
  rcases h.parser_cases with ⟨hp, _⟩ | ⟨p, hp, _, ⟨_, hp'⟩ | ⟨_, hp'⟩⟩ | ⟨_, frame⟩
  · rw [hp]
  · rw [hp, hp']; rfl
  · rw [hp, hp']; rfl
  · simpa using congrArg Option.isSome frame.tail

/-- Settles O51: every instruction replaces the block at hand and no other (`ExecFrame.blocks`). -/
theorem otherBlocksAreUntouched : Obligations.OtherBlocksAreUntouched := by
  intro i s t h
  obtain ⟨frame, effect⟩ := exec_cases h
  have hport : t.portNo = s.portNo := by rw [State.portNo, frame.below, State.portNo]
  exact ⟨frame.below, frame.above, hport, fun j hj => by rw [frame.blocks, List.getElem?_set_ne hj.symm],
    effect.parser_isSome⟩

/-! ### Refusals -/

/-- Where there is no parser an idle foreground's operation that needs one is refused (R236). -/
theorem operate_withParser_of_none {s : State} (idle : s.fgst = .idle) (hnone : s.blk.parser = none) (op : Option HeldOp)
    (body : State → Parser → Answer) :
    (s.operate op fun s => s.withParser (body s)) = .next { s with refusals := s.refusals ++ [.noParser] } := by
  rw [operate_idle idle, withParser_none hnone, State.refuse]

/-- Settles O18: the foreground is idle, so each operation is taken; what it finds at its block is the reason to refuse it. -/
theorem refusedOperationOnlyMarksTheRun : Obligations.RefusedOperationOnlyMarksTheRun := by
  intro s idle
  refine ⟨?_, fun hsome => ?_, fun hnone i hi => ?_, fun hnone k => ?_, fun p hp k hk => ?_⟩
  · rw [exec, execReservedF, operate_idle idle, State.refuse]
  · rw [exec, execGet, operate_idle idle, if_pos hsome, State.refuse]
  · simp only [List.mem_cons, List.not_mem_nil, or_false] at hi
    rcases hi with rfl | rfl | rfl | rfl | rfl
    · rw [exec, execDqClear, operate_withParser_of_none idle hnone]
    · rw [exec, execDqAvail, operate_withParser_of_none idle hnone]
    · rw [exec, execDqGet, operate_withParser_of_none idle hnone]
    · rw [exec, execRdPstate, operate_withParser_of_none idle hnone]
    · rw [exec, execRdPlink, operate_withParser_of_none idle hnone]
  · rw [exec, execDqPeek, operate_withParser_of_none idle hnone]
  · rw [exec, execDqPeek, operate_idle idle, withParser_some hp, if_pos hk, State.refuse]

end Sys2Proof.Machine
end

section
/-! Waiting for room with GIE = 0 (70_reset_and_hazards.md R270; 60_exceptions.md R237): only TX_ISR at the block makes room in a
full TXQ, and with GIE = 0 it stays disabled, since a busy foreground does not write GIE. -/

namespace Sys2Proof.Machine

/-! ### A foreground that encodes -/

/-- ESTAGE selects a stage (R34). -/
theorem decode_stage_role {code : BitVec 3} {i : Instr} (h : decode (.stage code) = .ok i) : i.role = .stage := by
  simp only [decode, decodeStage] at h
  split at h <;> cases h <;> rfl

/-- Where the foreground encodes, a step runs a stage at its port, or an instruction that is no operation on a port and no stage
(R71, R160). -/
theorem fetch_of_encode {s u : State} {k : Nat} {i : Instr} (henc : s.fgst = .encode k) (h : s.fetch = .run i u) :
    (i.role = .stage ∧ u.portNo = k) ∨ (i.role ≠ .port ∧ i.role ≠ .stage) := by
  obtain ⟨_, hfgst, _⟩ := nextTurn_keeps s
  have henc' : s.nextTurn.2.fgst = .encode k := hfgst.trans henc
  rcases fetchTurn_busy (by simp [henc']) h with ⟨_, _, hf, _⟩ | ⟨_, hf, hsel, hdec⟩ | rfl | rfl | rfl |
    ⟨_, _, _, _, rfl⟩ | ⟨_, _, _, _, hdec⟩
  · cases henc'.symm.trans hf
  · cases henc'.symm.trans hf
    exact .inl ⟨decode_stage_role hdec, (select_spec hsel).2.1⟩
  · exact .inr (by decide)
  · exact .inr (by decide)
  · exact .inr (by decide)
  · exact .inr (by simp [Instr.role])
  · obtain ⟨_, _, _, _, rfl, _⟩ := decodeWire_ok hdec
    exact .inr (by simp [Instr.role])

/-! ### Waiting for room -/

/-- The foreground pushes into TXQ of block `k`, by a held PUT or by the stages of an ENCODE; TXQ is full there, and GIE = 0. -/
structure State.AwaitsRoom (s : State) (k : Nat) (c : Block) : Prop where
  pushes : (∃ b, s.fgst = .hold k (.put b)) ∨ s.fgst = .encode k
  gie : s.gie = false
  blk : s.blocks[k]? = some c
  full : c.txq.full = true

theorem State.AwaitsRoom.busy {s : State} {k : Nat} {c : Block} (h : s.AwaitsRoom k c) : s.fgst ≠ .idle := by
  rcases h.pushes with ⟨b, hold⟩ | henc
  · simp [hold]
  · simp [henc]

theorem State.AwaitsRoom.of_sameSystem {s t : State} {k : Nat} {c : Block} (h : s.AwaitsRoom k c) (same : SameSystem s t) :
    t.AwaitsRoom k c := by
  obtain ⟨hblocks, hfgst, hgie⟩ := same
  exact ⟨by rw [hfgst]; exact h.pushes, hgie.trans h.gie, by rw [hblocks, h.blk], h.full⟩

/-- With GIE = 0 an instruction that is no operation on a port and no stage leaves TXQ: PUT and the stages push, INIT empties
it, and TX_ISR, which pops, is disabled (R41, R70). -/
theorem exec_keeps_txq {i : Instr} {s t : State} (h : exec i s = .next t) (hgie : s.gie = false) (hport : i.role ≠ .port)
    (hstage : i.role ≠ .stage) : t.blk.txq = s.blk.txq := by
  rcases (exec_cases h).2.transmit_cases with same | ⟨_, rfl, _⟩ | ⟨⟨_, rfl⟩ | hrole, _⟩ | ⟨rfl, _⟩ | ⟨_, hb⟩
  · exact same.txq
  · exact absurd rfl hport
  · exact absurd rfl hport
  · exact absurd hrole hstage
  · rw [exec_txIsr_of_disabled (by simp [State.txEnabled, hgie]), Host.Outcome.next.injEq] at h
    rw [h]
  · rw [hb]
    rfl

/-- What a step runs while the foreground waits for room changes nothing, as the push is tried again in vain (R121, R161), or is no
operation on a port and no stage. -/
theorem State.AwaitsRoom.fetch_cases {s u : State} {k : Nat} {c : Block} {i : Instr} (h : s.AwaitsRoom k c)
    (hrun : s.fetch = .run i u) (same : SameSystem s u) :
    exec i u = .next u ∨ (i.role ≠ .port ∧ i.role ≠ .stage) := by
  have hu := h.of_sameSystem same
  have full : u.portNo = k → u.blk.txq.full = true := by
    rintro rfl
    rw [Option.some.inj ((getElem?_portNo u).symm.trans hu.blk), hu.full]
  rcases h.pushes with ⟨b, hold⟩ | henc
  · refine (fetch_of_hold hold hrun).imp_left ?_
    rintro ⟨rfl, rfl⟩
    have hold' : u.fgst = .hold u.portNo (.put b) := same.2.1.trans hold
    rw [HeldOp.instr, exec_put_of_full (.inr hold') (full rfl), State.hold, ← hold']
  · refine (fetch_of_encode henc hrun).imp_left ?_
    rintro ⟨hstage, rfl⟩
    exact stagesHoldWhileTxqIsFull u (same.2.1.trans henc) (full rfl) i (mem_stages_of_role hstage)

/-- A foreground that waits for room waits on through every instruction that is not its own. -/
theorem State.AwaitsRoom.exec_keeps {s t : State} {k : Nat} {c : Block} {i : Instr} (h : s.AwaitsRoom k c)
    (hexec : exec i s = .next t) (hport : i.role ≠ .port) (hstage : i.role ≠ .stage) : ∃ c', t.AwaitsRoom k c' := by
  have frame := (exec_cases hexec).1
  have hfgst : t.fgst = s.fgst := exec_fgst hexec hport (by rintro rfl; exact hstage rfl)
  have pushes : (∃ b, t.fgst = .hold k (.put b)) ∨ t.fgst = .encode k := by rw [hfgst]; exact h.pushes
  have hgie : t.gie = false := (frame.gie (by rintro rfl; exact hport rfl) (by rintro rfl; exact hport rfl)).trans h.gie
  by_cases hk : s.portNo = k
  · subst hk
    obtain rfl : s.blk = c := Option.some.inj ((getElem?_portNo s).symm.trans h.blk)
    exact ⟨t.blk, pushes, hgie, exec_blocks_portNo hexec, by rw [exec_keeps_txq hexec h.gie hport hstage, h.full]⟩
  · exact ⟨c, pushes, hgie, by rw [frame.blocks, List.getElem?_set_ne hk, h.blk], h.full⟩

/-- No turn ends the wait for room, or makes progress (R237). -/
theorem State.AwaitsRoom.step_keeps {s t : State} {k : Nat} {c : Block} (h : s.AwaitsRoom k c) (hstep : step s = .next t) :
    (∃ c', t.AwaitsRoom k c') ∧ t.progress = s.progress := by
  have keeps := fetch_keeps s
  rcases step_cases hstep with ⟨i, u, hrun, hexec⟩ | hpass
  · rw [hrun] at keeps
    have same : SameSystem s u := keeps
    have hu := h.of_sameSystem same
    rcases h.fetch_cases hrun same with holds | ⟨hport, hstage⟩
    · rw [holds, Host.Outcome.next.injEq] at hexec
      exact hexec ▸ ⟨⟨c, hu⟩, same.progress⟩
    · exact ⟨hu.exec_keeps hexec hport hstage, (exec_progress hexec hport hstage).trans same.progress⟩
  · rw [hpass] at keeps
    have same : SameSystem s t := keeps
    exact ⟨⟨c, h.of_sameSystem same⟩, same.progress⟩

/-- A foreground that waits for room is hung: the schedule it is given is no part of the wait. -/
theorem State.AwaitsRoom.hung {s : State} {k : Nat} {c : Block} (h : s.AwaitsRoom k c) : s.Hung := by
  refine hungUnder_of_invariant (P := fun t => ∃ c, t.AwaitsRoom k c) h.busy ⟨c, h⟩ ?_
  rintro t u turn ⟨_, ht⟩ _ hstep
  exact (ht.of_sameSystem (t := { t with script := [turn] }) ⟨rfl, rfl, rfl⟩).step_keeps hstep

/-- Settles O57: a held PUT and an ENCODE both wait for room. -/
theorem waitingForRoomWithGieOffHangs : Obligations.WaitingForRoomWithGieOffHangs := by
  intro s u k hgie hsel hfull
  obtain ⟨_, _, hblk, _⟩ := select_spec hsel
  exact ⟨fun b hold => State.AwaitsRoom.hung ⟨.inl ⟨b, hold⟩, hgie, hblk, hfull⟩,
    fun henc => State.AwaitsRoom.hung ⟨.inr henc, hgie, hblk, hfull⟩⟩

end Sys2Proof.Machine
end

section
/-! Two hazards of the receive side (70_reset_and_hazards.md R272, R277): the trailer of link 0x40 is a start byte, and DQ only gains
until the foreground consumes. -/

namespace Sys2Proof.Machine

/-! ### The trailer of link 0x40 -/

/-- The trailer expected, where it is 0xBF, starts a frame, and no event is raised (R180, R272). -/
theorem parse_sofByte_as_trailer {b : Block} {p : Parser} (hp : b.parser = some p) (hs : p.pstate = .waitSOF)
    (ht : p.ptrailv = true) (hc : p.ptrail = sofByte) :
    b.parse sofByte = b.setParser { p with ptrailv := false, pstate := .waitLink } := by
  have due : p.frmErrDue sofByte = false := by simp [Parser.frmErrDue, ht, hc]
  have check : b.trailerCheck p sofByte = b := by simp [Block.trailerCheck, due]
  have cls : classify p.pstate sofByte = .sof := by rw [hs]; rfl
  have sof : b.parse sofByte = b.parseSof p := by simp only [Block.parse, hp, cls]
  rw [sof, Block.parseSof, check]

/-- Settles O36: up to its trailer the frame is received like any other; the trailer expected is then 0xBF. -/
theorem linkFortyLeavesTheParserInWaitLink : Obligations.LinkFortyLeavesTheParserInWaitLink := by
  intro b p f hp ok hs ht hlink hlen fits
  obtain ⟨q, _, _, hlive, untilTrailer⟩ := parseAll_untilTrailer f.link f.flags hp ok hs ht hlen fits
  have trailer : trailerOf f.link = sofByte := trailerOf_eq_sofByte.2 hlink
  have whole : b.parseAll f.bytes = b.setParser
      { p with dq := q, plink := f.link, plinkv := true, ptrail := sofByte, ptrailv := false, pstate := .waitLink } := by
    calc b.parseAll f.bytes
      _ = (b.parseAll ([sofByte, f.link, f.flags, BitVec.ofNat 8 f.payload.length] ++ f.payload)).parse (trailerOf f.link) :=
        parseAll_append _ b [trailerOf f.link]
      _ = _ := by
        rw [untilTrailer, trailer]
        exact parse_sofByte_as_trailer (setParser_parser b _) (by exact hs) rfl rfl
  rw [whole]
  exact ⟨_, rfl, rfl, hlive, rfl⟩

/-! ### DQ only grows -/

/-- PARSE of one byte leaves the contents of DQ, or adds to them at the end (R184). -/
theorem parse_dq_grows {b : Block} {p : Parser} (hp : b.parser = some p) (ok : p.Ok) (c : Byte) :
    ∃ p', (b.parse c).parser = some p' ∧ p.dq.live <+: p'.dq.live := by
  obtain ⟨p', h⟩ := parse_spec b c p hp
  exact ⟨p', by rw [h.eq], (h.ok ok).2⟩

/-- An instruction other than DQ_GET and DQ_CLEAR leaves the parser, or is PARSE of one byte; the invariants are needed for RX_ISR,
which drains RXQ of the byte it has pushed (R42 item 7). -/
theorem ExecEffect.dq_grows {i : Instr} {s t : State} (h : ExecEffect i s t) (ok : s.blk.Ok) (hget : i ≠ .dqGet)
    (hclear : i ≠ .dqClear) {p : Parser} (hp : s.blk.parser = some p) :
    ∃ p', t.blk.parser = some p' ∧ p.dq.live <+: p'.dq.live := by
  obtain ⟨hrxq, _, parserOk, _, _, _, hempty⟩ := ok
  have same : ∀ {b : Block}, t.blk = b → b.parser = s.blk.parser → ∃ p', t.blk.parser = some p' ∧ p.dq.live <+: p'.dq.live := by
    rintro _ rfl hsame
    exact ⟨p, hsame.trans hp, List.prefix_rfl⟩
  cases h with
  | dqGet _ hi => exact absurd hi hget
  | dqClear _ hi => exact absurd hi hclear
  | rx _ _ _ hb =>
    have hsome : s.blk.parser.isSome = true := by rw [hp]; rfl
    rw [hb, rxHandler_of_empty hsome hrxq (hempty hsome)]
    exact parse_dq_grows (b := { s.blk with rxc := false, rxq := (s.blk.rxq.store s.blk.rdr).pop }) hp (parserOk p hp) _
  | parse c _ _ _ _ hb =>
    rw [hb]
    exact parse_dq_grows hp (parserOk p hp) c
  | lineIn c _ _ hb => rcases lineDelivers_cases c s.blk with ⟨_, e⟩ | ⟨_, e⟩ <;> exact same (hb.trans e) rfl
  | tx _ _ _ hb => rcases txHandler_cases s.blk with ⟨_, e⟩ | ⟨_, e⟩ <;> exact same (hb.trans e) rfl
  | quiet hb => exact same hb rfl
  | _ => rename_i hb; exact same hb rfl

/-- Settles O55: by the effect of the instruction on its block. -/
theorem dqCountOnlyGrowsUntilConsumed : Obligations.DqCountOnlyGrowsUntilConsumed := by
  rintro i s t p ⟨hblocks, _⟩ hexec hget hclear hp
  exact (exec_cases hexec).2.dq_grows (hblocks _ (blk_mem_blocks s)) hget hclear hp

end Sys2Proof.Machine
end

section
/-! Selecting the block of a turn (the model's own representation, log entry 3). -/

namespace Sys2Proof.Machine

/-- Settles O44: by `select_spec`, whose last part says that the selected state is the old one but for the three fields that split the
blocks (`below`, `blk`, `above`). -/
theorem selectingABlockChangesNoBlock : Obligations.SelectingABlockChangesNoBlock := by
  intro s u k hselect
  obtain ⟨hblocks, hportNo, hblk, onlyTheSplit⟩ := select_spec hselect
  refine ⟨hblocks, hblk, hportNo, ?_⟩
  rw [onlyTheSplit]
  exact ⟨rfl, rfl, rfl, rfl, rfl, rfl, rfl⟩

end Sys2Proof.Machine
end
